-- ==== Sys2Proof/Word.lean ====
section
/-! DEFINITION. The widths of the block's quantities (00_scope.md R5, R10; 30_encoding.md R90, R100). -/

namespace Sys2Proof

/-- A byte of LUT, FB, WB or PER_Q, and a channel value (R5, R10). -/
abbrev Byte := BitVec 8

/-- One word of the command port or the response port (R100). -/
abbrev Word := BitVec 32

/-- A pixel colour: red in bits 23:16, green in 15:8, blue in 7:0 (R90). -/
abbrev Colour := BitVec 24

end Sys2Proof
end

