-- ==== Sys2Proof/Config.lean ====
section
/-! DEFINITION. The parameters of 00_scope.md R7, the choices the environment makes, and the opaque free values. -/

namespace Sys2Proof

/-- `TxStrategy` of R7: how the engine waits for the end of a transfer. -/
inductive TxStrategy
  | completionWait
  | freeRun
  deriving DecidableEq, Repr

/-- `InitSignal` of R7: what INIT leaves in SIG; `any` is a draw (D13). -/
inductive InitSignal
  | zero
  | one
  | any
  deriving DecidableEq, Repr

/-- The parameters of R7, fixed before the first INIT and never changed (R242). -/
structure Params where
  /-- number of trailing zero bytes of a frame -/
  resetBytes : Nat
  /-- serial bits per second of the peripheral -/
  protocolBitRate : Nat
  /-- the peripheral has the lane quirk and the block compensates for it (R196) -/
  laneSwap : Bool
  /-- completion notification or free-running retransmission -/
  txStrategy : TxStrategy
  /-- how many times teardown examines EXITED -/
  deinitRetryBound : Nat
  /-- SIG after INIT -/
  initSignal : InitSignal
  deriving DecidableEq, Repr

/-- The limits R7 sets: `1 ≤ ProtocolBitRate < 2^32` and `DeinitRetryBound ≥ 1`. -/
abbrev Params.wf (p : Params) : Prop :=
  1 ≤ p.protocolBitRate ∧ p.protocolBitRate < 2 ^ 32 ∧ 1 ≤ p.deinitRetryBound

/-- Which agent the environment lets move next (R8, R12). -/
inductive Turn
  /-- a producer's next command is taken from the command port -/
  | command
  /-- the producer of the `k`-th SETPIXEL call in progress takes its signal step -/
  | signal (k : Nat)
  /-- the producer of the DEINIT in progress examines EXITED -/
  | poll
  /-- the transmission engine -/
  | engine
  /-- the serial peripheral -/
  | peripheral
  /-- a read of the lookup table (R120) -/
  | lookup (v : Byte)
  /-- the assembler evaluates RGB (R107) -/
  | makeColour (r g b : Byte)
  /-- the assembler evaluates R (R107) -/
  | takeRed (c : Colour)
  /-- the assembler evaluates G (R107) -/
  | takeGreen (c : Colour)
  /-- the assembler evaluates B (R107) -/
  | takeBlue (c : Colour)
  deriving DecidableEq, Repr, Inhabited

/-- `ResetBytes`: open, no default (R7, D9). DESIGN CHOICE, log 1. -/
opaque Config.resetBytes : Nat

/-- `ProtocolBitRate` less 1 modulo its range: open, no default (R7, D10). DESIGN CHOICE, log 1. -/
opaque Config.bitRateSource : Nat

/-- `DeinitRetryBound` less 1: open, no default (R7, D23). DESIGN CHOICE, log 1. -/
opaque Config.retrySource : Nat

/-- Free value: the answer to a draw the environment has not fixed in advance. DESIGN CHOICE, log 7. -/
opaque Config.freeBit : Nat → Bool

/-- Free value: contents of WB before the first snapshot (R23, D35). DESIGN CHOICE, log 8. -/
opaque Config.freeByte : Nat → Nat → Byte

/-- Free value: the agent that moves when the schedule is exhausted. DESIGN CHOICE, log 2. -/
opaque Config.freeTurn : Nat → Turn

/-- This hardware: the values R7 settles, and the open ones opaque within R7's limits. -/
def Config.params : Params where
  resetBytes := Config.resetBytes
  protocolBitRate := 1 + Config.bitRateSource % (2 ^ 32 - 1)
  laneSwap := true
  txStrategy := .completionWait
  deinitRetryBound := 1 + Config.retrySource
  initSignal := .any

end Sys2Proof
end

