-- ==== Sys2Proof/Syntax.lean ====
section
/-! DEFINITION. The operations and steps of the block: one constructor for each row of spec/opcode_table.json. -/

namespace Sys2Proof

/-- A pixel update record (R92): an index of 32 bits and a colour of 24 bits. -/
structure PixelUpdate where
  index : Word
  colour : Colour
  deriving DecidableEq, Repr

/-- The rows of spec/opcode_table.json, in the table's order. -/
inductive Instr
  /-- INIT (R170) -/
  | init (pixelCount outputDescriptor : Word)
  /-- DEINIT (R177) -/
  | deinit
  /-- SETPIXEL (R130) -/
  | setPixel (records : List PixelUpdate)
  /-- GETREFRESHRATE (R176) -/
  | getRefreshRate
  /-- ENCODE (R120) -/
  | encode (v : Byte)
  /-- SP_COMMIT (R131) -/
  | spCommit (records : List PixelUpdate)
  /-- SP_SIGNAL (R135), of the `call`-th SETPIXEL call in progress (log 4) -/
  | spSignal (call : Nat)
  /-- DI_REQUEST (R177) -/
  | diRequest
  /-- DI_POLL (R178) -/
  | diPoll
  /-- DI_RELEASE (R179) -/
  | diRelease
  /-- DI_TIMEOUT (R180) -/
  | diTimeout
  /-- TX_WAKE (R146) -/
  | txWake
  /-- TX_CHECK (R147) -/
  | txCheck
  /-- TX_EXIT (R147), the exit branch of TX_CHECK -/
  | txExit
  /-- TX_SNAPSHOT (R148) -/
  | txSnapshot
  /-- TX_ENABLE (R149) -/
  | txEnable
  /-- TX_STREAM (R150) -/
  | txStream
  /-- TX_DRAIN (R151) -/
  | txDrain
  /-- TX_RESEND (R154) -/
  | txResend
  /-- TX_DISABLE (R152) -/
  | txDisable
  /-- T_EXITED (R153), the phase with no step -/
  | tExited
  /-- PER_EMIT (R155) -/
  | perEmit
  /-- PER_COMPLETE (R156) -/
  | perComplete
  /-- RGB(r,g,b) (R107) -/
  | rgb (r g b : Byte)
  /-- R(c) (R107) -/
  | red (c : Colour)
  /-- G(c) (R107) -/
  | green (c : Colour)
  /-- B(c) (R107) -/
  | blue (c : Colour)
  deriving DecidableEq, Repr

end Sys2Proof
end

