-- ==== Sys2Proof/WellFormed.lean ====
section
/-! DEFINITION. The well-formedness of an instruction: the number of records fits the header's `n` (R100, R103). -/

namespace Sys2Proof

/-- `0 ≤ N < 2^30` (R100). -/
def recordsFit (records : List PixelUpdate) : Bool :=
  decide (records.length < 2 ^ 30)

/-- Every other operand is as wide as its type says, so only the record count can be out of range. -/
def Instr.wf : Instr → Bool
  | .setPixel records => recordsFit records
  | .spCommit records => recordsFit records
  | .init _ _ => true
  | .deinit => true
  | .getRefreshRate => true
  | .encode _ => true
  | .spSignal _ => true
  | .diRequest => true
  | .diPoll => true
  | .diRelease => true
  | .diTimeout => true
  | .txWake => true
  | .txCheck => true
  | .txExit => true
  | .txSnapshot => true
  | .txEnable => true
  | .txStream => true
  | .txDrain => true
  | .txResend => true
  | .txDisable => true
  | .tExited => true
  | .perEmit => true
  | .perComplete => true
  | .rgb _ _ _ => true
  | .red _ => true
  | .green _ => true
  | .blue _ => true

end Sys2Proof
end

