-- ==== Sys2Proof/Decode.lean ====
section
/-! DEFINITION. The three places an operation is named by bits (R110): the words of the command port, the index into
LUT, the 4-bit code of PHASE. The decoders, then the encoder written from the same tables. -/

namespace Sys2Proof

/-- Why bits name no operation. -/
inductive DecodeError
  /-- no word on the command port -/
  | noCommand
  /-- `op ≠ 10` with `n ≠ 0` (R105) -/
  | reservedHeader
  /-- fewer words than the header requires (R105) -/
  | truncatedCommand
  /-- a PHASE code 9 to 15, never held (R29) -/
  | unusedPhase
  /-- a row with no bit pattern of its own (R110) -/
  | noEncoding
  deriving DecidableEq, Repr

/-- `op = H[31:30]` (R100). -/
def headerOp (h : Word) : BitVec 2 := h.extractLsb' 30 2

/-- `n = H[29:0]` (R100). -/
def headerN (h : Word) : Nat := (h.extractLsb' 0 30).toNat

/-- The length of a command in words, from its header alone (R104). -/
def commandLength (h : Word) : Nat :=
  match headerOp h with
  | 0b00#2 => 3
  | 0b10#2 => 1 + 2 * headerN h
  | _ => 1

/-- A record from its two words; bits 31:24 of the carrier are ignored (R103). -/
def recordOfWords (index carrier : Word) : PixelUpdate :=
  ⟨index, carrier.extractLsb' 0 24⟩

/-- The first `n` records of the operand words, and the words after them (R103). -/
def takeRecords : Nat → List Word → Option (List PixelUpdate × List Word)
  | 0, ws => some ([], ws)
  | n + 1, i :: c :: ws =>
    match takeRecords n ws with
    | some (records, rest) => some (recordOfWords i c :: records, rest)
    | none => none
  | _ + 1, [_] => none
  | _ + 1, [] => none

/-- The next command on the port and the words after it (R100 to R105, R110). -/
def decodeCommand : List Word → Except DecodeError (Instr × List Word)
  | [] => .error .noCommand
  | h :: ws =>
    match headerOp h with
    | 0b10#2 =>
      match takeRecords (headerN h) ws with
      | some (records, rest) => .ok (.setPixel records, rest)
      | none => .error .truncatedCommand
    | 0b00#2 =>
      if headerN h = 0 then
        match ws with
        | pixelCount :: outputDescriptor :: rest => .ok (.init pixelCount outputDescriptor, rest)
        | [_] => .error .truncatedCommand
        | [] => .error .truncatedCommand
      else .error .reservedHeader
    | 0b01#2 => if headerN h = 0 then .ok (.deinit, ws) else .error .reservedHeader
    | _ => if headerN h = 0 then .ok (.getRefreshRate, ws) else .error .reservedHeader

/-- The engine's step in the phase with this code (R29, R110). -/
def decodePhase (c : BitVec 4) : Except DecodeError Instr :=
  match c with
  | 0#4 => .ok .txWake
  | 1#4 => .ok .txCheck
  | 2#4 => .ok .txSnapshot
  | 3#4 => .ok .txEnable
  | 4#4 => .ok .txStream
  | 5#4 => .ok .txDrain
  | 6#4 => .ok .txResend
  | 7#4 => .ok .txDisable
  | 8#4 => .ok .tExited
  | _ => .error .unusedPhase

/-- ENCODE's encoding is its input (R120). -/
def decodeLutIndex (v : Byte) : Instr := .encode v

/-- Where the bits that name an operation stand (R110). -/
inductive Encoding
  /-- words of the command port -/
  | command (words : List Word)
  /-- an index into LUT -/
  | lutIndex (v : Byte)
  /-- a code of PHASE -/
  | phaseCode (c : BitVec 4)
  /-- no bit pattern of its own: a step of a command, a peripheral's step, an assembler's row -/
  | unencoded
  deriving DecidableEq, Repr

/-- The operation the bits name, and the words of the command port left over. -/
def decode : Encoding → Except DecodeError (Instr × List Word)
  | .command ws => decodeCommand ws
  | .lutIndex v => .ok (decodeLutIndex v, [])
  | .phaseCode c =>
    match decodePhase c with
    | .ok i => .ok (i, [])
    | .error e => .error e
  | .unencoded => .error .noEncoding

/-- A header word from `op` and `n` (R100). -/
def headerWord (op : BitVec 2) (n : Nat) : Word := op ++ BitVec.ofNat 30 n

/-- The two words of a record, the carrier's bits 31:24 written as 0 (R103). -/
def wordsOfRecord (u : PixelUpdate) : List Word := [u.index, u.colour.setWidth 32]

/-- The bits of an instruction, from the same tables (R100 to R104, R110). A step of a command has no encoding of its
own; TX_EXIT shares TX_CHECK's code. -/
def encode : Instr → Encoding
  | .init pixelCount outputDescriptor => .command [headerWord 0b00 0, pixelCount, outputDescriptor]
  | .deinit => .command [headerWord 0b01 0]
  | .setPixel records => .command (headerWord 0b10 records.length :: records.flatMap wordsOfRecord)
  | .getRefreshRate => .command [headerWord 0b11 0]
  | .encode v => .lutIndex v
  | .txWake => .phaseCode 0
  | .txCheck => .phaseCode 1
  | .txExit => .phaseCode 1
  | .txSnapshot => .phaseCode 2
  | .txEnable => .phaseCode 3
  | .txStream => .phaseCode 4
  | .txDrain => .phaseCode 5
  | .txResend => .phaseCode 6
  | .txDisable => .phaseCode 7
  | .tExited => .phaseCode 8
  | .spCommit _ => .unencoded
  | .spSignal _ => .unencoded
  | .diRequest => .unencoded
  | .diPoll => .unencoded
  | .diRelease => .unencoded
  | .diTimeout => .unencoded
  | .perEmit => .unencoded
  | .perComplete => .unencoded
  | .rgb _ _ _ => .unencoded
  | .red _ => .unencoded
  | .green _ => .unencoded
  | .blue _ => .unencoded

/-- The instructions whose bits name them and no other (R110): all but the unencoded rows and TX_EXIT. -/
def hasOwnEncoding (i : Instr) : Bool :=
  decide (encode i ≠ .unencoded) && decide (i ≠ .txExit)

/-- The words of the command port that a table word `w` of `nbits` bits stands for: word `j` is bits `32j+31 .. 32j`,
and every operand word above `nbits` is zero. -/
def tableWords (nbits w : Nat) : List Word :=
  let given := (List.range (nbits / 32)).map fun j => BitVec.ofNat 32 (w >>> (32 * j))
  match given with
  | [] => []
  | h :: _ => given ++ List.replicate (commandLength h - given.length) 0#32

/-- The instruction the decoders read from a table word: a PHASE code of 4 bits, an index into LUT of 8, or the words
of a command (log 18). -/
def decodeTableWord (nbits w : Nat) : Option Instr :=
  if nbits = 4 then
    match decodePhase (BitVec.ofNat 4 w) with
    | .ok i => some i
    | .error _ => none
  else if nbits = 8 then some (decodeLutIndex (BitVec.ofNat 8 w))
  else
    match decodeCommand (tableWords nbits w) with
    | .ok (i, _) => some i
    | .error _ => none

end Sys2Proof
end

