-- ==== Sys2Proof/Machine/State.lean ====
section
/-! DEFINITION. The state of one instance of the block (10_state.md), its value at power-on (R41, R240), and the ways a
step can stop (R13, R105, R181, R215). -/

namespace Sys2Proof.Machine

/-- LIFE (R20). -/
inductive Life
  | absent
  | running
  | teardown
  | destroyed
  | leaked
  deriving DecidableEq, Repr

/-- PHASE (R29): where the engine stands in its loop. -/
inductive Phase
  | tIdle
  | tCheck
  | tSnap
  | tEnable
  | tStream
  | tDrain
  | tResend
  | tDisable
  | tExited
  deriving DecidableEq, Repr

/-- The error taxonomy (R210). None of them stops the machine. -/
inductive Err
  | allocationFailure
  | configurationFailure
  | invalidIndex
  | terminationTimeout
  deriving DecidableEq, Repr

/-- What a function or pseudo-operation row returned (log 12). -/
inductive FuncValue
  | none
  /-- an entry of LUT (R120) -/
  | entry (bytes : List Byte)
  /-- a colour (R107) -/
  | colour (c : Colour)
  /-- a channel value (R107) -/
  | channel (v : Byte)
  deriving DecidableEq, Repr

/-- A SETPIXEL call between its two steps (R37): its `ok`, and whether a DEINIT has begun since its commit, which makes
its signal step a late one for good (R242, R251, U8; log 21). -/
structure PendingCall where
  ok : Bool
  late : Bool
  deriving DecidableEq, Repr

/-- Bytes by position, one canonical form: positions strictly rising, no byte equal to 0, which is what an unlisted
position reads as ("zero-initializes it", R170; log 9). -/
abbrev Memory := List Host.Cell

/-- The faults of the model (R215). A fault ends the run: the faulted mark is never cleared (R13; log 19). -/
inductive Fault
  /-- Raised by TX_STREAM when the peripheral's Write accepts fewer than L bytes or times out (R150, R215). Safe: the
  chip may retry and go on. -/
  | shortWrite
  /-- Raised by any access to FB or WB at an offset outside `0 .. L−1` (R61, R215). Safe: unreachable in a well-formed
  configuration. -/
  | bufferBounds
  deriving DecidableEq, Repr

/-- The refusals of the model (R13): the spec gives the case no meaning and says so. -/
inductive Refusal
  /-- Raised by exec's arm of an instruction that has no meaning yet. Safe. -/
  | notModelled (mnemonic : String)
  /-- Raised by INIT, SETPIXEL and its steps, GETREFRESHRATE, DEINIT and DI_REQUEST outside the LIFE values of R181, and
  by the signal step of a SETPIXEL call that a DEINIT has overtaken (R251; log 21). Safe. -/
  | outsideLifecycle
  /-- Raised by INIT when LaneSwap holds and `L` is odd (R71, R170). Safe. -/
  | oddFrameLength
  /-- Raised by GETREFRESHRATE when `L = 0` (R176). Safe. -/
  | zeroFrameLength
  /-- Raised by the command port on a header with `op ≠ 10` and `n ≠ 0` (R105). Safe. -/
  | reservedHeader
  /-- Raised by the command port on a command whose words end early (R105). Safe. -/
  | truncatedCommand
  deriving DecidableEq, Repr

/-- The state of one instance (R9). -/
structure State where
  /-- the parameters of R7; no step writes them (R242; log 1) -/
  params : Params
  /-- LIFE (R20) -/
  life : Life
  /-- PIXCNT (R21) -/
  pixcnt : Word
  /-- FB by physical position (R22) -/
  fb : Memory
  /-- WB by physical position (R23) -/
  wb : Memory
  /-- SIG (R25) -/
  sig : Bool
  /-- TERM (R26) -/
  term : Bool
  /-- EXITED (R27) -/
  exited : Bool
  /-- DONE (R28) -/
  done : Bool
  /-- PHASE (R29) -/
  phase : Phase
  /-- TXIDX (R30) -/
  txidx : Nat
  /-- PER_EN (R31) -/
  perEn : Bool
  /-- PER_RATE (R32) -/
  perRate : Nat
  /-- PER_Q (R33), oldest byte first -/
  perQ : List Byte
  /-- WIRE (R34), oldest bit first, `true` for line high -/
  wire : List Bool
  /-- LOCK (R35; log 13) -/
  lock : Bool
  /-- DPOLL (R36) -/
  dpoll : Nat
  /-- the SETPIXEL calls between their two steps, oldest first (R37; log 4) -/
  calls : List PendingCall
  /-- STATUS (R40) -/
  status : BitVec 8
  /-- words on the command port not yet taken, the next first (R100; log 14) -/
  cmds : List Word
  /-- words delivered on the response port, oldest first (R106) -/
  responses : List Word
  /-- the model's own field: what the last function or pseudo-operation row returned (log 12) -/
  value : FuncValue
  /-- the model's own field: which agents move next (log 2) -/
  turns : List Turn
  /-- the model's own field: answers the environment has fixed for the next draws (log 7) -/
  draws : List Bool
  /-- the model's own field: how many bytes the next Write calls accept (log 10) -/
  writeTakes : List Nat
  /-- the model's own field: the counter that makes free values fresh (log 7) -/
  tick : Nat
  deriving DecidableEq, Repr

/-- Power-on (R41, R240): LIFE, STATUS, WIRE and the absence of FB, WB and PER_Q as the spec gives them; every other
value is the one log 6 names (DESIGN CHOICE). -/
def State.reset : State where
  params := Config.params
  life := .absent
  pixcnt := 0
  fb := []
  wb := []
  sig := false
  term := false
  exited := false
  done := false
  phase := .tIdle
  txidx := 0
  perEn := false
  perRate := 0
  perQ := []
  wire := []
  lock := false
  dpoll := 0
  calls := []
  status := 0
  cmds := []
  responses := []
  value := .none
  turns := []
  draws := []
  writeTakes := []
  tick := 0

end Sys2Proof.Machine
end

