-- ==== Sys2Proof/Machine/Operands.lean ====
section
/-! DEFINITION. Operand forms: colours and their channels, the lookup table, the encoded pixel, offsets and the lane
swap, the frame, the codes of PHASE, the bits of a byte on the wire. -/

namespace Sys2Proof.Machine

/-! ### Colours (R90, R91, R107) -/

/-- `R(c) = c[23:16]` (R107). -/
def redOf (c : Colour) : Byte := c.extractLsb' 16 8

/-- `G(c) = c[15:8]` (R107). -/
def greenOf (c : Colour) : Byte := c.extractLsb' 8 8

/-- `B(c) = c[7:0]` (R107). -/
def blueOf (c : Colour) : Byte := c.extractLsb' 0 8

/-- `RGB(r, g, b) = (r << 16) | (g << 8) | b` (R107). -/
def rgbOf (r g b : Byte) : Colour :=
  (r.setWidth 24 <<< 16) ||| (g.setWidth 24 <<< 8) ||| b.setWidth 24

/-- The channel in slot 0, 1 or 2: green, red, blue (R63, R91). -/
def channelOf (c : Colour) (slot : Nat) : Byte :=
  match slot with
  | 0 => greenOf c
  | 1 => redOf c
  | _ => blueOf c

/-! ### The lookup table (R93 to R95, R120, R121) -/

/-- One turn of R121's first loop: the template `1, v[i], 0` is shifted in. -/
def shiftInTemplate (v : Byte) (w : BitVec 24) (i : Nat) : BitVec 24 :=
  (w <<< 3) ||| 0b100#24 ||| ((BitVec.ofBool (v.getLsbD i)).setWidth 24 <<< 1)

/-- The 24 pulse slots of entry `v`, slot 0 in bit 23: R121's loop over `i = 7` down to `0`. -/
def lutSlots (v : Byte) : BitVec 24 :=
  [7, 6, 5, 4, 3, 2, 1, 0].foldl (shiftInTemplate v) 0

/-- `LUT[v][j]`, `j` in 0..2 (R121). -/
def lut (v : Byte) (j : Nat) : Byte := (lutSlots v).extractLsb' (16 - 8 * j) 8

/-- The byte at offset `3v + j` of the 768-byte memory LUT (R60). -/
def lutRead (a : Nat) : Byte := lut (BitVec.ofNat 8 (a / 3)) (a % 3)

/-- `ENCODE(v) = MemRead(LUT, 3*v, 3)` (R120). -/
def encodeBytes (v : Byte) : List Byte :=
  (List.range 3).map fun j => lutRead (3 * v.toNat + j)

/-! ### The encoded pixel and the frame (R6, R68, R96 to R99) -/

/-- Logical byte `k` of an encoded pixel: `LUT[ch(k / 3)][k mod 3]` (R96). -/
def pixelByte (c : Colour) (k : Nat) : Byte := lut (channelOf c (k / 3)) (k % 3)

/-- The nine bytes of an encoded pixel in logical order (R96). -/
def pixelBytes (c : Colour) : List Byte := (List.range 9).map (pixelByte c)

/-- `L = 9 × pixelCount + ResetBytes`, no wrap (R6). -/
def frameLength (p : Params) (pixelCount : Word) : Nat := 9 * pixelCount.toNat + p.resetBytes

/-- `phys(o)` (R68): `o XOR 1` over the whole frame with the lane swap. -/
def phys (p : Params) (o : Nat) : Nat := if p.laneSwap then o ^^^ 1 else o

/-- The logical offset of logical byte `k` of pixel `i` (R97, R133). -/
def pixelOffset (i k : Nat) : Nat := 9 * i + k

/-- `S(i)`: the physical positions a write of pixel `i` touches, in logical order (R99). -/
def storedSet (p : Params) (i : Nat) : List Nat :=
  (List.range 9).map fun k => phys p (pixelOffset i k)

/-- Well-formed configuration (R71): with the lane swap the frame length is even. -/
abbrev evenFrame (p : Params) (pixelCount : Word) : Prop :=
  p.laneSwap = true → frameLength p pixelCount % 2 = 0

/-- `L` of the current context (R6). -/
def State.frameLen (s : State) : Nat := frameLength s.params s.pixcnt

/-- The bytes one emit step moves (R155). -/
def emitUnit (p : Params) : Nat := if p.laneSwap then 2 else 1

/-- A byte's bits as emitted, bit 7 first (R66). -/
def msbFirst (b : Byte) : List Bool :=
  [b.getLsbD 7, b.getLsbD 6, b.getLsbD 5, b.getLsbD 4, b.getLsbD 3, b.getLsbD 2, b.getLsbD 1, b.getLsbD 0]

/-! ### PHASE (R29) -/

/-- The 4-bit code of a phase (R29). -/
def Phase.code : Phase → BitVec 4
  | .tIdle => 0
  | .tCheck => 1
  | .tSnap => 2
  | .tEnable => 3
  | .tStream => 4
  | .tDrain => 5
  | .tResend => 6
  | .tDisable => 7
  | .tExited => 8

/-- The phase with a code; codes 9 to 15 are never held (R29). -/
def phaseOfCode (c : BitVec 4) : Option Phase :=
  match c with
  | 0#4 => some .tIdle
  | 1#4 => some .tCheck
  | 2#4 => some .tSnap
  | 3#4 => some .tEnable
  | 4#4 => some .tStream
  | 5#4 => some .tDrain
  | 6#4 => some .tResend
  | 7#4 => some .tDisable
  | 8#4 => some .tExited
  | _ => none

/-! ### Decoding a wire stream (R108) -/

/-- What a group of three slots says. -/
inductive Symbol
  | bit (b : Bool)
  | gap
  deriving DecidableEq, Repr

/-- `1 0 0` is 0, `1 1 0` is 1, `0 0 0` is the gap, any other group is no encoding (R108). -/
def symbolOf : Bool → Bool → Bool → Option Symbol
  | true, false, false => some (.bit false)
  | true, true, false => some (.bit true)
  | false, false, false => some .gap
  | _, _, _ => none

/-- Eight LED bits from 24 slots, first received as bit 7, and the slots after them; `none` if a group is not an LED
bit (R108). -/
def takeLedBits : Nat → Byte → List Bool → Option (Byte × List Bool)
  | 0, v, slots => some (v, slots)
  | n + 1, v, a :: b :: c :: slots =>
    match symbolOf a b c with
    | some (.bit x) => takeLedBits n ((v <<< 1) ||| (BitVec.ofBool x).setWidth 8) slots
    | some .gap => none
    | none => none
  | _ + 1, _, _ => none

/-- One channel value (R108). -/
def takeChannel (slots : List Bool) : Option (Byte × List Bool) := takeLedBits 8 0 slots

/-- One pixel: channel values arrive green, red, blue (R108). -/
def takePixel (slots : List Bool) : Option (Colour × List Bool) :=
  match takeChannel slots with
  | none => none
  | some (g, slots1) =>
    match takeChannel slots1 with
    | none => none
    | some (r, slots2) =>
      match takeChannel slots2 with
      | none => none
      | some (b, slots3) => some (rgbOf r g b, slots3)

/-- The colours of `n` pixels, and the slots after them (R108). -/
def takePixels : Nat → List Bool → Option (List Colour × List Bool)
  | 0, slots => some ([], slots)
  | n + 1, slots =>
    match takePixel slots with
    | none => none
    | some (c, rest) =>
      match takePixels n rest with
      | none => none
      | some (cs, gap) => some (c :: cs, gap)

end Sys2Proof.Machine
end

