-- ==== Sys2Proof/Machine/Flags.lean ====
section
/-! DEFINITION. The flags: the bits of STATUS (R40, R210), the signals between the agents (R25 to R28, R82, R216), the
lock (R35, R201), and when the context exists (R20, R145). -/

namespace Sys2Proof.Machine

/-- The bit of STATUS an error sets (R40). -/
def Err.statusBit : Err → BitVec 8
  | .allocationFailure => 0b0001
  | .configurationFailure => 0b0010
  | .invalidIndex => 0b0100
  | .terminationTimeout => 0b1000

/-- The code of an error (R210). -/
def Err.code : Err → Nat
  | .allocationFailure => 1
  | .configurationFailure => 2
  | .invalidIndex => 3
  | .terminationTimeout => 4

/-- STATUS after an error: its bit is set and no other changes (R40). -/
def statusWith (e : Err) (status : BitVec 8) : BitVec 8 := status ||| e.statusBit

/-- Post the update signal: SIG is binary, posted twice it is still 1 (R25, R82). -/
def signalUpdate (s : State) : State := { s with sig := true }

/-- Consume every update signal posted since the last wake (R25, R146). -/
def consumeUpdate (s : State) : State := { s with sig := false }

/-- The completion notification posts DONE and nothing else (R28, R156). -/
def signalDone (s : State) : State := { s with done := true }

/-- The wait for the transfer clears DONE (R28, R151). -/
def consumeDone (s : State) : State := { s with done := false }

/-- Enter the critical section (R35, R201). -/
def enterLock (s : State) : State := { s with lock := true }

/-- Leave the critical section (R35, R201). -/
def exitLock (s : State) : State := { s with lock := false }

/-- The engine, its buffers and the peripheral's queue exist (R20, R22, R145). -/
def Life.live : Life → Bool
  | .running => true
  | .teardown => true
  | .leaked => true
  | .absent => false
  | .destroyed => false

/-- The context exists. -/
abbrev State.live (s : State) : Prop := s.life.live = true

/-- The engine exists and stands in phase `p` (R145). -/
abbrev State.engineAt (s : State) (p : Phase) : Prop := s.live ∧ s.phase = p

end Sys2Proof.Machine
end

