-- ==== Sys2Proof/Machine/Ops.lean ====
section
/-! DEFINITION. The shared operations: memory (R60, R61), draws (R11), the recording of an error (R210, R219), responses
(R106), and the calls of the serial peripheral (R190 to R198). -/

namespace Sys2Proof.Machine

/-! ### Memory in canonical form (log 9) -/

/-- The byte at a position; an unlisted one reads 0. -/
def Memory.read (m : Memory) (a : Nat) : Byte :=
  match m.find? fun c => c.1 == a with
  | some c => c.2
  | none => 0

/-- The memory without the byte at a position. -/
def Memory.clear (m : Memory) (a : Nat) : Memory := m.filter fun c => c.1 != a

/-- A byte put before the first listed one at a higher position. -/
def Memory.insert (c : Host.Cell) : Memory → Memory
  | [] => [c]
  | d :: m => if c.1 < d.1 then c :: d :: m else d :: Memory.insert c m

/-- Write one byte; writing 0 leaves the position unlisted. -/
def Memory.write (m : Memory) (a : Nat) (b : Byte) : Memory :=
  if b = 0 then Memory.clear m a else Memory.insert (a, b) (Memory.clear m a)

/-- The first `n` bytes of a memory, as a memory. -/
def Memory.below (m : Memory) (n : Nat) : Memory := m.filter fun c => decide (c.1 < n)

/-- The memory of `n` bytes that a function gives. -/
def Memory.ofBytes (n : Nat) (f : Nat → Byte) : Memory :=
  ((List.range n).map fun a => (a, f a)).filter fun c => c.2 != 0

/-- The canonical form: positions strictly rising, no byte 0. -/
abbrev Memory.wf (m : Memory) : Prop :=
  m.Pairwise (fun c d => c.1 < d.1) ∧ ∀ c ∈ m, c.2 ≠ 0

/-- `MemRead(S, a, n)` of a buffer of `len` bytes: outside it is the fault BufferBounds (R61). -/
def memRead (len : Nat) (m : Memory) (a n : Nat) : Except Fault (List Byte) :=
  if a + n ≤ len then .ok ((List.range n).map fun i => Memory.read m (a + i))
  else .error .bufferBounds

/-- `MemWrite(S, a, 1, b)` of a buffer of `len` bytes (R61). -/
def memWrite (len : Nat) (m : Memory) (a : Nat) (b : Byte) : Except Fault Memory :=
  if a + 1 ≤ len then .ok (Memory.write m a b) else .error .bufferBounds

/-- Byte writes one after another (R61). -/
def memWrites (len : Nat) : List Host.Cell → Memory → Except Fault Memory
  | [], m => .ok m
  | c :: cs, m =>
    match memWrite len m c.1 c.2 with
    | .ok m' => memWrites len cs m'
    | .error f => .error f

/-- The nine byte writes of WritePixel (R133). -/
def pixelCells (p : Params) (i : Nat) (c : Colour) : List Host.Cell :=
  (List.range 9).map fun k => (phys p (pixelOffset i k), pixelByte c k)

/-- WritePixel (R133) on a buffer of `len` bytes. -/
def writePixel (p : Params) (len i : Nat) (c : Colour) (m : Memory) : Except Fault Memory :=
  memWrites len (pixelCells p i c) m

/-- WritePixel of one colour for each listed pixel, in order. -/
def writePixels (p : Params) (len : Nat) (c : Colour) : List Nat → Memory → Except Fault Memory
  | [], m => .ok m
  | i :: is, m =>
    match writePixel p len i c m with
    | .ok m' => writePixels p len c is m'
    | .error f => .error f

/-- The frame buffer of a fresh context: zeroed, then every pixel set to the off colour (R170, D34). -/
def offFrame (p : Params) (pixelCount : Word) : Except Fault Memory :=
  writePixels p (frameLength p pixelCount) 0 (List.range pixelCount.toNat) []

/-- `LB[o] = FB[phys(o)]` (R24). -/
def State.lb (s : State) (o : Nat) : Byte := Memory.read s.fb (phys s.params o)

/-! ### Draws (R11; log 7) -/

/-- `draw(bit)`: the environment's next answer, free where it has fixed none. -/
def drawBit (s : State) : Bool × State :=
  match s.draws with
  | b :: bs => (b, { s with draws := bs })
  | [] => (Config.freeBit s.tick, { s with tick := s.tick + 1 })

/-- SIG after INIT (R173, D13). -/
def drawInitSignal (s : State) : Bool × State :=
  match s.params.initSignal with
  | .zero => (false, s)
  | .one => (true, s)
  | .any => drawBit s

/-! ### Errors and responses -/

/-- `raise E` (R210, R219): the error's STATUS bit is set. Nothing is saved, no mode changes, no sequencer moves; so
there is nothing to return from (R220). -/
def raiseError (e : Err) (s : State) : State := { s with status := statusWith e s.status }

/-- Deliver a response word (R106). -/
def respond (w : Word) (s : State) : State := { s with responses := s.responses ++ [w] }

/-- Every SETPIXEL call still between its steps becomes a late one (R242, R251; log 21). -/
def overtakeCalls (s : State) : State := { s with calls := s.calls.map fun c => { c with late := true } }

/-! ### The serial peripheral's calls -/

/-- `Configure(bitRate)` on success (R173, R190). The output descriptor is handed over unchanged and read by no rule
(R101, D33). -/
def perConfigure (_outputDescriptor : Word) (s : State) : State :=
  { s with perRate := s.params.protocolBitRate }

/-- `Enable()` (R191). -/
def perEnable (s : State) : State := { s with perEn := true }

/-- `Disable()` (R192). -/
def perDisable (s : State) : State := { s with perEn := false }

/-- `Write(buffer, length, timeout)` (R193): all bytes are accepted in order, unless the environment has fixed a
smaller answer, which is the fault ShortWrite (R150, R215; log 10). -/
def perWrite (bytes : List Byte) (s : State) : Except Fault State :=
  match s.writeTakes with
  | [] => .ok { s with perQ := s.perQ ++ bytes }
  | n :: ns =>
    if n < bytes.length then .error .shortWrite
    else .ok { s with perQ := s.perQ ++ bytes, writeTakes := ns }

/-- The bits one emit step puts on the wire, and the queue after it (R67, R155): with the lane quirk the odd byte of
the pair goes first. -/
def emitFrom (p : Params) (q : List Byte) : Option (List Bool × List Byte) :=
  match p.laneSwap, q with
  | true, a :: b :: rest => some (msbFirst b ++ msbFirst a, rest)
  | true, [_] => none
  | false, a :: rest => some (msbFirst a, rest)
  | _, [] => none

/-! ### The debug port (R225; log 17) -/

/-- What the debug port can be asked for. -/
inductive DebugItem
  | fb (p : Nat)
  | wb (p : Nat)
  | status
  | life
  | phase
  | pixcnt
  | sig
  | term
  | exited
  deriving DecidableEq, Repr

/-- What the debug port answers. -/
inductive DebugValue
  | byte (b : Byte)
  | life (l : Life)
  | phase (p : Phase)
  | count (w : Word)
  | flag (b : Bool)
  deriving DecidableEq, Repr

/-- One byte of a buffer; a buffer that does not exist has no offset inside it (R22, R61). -/
def debugByte (s : State) (m : Memory) (a : Nat) : Except Fault DebugValue :=
  if s.live then
    match memRead s.frameLen m a 1 with
    | .ok bytes => .ok (.byte (bytes.headD 0))
    | .error f => .error f
  else .error .bufferBounds

/-- A read of the debug port: no side effect (R225). -/
def debugRead (item : DebugItem) (s : State) : Except Fault DebugValue :=
  match item with
  | .fb a => debugByte s s.fb a
  | .wb a => debugByte s s.wb a
  | .status => .ok (.byte s.status)
  | .life => .ok (.life s.life)
  | .phase => .ok (.phase s.phase)
  | .pixcnt => .ok (.count s.pixcnt)
  | .sig => .ok (.flag s.sig)
  | .term => .ok (.flag s.term)
  | .exited => .ok (.flag s.exited)

end Sys2Proof.Machine
end

