-- ==== Sys2Proof/Machine/Encoder.lean ====
section
/-! DEFINITION. The Bit Encoder (40_encoder.md) and the assembler's colour operations (30_encoding.md section 6). -/

namespace Sys2Proof.Machine

/-- ENCODE (R120): the three bytes of LUT's entry; no state of the block is read or written. What it returns stands in
the model's field `value` (log 12). -/
def execEncode (v : Byte) (s : State) : Host.Outcome State Fault Refusal :=
  .next { s with value := .entry (encodeBytes v) }

/-- RGB(r, g, b) (R107). -/
def execRgb (r g b : Byte) (s : State) : Host.Outcome State Fault Refusal :=
  .next { s with value := .colour (rgbOf r g b) }

/-- R(c) (R107). -/
def execRed (c : Colour) (s : State) : Host.Outcome State Fault Refusal :=
  .next { s with value := .channel (redOf c) }

/-- G(c) (R107). -/
def execGreen (c : Colour) (s : State) : Host.Outcome State Fault Refusal :=
  .next { s with value := .channel (greenOf c) }

/-- B(c) (R107). -/
def execBlue (c : Colour) (s : State) : Host.Outcome State Fault Refusal :=
  .next { s with value := .channel (blueOf c) }

end Sys2Proof.Machine
end

