-- ==== Sys2Proof/Machine/Lifecycle.lean ====
section
/-! DEFINITION. The Lifecycle Manager (43_lifecycle.md): INIT, GETREFRESHRATE, DEINIT and its steps. -/

namespace Sys2Proof.Machine

/-! ### INIT -/

/-- INIT's success (R173), with the prepared frame buffer. WB's contents are free (D35; log 8). -/
def newContext (pixelCount outputDescriptor : Word) (fb : Memory) (s : State) : State :=
  let drawn := drawInitSignal s
  { perConfigure outputDescriptor (perDisable drawn.2) with
    pixcnt := pixelCount
    fb := fb
    wb := Memory.ofBytes (frameLength s.params pixelCount) (Config.freeByte drawn.2.tick)
    perQ := []
    term := false
    exited := false
    done := false
    txidx := 0
    dpoll := 0
    lock := false
    phase := .tIdle
    sig := drawn.1
    life := .running
    tick := drawn.2.tick + 1 }

/-- INIT once its preconditions hold (R170 to R173): allocation is tried first, then the frame buffer is prepared, then
the peripheral is configured. On failure nothing else changes. -/
def createContext (pixelCount outputDescriptor : Word) (s : State) : Host.Outcome State Fault Refusal :=
  let alloc := drawBit s
  if alloc.1 then
    match offFrame s.params pixelCount with
    | .error f => .fault f
    | .ok fb =>
      let config := drawBit alloc.2
      if config.1 then .next (respond 0 (newContext pixelCount outputDescriptor fb config.2))
      else .next (respond 2 (raiseError .configurationFailure config.2))
  else .next (respond 1 (raiseError .allocationFailure alloc.2))

/-- INIT (R170): its preconditions, then the creation of the context. -/
def execInit (pixelCount outputDescriptor : Word) (s : State) : Host.Outcome State Fault Refusal :=
  if s.life = .absent ∨ s.life = .destroyed then
    if evenFrame s.params pixelCount then createContext pixelCount outputDescriptor s
    else .refused .oddFrameLength
  else .refused .outsideLifecycle

/-! ### GETREFRESHRATE -/

/-- `floor(ProtocolBitRate / (L * 8))` (R176). -/
def refreshRate (p : Params) (len : Nat) : Nat := p.protocolBitRate / (len * 8)

/-- GETREFRESHRATE (R176): no state changes but the response. -/
def execGetRefreshRate (s : State) : Host.Outcome State Fault Refusal :=
  if s.life ≠ .running then .refused .outsideLifecycle
  else if s.frameLen = 0 then .refused .zeroFrameLength
  else .next (respond (BitVec.ofNat 32 (refreshRate s.params s.frameLen)) s)

/-! ### DEINIT -/

/-- DI_REQUEST (R177). The SETPIXEL calls it overlaps are late from here on (R251; log 21). -/
def requestTermination (s : State) : Host.Outcome State Fault Refusal :=
  if s.life ≠ .running then .refused .outsideLifecycle
  else .next { overtakeCalls (signalUpdate s) with life := .teardown, term := true, dpoll := 0 }

/-- DEINIT (R177): the command begins with its first step, DI_REQUEST; DI_POLL follows on later turns (log 5). -/
def execDeinit (s : State) : Host.Outcome State Fault Refusal := requestTermination s

/-- DI_REQUEST (R177), the first step of DEINIT (log 5). -/
def execDiRequest (s : State) : Host.Outcome State Fault Refusal := requestTermination s

/-- DI_RELEASE (R179): the buffers and the queue cease to exist; SIG and DONE are unspecified afterwards (R44), so each
is a draw. PER_RATE, unspecified from here to the next successful INIT (R172), keeps the last configured rate, and PIXCNT,
TXIDX, DPOLL and LOCK, which R44 does not name, keep their values: DESIGN CHOICE, log 11. -/
def releaseContext (s : State) : State :=
  let sigDraw := drawBit s
  let doneDraw := drawBit sigDraw.2
  { doneDraw.2 with life := .destroyed, fb := [], wb := [], perQ := [], sig := sigDraw.1, done := doneDraw.1 }

/-- DI_TIMEOUT (R180): the failure is recorded and nothing is released. -/
def timeOutTeardown (s : State) : State := { raiseError .terminationTimeout s with life := .leaked }

/-- DI_RELEASE is reached: teardown with the engine's acknowledgement (R178, R179). -/
abbrev State.releaseEnabled (s : State) : Prop := s.life = .teardown ∧ s.exited = true

/-- DI_TIMEOUT is reached: teardown without it at the last allowed examination (R178, R180). -/
abbrev State.timeoutEnabled (s : State) : Prop :=
  s.life = .teardown ∧ s.exited = false ∧ s.params.deinitRetryBound ≤ s.dpoll + 1

/-- DI_POLL (R178): one examination of EXITED, ending in DI_RELEASE or DI_TIMEOUT in the same step. -/
def execDiPoll (s : State) : Host.Outcome State Fault Refusal :=
  if s.life = .teardown then
    if s.exited then .next (releaseContext s)
    else if s.dpoll + 1 < s.params.deinitRetryBound then .next { s with dpoll := s.dpoll + 1 }
    else .next (timeOutTeardown s)
  else .next s

/-- DI_RELEASE (R179), the branch of DI_POLL on its own. -/
def execDiRelease (s : State) : Host.Outcome State Fault Refusal :=
  if s.releaseEnabled then .next (releaseContext s) else .next s

/-- DI_TIMEOUT (R180), the branch of DI_POLL on its own. -/
def execDiTimeout (s : State) : Host.Outcome State Fault Refusal :=
  if s.timeoutEnabled then .next (timeOutTeardown s) else .next s

end Sys2Proof.Machine
end

