-- ==== Sys2Proof/Machine/PixelUpdate.lean ====
section
/-! DEFINITION. The Pixel Update Interface (41_pixel_update.md): SETPIXEL and its two steps. -/

namespace Sys2Proof.Machine

/-- The records of a batch in order (R131): a valid one is written, an invalid one raises InvalidIndex, makes `ok` 0 and
is skipped (R132). -/
def applyRecords : List PixelUpdate → Bool → State → Except Fault (Bool × State)
  | [], ok, s => .ok (ok, s)
  | u :: us, ok, s =>
    if s.pixcnt.toNat ≤ u.index.toNat then applyRecords us false (raiseError .invalidIndex s)
    else
      match writePixel s.params s.frameLen u.index.toNat u.colour s.fb with
      | .ok fb => applyRecords us ok { s with fb := fb }
      | .error f => .error f

/-- SP_COMMIT (R131): the whole batch in one critical section; the caller then holds `ok` until its signal step (R37).
A held LOCK blocks the step (R35; log 3, log 13). -/
def commitBatch (records : List PixelUpdate) (s : State) : Host.Outcome State Fault Refusal :=
  if s.life ≠ .running then .refused .outsideLifecycle
  else if s.lock then .next s
  else
    match applyRecords records true (enterLock s) with
    | .ok (ok, t) => .next { exitLock t with calls := t.calls ++ [⟨ok, false⟩] }
    | .error f => .fault f

/-- SETPIXEL (R130): the command begins with its first step, SP_COMMIT; SP_SIGNAL follows on a later turn, other agents
free to step in between (log 5). -/
def execSetPixel (records : List PixelUpdate) (s : State) : Host.Outcome State Fault Refusal :=
  commitBatch records s

/-- SP_COMMIT (R131), the first step of SETPIXEL (log 5). -/
def execSpCommit (records : List PixelUpdate) (s : State) : Host.Outcome State Fault Refusal :=
  commitBatch records s

/-- The response word of SETPIXEL (R100, R135). -/
def okWord (ok : Bool) : Word := if ok then 1 else 0

/-- SP_SIGNAL (R135) of one SETPIXEL call in progress: the signal is posted once for the call and its `ok` delivered.
Where there is no such call the step is not enabled (log 3). The late step of a call that a DEINIT has overtaken is refused,
in a later context too (R251, U8; log 21). -/
def execSpSignal (call : Nat) (s : State) : Host.Outcome State Fault Refusal :=
  match s.calls[call]? with
  | none => .next s
  | some c =>
    if s.life ≠ .running ∨ c.late = true then .refused .outsideLifecycle
    else .next (respond (okWord c.ok) { signalUpdate s with calls := s.calls.eraseIdx call })

end Sys2Proof.Machine
end

