-- ==== Sys2Proof/Machine/Transmission.lean ====
section
/-! DEFINITION. The Transmission Task (42_transmission.md): the engine's steps and the peripheral's steps. Each has its
enabling condition; a turn in which it does not hold passes with nothing changed (R146, R151: "blocked"; log 3). -/

namespace Sys2Proof.Machine

/-! ### Enabling conditions -/

/-- TX_WAKE: in T_IDLE, signalled or termination requested (R146). -/
abbrev State.wakeEnabled (s : State) : Prop := s.engineAt .tIdle ∧ (s.sig = true ∨ s.term = true)

/-- TX_EXIT: the TERM = 1 branch of TX_CHECK (R147). -/
abbrev State.exitEnabled (s : State) : Prop := s.engineAt .tCheck ∧ s.term = true

/-- TX_SNAPSHOT: in T_SNAP with the lock free (R148, R35). -/
abbrev State.snapshotEnabled (s : State) : Prop := s.engineAt .tSnap ∧ s.lock = false

/-- TX_DRAIN: in T_DRAIN with DONE = 1, CompletionWait only (R151). -/
abbrev State.drainEnabled (s : State) : Prop :=
  s.engineAt .tDrain ∧ s.params.txStrategy = .completionWait ∧ s.done = true

/-- TX_RESEND: in T_RESEND with PER_Q empty, FreeRun only (R154). -/
abbrev State.resendEnabled (s : State) : Prop :=
  s.engineAt .tResend ∧ s.params.txStrategy = .freeRun ∧ s.perQ = []

/-- PER_EMIT: PER_EN = 1 and one whole transfer unit queued (R155); no agent steps without a context (R240; log 15). -/
abbrev State.emitEnabled (s : State) : Prop :=
  s.live ∧ s.perEn = true ∧ emitUnit s.params ≤ s.perQ.length

/-- PER_COMPLETE (R156), CompletionWait only. -/
abbrev State.completeEnabled (s : State) : Prop :=
  s.live ∧ s.params.txStrategy = .completionWait ∧ s.perEn = true ∧ s.phase = .tDrain ∧ s.txidx = s.frameLen ∧
    s.perQ = [] ∧ s.done = false

/-! ### The engine -/

/-- The exit branch of TX_CHECK (R147): the acknowledgement of termination. -/
def exitLoop (s : State) : State := { s with exited := true, phase := .tExited }

/-- TX_WAKE (R146). -/
def execTxWake (s : State) : Host.Outcome State Fault Refusal :=
  if s.wakeEnabled then .next { consumeUpdate s with phase := .tCheck } else .next s

/-- TX_CHECK (R147). -/
def execTxCheck (s : State) : Host.Outcome State Fault Refusal :=
  if s.engineAt .tCheck then
    if s.term then .next (exitLoop s) else .next { s with phase := .tSnap }
  else .next s

/-- TX_EXIT (R147): the exit branch on its own. -/
def execTxExit (s : State) : Host.Outcome State Fault Refusal :=
  if s.exitEnabled then .next (exitLoop s) else .next s

/-- TX_SNAPSHOT (R148): every byte of FB to the same physical position of WB, in one step. -/
def execTxSnapshot (s : State) : Host.Outcome State Fault Refusal :=
  if s.snapshotEnabled then .next { s with wb := Memory.below s.fb s.frameLen, phase := .tEnable } else .next s

/-- TX_ENABLE (R149). -/
def execTxEnable (s : State) : Host.Outcome State Fault Refusal :=
  if s.engineAt .tEnable then .next { perEnable (consumeDone s) with txidx := 0, phase := .tStream } else .next s

/-- The phase after TX_STREAM (R150). -/
def phaseAfterStream (p : Params) : Phase :=
  match p.txStrategy with
  | .completionWait => .tDrain
  | .freeRun => .tResend

/-- TX_STREAM (R150): all of WB to the peripheral in physical order. -/
def execTxStream (s : State) : Host.Outcome State Fault Refusal :=
  if s.engineAt .tStream then
    match memRead s.frameLen s.wb 0 s.frameLen with
    | .error f => .fault f
    | .ok bytes =>
      match perWrite bytes s with
      | .error f => .fault f
      | .ok t => .next { t with txidx := s.frameLen, phase := phaseAfterStream s.params }
  else .next s

/-- TX_DRAIN (R151). -/
def execTxDrain (s : State) : Host.Outcome State Fault Refusal :=
  if s.drainEnabled then .next { consumeDone s with phase := .tDisable } else .next s

/-- TX_RESEND (R154). -/
def execTxResend (s : State) : Host.Outcome State Fault Refusal :=
  if s.resendEnabled then
    if s.sig = false ∧ s.term = false then .next { s with txidx := 0, phase := .tStream }
    else .next { s with phase := .tDisable }
  else .next s

/-- TX_DISABLE (R152). -/
def execTxDisable (s : State) : Host.Outcome State Fault Refusal :=
  if s.engineAt .tDisable then .next { perDisable s with phase := .tIdle } else .next s

/-- T_EXITED (R153): no engine step is enabled in this phase, so the engine's turn changes nothing. -/
def execTExited (s : State) : Host.Outcome State Fault Refusal := .next s

/-! ### The peripheral -/

/-- PER_EMIT (R155). -/
def execPerEmit (s : State) : Host.Outcome State Fault Refusal :=
  if s.emitEnabled then
    match emitFrom s.params s.perQ with
    | some (bits, rest) => .next { s with perQ := rest, wire := s.wire ++ bits }
    | none => .next s
  else .next s

/-- PER_COMPLETE (R156). -/
def execPerComplete (s : State) : Host.Outcome State Fault Refusal :=
  if s.completeEnabled then .next (signalDone s) else .next s

end Sys2Proof.Machine
end

