-- ==== Sys2Proof/Machine/Dispatch.lean ====
section
/-! DEFINITION. One arm for each row of spec/opcode_table.json. -/

namespace Sys2Proof.Machine

/-- Run one instruction. -/
def exec (i : Instr) (s : State) : Host.Outcome State Fault Refusal :=
  match i with
  | .init pixelCount outputDescriptor => Sys2Proof.Machine.execInit pixelCount outputDescriptor s
  | .deinit => Sys2Proof.Machine.execDeinit s
  | .setPixel records => Sys2Proof.Machine.execSetPixel records s
  | .getRefreshRate => Sys2Proof.Machine.execGetRefreshRate s
  | .encode v => Sys2Proof.Machine.execEncode v s
  | .spCommit records => Sys2Proof.Machine.execSpCommit records s
  | .spSignal call => Sys2Proof.Machine.execSpSignal call s
  | .diRequest => Sys2Proof.Machine.execDiRequest s
  | .diPoll => Sys2Proof.Machine.execDiPoll s
  | .diRelease => Sys2Proof.Machine.execDiRelease s
  | .diTimeout => Sys2Proof.Machine.execDiTimeout s
  | .txWake => Sys2Proof.Machine.execTxWake s
  | .txCheck => Sys2Proof.Machine.execTxCheck s
  | .txExit => Sys2Proof.Machine.execTxExit s
  | .txSnapshot => Sys2Proof.Machine.execTxSnapshot s
  | .txEnable => Sys2Proof.Machine.execTxEnable s
  | .txStream => Sys2Proof.Machine.execTxStream s
  | .txDrain => Sys2Proof.Machine.execTxDrain s
  | .txResend => Sys2Proof.Machine.execTxResend s
  | .txDisable => Sys2Proof.Machine.execTxDisable s
  | .tExited => Sys2Proof.Machine.execTExited s
  | .perEmit => Sys2Proof.Machine.execPerEmit s
  | .perComplete => Sys2Proof.Machine.execPerComplete s
  | .rgb r g b => Sys2Proof.Machine.execRgb r g b s
  | .red c => Sys2Proof.Machine.execRed c s
  | .green c => Sys2Proof.Machine.execGreen c s
  | .blue c => Sys2Proof.Machine.execBlue c s

end Sys2Proof.Machine
end

