-- ==== Sys2Proof/Machine/Fetch.lean ====
section
/-! DEFINITION. What the next step runs: the agent the schedule names, and the operation that agent takes (R12, R110,
R145; log 2, log 4). -/

namespace Sys2Proof.Machine

/-- The agent that moves next: the schedule's, free when it is exhausted (log 2). That every agent with an enabled step
gets its turn in the end (R161) is no property of a state: a claim takes it as the premise `WeaklyFair` (log 16). -/
def nextTurn (s : State) : Turn × State :=
  match s.turns with
  | t :: ts => (t, { s with turns := ts })
  | [] => (Config.freeTurn s.tick, { s with tick := s.tick + 1 })

/-- How the command port stops on words that are no command (R105). -/
def refusalOfWords : DecodeError → Refusal
  | .truncatedCommand => .truncatedCommand
  | .reservedHeader => .reservedHeader
  | .noCommand => .truncatedCommand
  | .unusedPhase => .reservedHeader
  | .noEncoding => .reservedHeader

/-- Take the next command from the port: nothing when the port is empty, and nothing while LOCK is held, a batch being
then in its critical section (log 3, log 13). -/
def takeCommand (s : State) : Except Refusal (Option Instr × State) :=
  if s.lock ∨ s.cmds = [] then .ok (none, s)
  else
    match decodeCommand s.cmds with
    | .ok (i, rest) => .ok (some i, { s with cmds := rest })
    | .error e => .error (refusalOfWords e)

/-- The engine's step: the one PHASE names (R29, R145). -/
def engineStep (s : State) : Option Instr :=
  match decodePhase s.phase.code with
  | .ok i => some i
  | .error _ => none

/-- The peripheral's step: at most one of its two is enabled (R155, R156; log 15). -/
def peripheralStep (s : State) : Instr :=
  if s.emitEnabled then .perEmit else .perComplete

/-- The operation an agent takes on its turn, and the state it runs in. -/
def operationOf (t : Turn) (s : State) : Except Refusal (Option Instr × State) :=
  match t with
  | .command => takeCommand s
  | .signal k => .ok (some (.spSignal k), s)
  | .poll => .ok (some .diPoll, s)
  | .engine => .ok (engineStep s, s)
  | .peripheral => .ok (some (peripheralStep s), s)
  | .lookup v => .ok (some (.encode v), s)
  | .makeColour r g b => .ok (some (.rgb r g b), s)
  | .takeRed c => .ok (some (.red c), s)
  | .takeGreen c => .ok (some (.green c), s)
  | .takeBlue c => .ok (some (.blue c), s)

/-- What the next step runs; `none` where the agent has no operation to take (log 3). -/
def fetch (s : State) : Except Refusal (Option Instr × State) :=
  operationOf (nextTurn s).1 (nextTurn s).2

end Sys2Proof.Machine
end

