-- ==== Sys2Proof/Machine/Step.lean ====
section
/-! DEFINITION. One step of the machine: the agent whose turn it is takes its operation (R8, R12). -/

namespace Sys2Proof.Machine

/-- One step. A turn on which the agent has no operation passes (log 3). -/
def step (s : State) : Host.Outcome State Fault Refusal :=
  match fetch s with
  | .error r => .refused r
  | .ok (none, t) => .next t
  | .ok (some i, t) => exec i t

/-- The state in which the very next step runs the operation of a table word: the words of a command on the command
port and a producer's turn; an index into LUT and its reader's turn; or a code of PHASE and the engine's turn (log 14,
log 18). -/
def State.withFetchWord (s : State) (nbits w : Nat) : State :=
  if nbits = 4 then
    match phaseOfCode (BitVec.ofNat 4 w) with
    | some p => { s with phase := p, turns := .engine :: s.turns }
    | none => { s with turns := .engine :: s.turns }
  else if nbits = 8 then { s with turns := .lookup (BitVec.ofNat 8 w) :: s.turns }
  else { s with cmds := tableWords nbits w ++ s.cmds, turns := .command :: s.turns }

end Sys2Proof.Machine
end

