-- ==== Sys2Proof/Safety.lean ====
section
/-! DEFINITION. The terms claims are stated in: what a frame puts on the wire (R157), the end of a run (R162), which
records are valid (R132), and the invariants of the machine (R24, R33, R158, R157, R79). -/

namespace Sys2Proof.Machine

/-! ### Frames on the wire -/

/-- `frame_bits(B)` (R157): a buffer's bytes in logical order, each most significant bit first. -/
def bufferBits (p : Params) (len : Nat) (m : Memory) : List Bool :=
  (List.range len).flatMap fun o => msbFirst (Memory.read m (phys p o))

/-- The frame of a list of colours (R157): 72 slots for each pixel, then `8 × ResetBytes` low slots. -/
def wireFrame (p : Params) (cs : List Colour) : List Bool :=
  cs.flatMap (fun c => (pixelBytes c).flatMap msbFirst) ++ List.replicate (8 * p.resetBytes) false

/-- What the queue still puts on the wire: pairs with the odd byte first, or byte after byte (R67, R155). -/
def queueBits (p : Params) (q : List Byte) : List Bool :=
  if p.laneSwap then
    match q with
    | a :: b :: rest => msbFirst b ++ msbFirst a ++ queueBits p rest
    | [_] => []
    | [] => []
  else q.flatMap msbFirst

/-! ### Batches -/

/-- A record is valid exactly when `index < PIXCNT` (R132). -/
def validRecord (s : State) (u : PixelUpdate) : Bool := decide (u.index.toNat < s.pixcnt.toNat)

/-- `ok` of a batch (R134). -/
def batchOk (s : State) (records : List PixelUpdate) : Bool := records.all (validRecord s)

/-- The colour of the last record for a pixel (R137). -/
def lastColour (records : List PixelUpdate) (i : Nat) : Option Colour :=
  (records.reverse.find? fun u => u.index.toNat == i).map fun u => u.colour

/-! ### The end of a run (R162) -/

/-- No command in progress, nothing queued, the engine idle with nothing pending or out of its loop (R162). -/
abbrev State.quiescent (s : State) : Prop :=
  s.calls = [] ∧ s.life ≠ .teardown ∧ s.perQ = [] ∧
    ((s.phase = .tIdle ∧ s.sig = false ∧ s.term = false) ∨ s.phase = .tExited)

/-- A clean end of a run: quiescent, RUNNING or DESTROYED; LEAKED is none (R162). -/
abbrev State.cleanEnd (s : State) : Prop := s.quiescent ∧ (s.life = .running ∨ s.life = .destroyed)

/-! ### Invariants -/

/-- A buffer holds the encoded pixels of some colours, then zeros (R24). -/
def encodesFrame (p : Params) (pixelCount : Word) (m : Memory) : Prop :=
  (∀ i < pixelCount.toNat, ∃ c : Colour, ∀ k < 9, Memory.read m (phys p (pixelOffset i k)) = pixelByte c k) ∧
    ∀ o, 9 * pixelCount.toNat ≤ o → o < frameLength p pixelCount → Memory.read m (phys p o) = 0

/-- The buffers: canonical, inside `0 .. L−1`, of an even length with the lane swap, FB a frame at all times (R24, R61,
R71); without a context they do not exist (R22). -/
structure FrameInv (s : State) : Prop where
  fbCanonical : Memory.wf s.fb
  wbCanonical : Memory.wf s.wb
  evenLength : s.live → evenFrame s.params s.pixcnt
  fbFrame : s.live → encodesFrame s.params s.pixcnt s.fb
  fbInside : s.live → ∀ c ∈ s.fb, c.1 < s.frameLen
  wbInside : s.live → ∀ c ∈ s.wb, c.1 < s.frameLen
  noBuffers : ¬ s.live → s.fb = [] ∧ s.wb = []

/-- The phases in which the peripheral is enabled (R149, R152, R158). -/
abbrev Phase.transferring (p : Phase) : Prop :=
  p = .tStream ∨ p = .tDrain ∨ p = .tResend ∨ p = .tDisable

/-- The phases in which bytes are on their way to the wire (R150, R151, R154). -/
abbrev Phase.draining (p : Phase) : Prop := p = .tDrain ∨ p = .tResend

/-- The phases of one transfer, from its snapshot to its end, in which WB holds the snapshot (R148, R150, R157). -/
abbrev Phase.snapshotTaken (p : Phase) : Prop := p = .tEnable ∨ p.transferring

/-- The phases in which no frame is in progress (R157, R158). -/
abbrev Phase.betweenFrames (p : Phase) : Prop :=
  p = .tIdle ∨ p = .tCheck ∨ p = .tSnap ∨ p = .tDisable ∨ p = .tExited

/-- The engine, the peripheral and the teardown handshake agree (R26 to R36, R40, R44, R152, R156, R158). -/
structure EngineInv (s : State) : Prop where
  lockFree : s.lock = false
  enabledIff : s.live → (s.perEn = true ↔ s.phase.transferring)
  queueEmpty : s.live → ¬ s.phase.draining → s.perQ = []
  wholeUnits : s.live → s.perQ.length % emitUnit s.params = 0
  streamedAll : s.live → s.phase.draining ∨ s.phase = .tDisable → s.txidx = s.frameLen
  drainStrategy : s.live → s.phase = .tDrain → s.params.txStrategy = .completionWait
  resendStrategy : s.live → s.phase = .tResend → s.params.txStrategy = .freeRun
  doneOnlyDrained : s.live → s.done = true → s.phase = .tDrain ∧ s.perQ = []
  exitedIff : s.live → (s.exited = true ↔ s.phase = .tExited)
  exitedOnRequest : s.live → s.exited = true → s.term = true
  termIff : s.live → (s.term = true ↔ s.life ≠ .running)
  rateConfigured : s.live → s.perRate = s.params.protocolBitRate
  pollsBounded : s.params.wf → s.life = .teardown → s.dpoll < s.params.deinitRetryBound
  released : s.life = .destroyed → s.phase = .tExited ∧ s.exited = true ∧ s.term = true ∧ s.perEn = false
  noQueue : ¬ s.live → s.perQ = []
  statusReserved : s.status.extractLsb' 4 4 = 0#4

/-- The frame that a snapshot taken in `s` puts on the wire: `frame_bits` of FB (R148, R157). -/
abbrev State.frameBits (s : State) : List Bool := bufferBits s.params s.frameLen s.fb

/-- The snapshots that have been taken once the step from `s` to `t` is done, `before` those taken before it (R148). -/
def snapshotsAfter (before : List Bool → Prop) (s t : State) (f : List Bool) : Prop :=
  before f ∨ (s.phase = .tSnap ∧ t.phase = .tEnable ∧ f = s.frameBits)

/-- WIRE is whole frames, each the frame of some colours and one of the `snapshots` taken, and at most one frame in
progress, whose rest is what the queue still holds; after a transfer WIRE ends with the frame of WB (R157). -/
structure WireInv (snapshots : List Bool → Prop) (s : State) : Prop where
  wbEncodes : s.live → s.phase.snapshotTaken → encodesFrame s.params s.pixcnt s.wb
  wbSnapshot : s.live → s.phase.snapshotTaken → snapshots (bufferBits s.params s.frameLen s.wb)
  lastFrame : s.live → s.phase.betweenFrames → s.txidx = s.frameLen →
    bufferBits s.params s.frameLen s.wb <:+ s.wire
  frames : ∃ (frames : List (List Bool)) (part : List Bool),
    s.wire = frames.flatten ++ part ∧
    (∀ f ∈ frames, snapshots f ∧ ∃ cs : List Colour, f = wireFrame s.params cs) ∧
    (s.live ∧ s.phase.draining → part ++ queueBits s.params s.perQ = bufferBits s.params s.frameLen s.wb) ∧
    (¬ (s.live ∧ s.phase.draining) → part = [])

/-- An update is on its way to a snapshot: a call about to signal, SIG set, or the engine before its snapshot (R79). -/
abbrev State.updatePending (s : State) : Prop :=
  (∃ c ∈ s.calls, c.late = false) ∨ s.sig = true ∨ s.phase = .tCheck ∨ s.phase = .tSnap

/-- While RUNNING, unless an update is on its way, WB is a snapshot of the frame buffer as it is, transmitted or in
transfer, or there has been neither a snapshot nor an update since INIT: no committed update is forgotten (R77 to R79). -/
def NoUpdateLost (s : State) : Prop :=
  s.life = .running →
    s.updatePending ∨
    ((∀ a < s.frameLen, Memory.read s.wb a = Memory.read s.fb a) ∧ (s.phase.snapshotTaken ∨ s.txidx = s.frameLen)) ∨
    (s.phase = .tIdle ∧ s.txidx = 0 ∧ ∀ o < s.frameLen, s.lb o = if o < 9 * s.pixcnt.toNat then lut 0 (o % 3) else 0)

/-! ### Weak fairness (R161, R198, R199) -/

/-- An engine step is enabled (R146 to R154). -/
abbrev State.engineEnabled (s : State) : Prop :=
  s.wakeEnabled ∨ s.engineAt .tCheck ∨ s.snapshotEnabled ∨ s.engineAt .tEnable ∨ s.engineAt .tStream ∨
    s.drainEnabled ∨ s.resendEnabled ∨ s.engineAt .tDisable

/-- A peripheral step is enabled (R155, R156). -/
abbrev State.peripheralEnabled (s : State) : Prop := s.emitEnabled ∨ s.completeEnabled

/-- A run without end: every step answers the next state. -/
def IsRun (run : Nat → State) : Prop := ∀ n, step (run n) = .next (run (n + 1))

/-- The turn of step `n` is agent `t`'s. -/
abbrev turnAt (run : Nat → State) (n : Nat) (t : Turn) : Prop := (nextTurn (run n)).1 = t

/-- Weak fairness of the engine and of the peripheral (R161): a step that stays enabled is eventually taken. An agent has
at most one enabled step at a time, and it stays the same until the agent takes it. -/
structure WeaklyFair (run : Nat → State) : Prop where
  engine : ∀ n, (∀ m, n ≤ m → (run m).engineEnabled) → ∃ m, n ≤ m ∧ turnAt run m .engine
  peripheral : ∀ n, (∀ m, n ≤ m → (run m).peripheralEnabled) → ∃ m, n ≤ m ∧ turnAt run m .peripheral

end Sys2Proof.Machine
end

