-- ==== Sys2Proof/Certificates/Slice0/Obligations.lean ====
section
/-! DEFINITION. The statements for the provers, from the numbered rules of spec/. -/

open Sys2Proof
open Sys2Proof.Machine

/-! ### Encodings -/

/-- R100 to R105, R110: the bits of every well-formed instruction with an encoding of its own decode to it, on the
command port with any words after it. -/
def Obligations.DecodeInvertsEncode : Prop :=
  ∀ i : Instr, i.wf = true → hasOwnEncoding i = true →
    decode (encode i) = .ok (i, []) ∧
    ∀ ws, encode i = .command ws → ∀ rest, decodeCommand (ws ++ rest) = .ok (i, rest)

/-- The words of 95_test_vectors.md V80 to V85, an index into LUT and two PHASE codes. -/
def Obligations.SpecWordsDecode : Prop :=
  decodeCommand [0x00000000, 0x00000004, 0x00000005] = .ok (.init 4 5, []) ∧
  decodeCommand [0x40000000] = .ok (.deinit, []) ∧
  decodeCommand [0x80000001, 0x00000000, 0x00FF0000] = .ok (.setPixel [⟨0, 0xFF0000⟩], []) ∧
  decodeCommand [0x80000004, 0x00000001, 0x000000FF, 0x00000003, 0x00FFFFFF, 0x00000001, 0x0000FF00, 0x00000002,
    0x0080017F] = .ok (.setPixel [⟨1, 0x0000FF⟩, ⟨3, 0xFFFFFF⟩, ⟨1, 0x00FF00⟩, ⟨2, 0x80017F⟩], []) ∧
  decodeCommand [0x80000000] = .ok (.setPixel [], []) ∧
  decodeCommand [0xC0000000] = .ok (.getRefreshRate, []) ∧
  decode (.lutIndex 0x80) = .ok (.encode 0x80, []) ∧
  decode (.phaseCode 0b0000) = .ok (.txWake, []) ∧
  decode (.phaseCode 0b1000) = .ok (.tExited, [])

/-- R104: a command takes from the port exactly the words its header says, and leaves the rest in order. -/
def Obligations.HeaderGivesTheCommandLength : Prop :=
  ∀ (h : Word) (ws rest : List Word) (i : Instr), decodeCommand (h :: ws) = .ok (i, rest) →
    ∃ taken, h :: ws = taken ++ rest ∧
      taken.length =
        if h.extractLsb' 30 2 = 0b10#2 then 1 + 2 * (h.extractLsb' 0 30).toNat
        else if h.extractLsb' 30 2 = 0b00#2 then 3
        else 1

/-- R105: a header with `op ≠ 10` and `n ≠ 0`, and a command whose words end early, are refused by a producer's turn. -/
def Obligations.PortRefusesReservedAndTruncated : Prop :=
  ∀ (s : State) (ts : List Turn) (h : Word) (ws : List Word),
    s.turns = .command :: ts → s.lock = false → s.cmds = h :: ws →
    (headerOp h ≠ 0b10#2 → headerN h ≠ 0 → step s = .refused .reservedHeader) ∧
    (headerOp h = 0b10#2 ∨ headerN h = 0 → (h :: ws).length < commandLength h → step s = .refused .truncatedCommand)

/-! ### The Bit Encoder and the formats -/

/-- R95, R121: the generator's loop, the loop that scans from bit 0, and the closed form give the same entry. -/
def Obligations.TableHasItsClosedForm : Prop :=
  ∀ v : Byte,
    lut v 0 = 0x92#8 ||| ((v >>> 7 &&& 1#8) <<< 6) ||| ((v >>> 6 &&& 1#8) <<< 3) ||| (v >>> 5 &&& 1#8) ∧
    lut v 1 = 0x49#8 ||| ((v >>> 4 &&& 1#8) <<< 5) ||| ((v >>> 3 &&& 1#8) <<< 2) ∧
    lut v 2 = 0x24#8 ||| ((v >>> 2 &&& 1#8) <<< 7) ||| ((v >>> 1 &&& 1#8) <<< 4) ||| ((v &&& 1#8) <<< 1) ∧
    lutSlots v = (List.range 8).foldl
      (fun w r => w ||| ((0b100#24 ||| ((v.setWidth 24 >>> r &&& 1#24) <<< 1)) <<< (3 * r))) 0

/-- R120, R122: ENCODE is injective, gives three bytes, none of them 00 or FF, with `8 + popcount(v)` bits 1. -/
def Obligations.EncodeIsInjectiveAndNeverAGap : Prop :=
  (∀ u v : Byte, encodeBytes u = encodeBytes v → u = v) ∧
  ∀ v : Byte, (encodeBytes v).length = 3 ∧ (∀ b ∈ encodeBytes v, b ≠ 0x00 ∧ b ≠ 0xFF) ∧
    (((encodeBytes v).flatMap msbFirst).filter id).length = 8 + ((msbFirst v).filter id).length

/-- R120: ENCODE completes for every value and every state, answers LUT's entry and writes no state of the block (where
its answer stands is the model's choice, log 12). -/
def Obligations.EncodeAnswersTheEntry : Prop :=
  ∀ (v : Byte) (s : State),
    Sys2Proof.Machine.exec (.encode v) s = .next { s with value := .entry [lut v 0, lut v 1, lut v 2] }

/-- R90, R96, R107: the pseudo-operations complete for every operand and every state, answer the slices of R107, write no
state of the block, and undo one another (where their answers stand is the model's choice, log 12); an encoded pixel is the
entries of green, red and blue in that order. -/
def Obligations.ColourOperationsPackAndUnpack : Prop :=
  (∀ (r g b : Byte) (s : State),
    Sys2Proof.Machine.exec (.rgb r g b) s =
      .next { s with value := .colour ((r.setWidth 24 <<< 16) ||| (g.setWidth 24 <<< 8) ||| b.setWidth 24) } ∧
    redOf (rgbOf r g b) = r ∧ greenOf (rgbOf r g b) = g ∧ blueOf (rgbOf r g b) = b) ∧
  ∀ (c : Colour) (s : State),
    Sys2Proof.Machine.exec (.red c) s = .next { s with value := .channel (c.extractLsb' 16 8) } ∧
    Sys2Proof.Machine.exec (.green c) s = .next { s with value := .channel (c.extractLsb' 8 8) } ∧
    Sys2Proof.Machine.exec (.blue c) s = .next { s with value := .channel (c.extractLsb' 0 8) } ∧
    redOf c = c.extractLsb' 16 8 ∧ greenOf c = c.extractLsb' 8 8 ∧ blueOf c = c.extractLsb' 0 8 ∧
    rgbOf (redOf c) (greenOf c) (blueOf c) = c ∧
    pixelBytes c = encodeBytes (c.extractLsb' 8 8) ++ encodeBytes (c.extractLsb' 16 8) ++ encodeBytes (c.extractLsb' 0 8)

/-- R108: the slots of a frame, cut into groups of three, decode to its colours and its gap. -/
def Obligations.WireDecodesToTheColours : Prop :=
  ∀ (p : Params) (cs : List Colour),
    takePixels cs.length (wireFrame p cs) = some (cs, List.replicate (8 * p.resetBytes) false)

/-- R68: `phys` maps an even frame onto itself and is its own inverse. -/
def Obligations.LaneSwapIsAnInvolutionOfTheFrame : Prop :=
  ∀ (p : Params) (len o : Nat), (p.laneSwap = true → len % 2 = 0) → o < len →
    phys p o < len ∧ phys p (phys p o) = o ∧
    (p.laneSwap = true → phys p o = o ^^^ 1) ∧ (p.laneSwap = false → phys p o = o)

/-- R99: the stored byte sets of different pixels do not meet; with the lane swap they are the listed positions. -/
def Obligations.StoredByteSetsOfPixels : Prop :=
  ∀ (p : Params) (i : Nat),
    (∀ j, i ≠ j → ∀ a ∈ storedSet p i, a ∉ storedSet p j) ∧
    (p.laneSwap = true → i % 2 = 0 → storedSet p i =
      [9 * i + 1, 9 * i, 9 * i + 3, 9 * i + 2, 9 * i + 5, 9 * i + 4, 9 * i + 7, 9 * i + 6, 9 * i + 9]) ∧
    (p.laneSwap = true → i % 2 = 1 → storedSet p i =
      [9 * i - 1, 9 * i + 2, 9 * i + 1, 9 * i + 4, 9 * i + 3, 9 * i + 6, 9 * i + 5, 9 * i + 8, 9 * i + 7]) ∧
    (p.laneSwap = false → storedSet p i = (List.range 9).map fun k => 9 * i + k)

/-! ### SETPIXEL -/

/-- R130 to R137: SETPIXEL's first step and SP_COMMIT complete on every batch in RUNNING. Each pixel holds the last valid
colour for it, every byte outside the valid records' stored byte sets is as before, `ok` and InvalidIndex tell whether all
records were valid, and nothing else changes (the call waits for its signal step in `calls`, log 4). -/
def Obligations.CommitAppliesTheBatch : Prop :=
  ∀ (s : State) (records : List PixelUpdate),
    s.life = .running → s.lock = false → evenFrame s.params s.pixcnt →
    ∃ t : State,
      Sys2Proof.Machine.exec (.setPixel records) s = .next t ∧
      Sys2Proof.Machine.exec (.spCommit records) s = .next t ∧
      t = { s with
        fb := t.fb
        status := if batchOk s records then s.status else s.status ||| 0x04#8
        calls := s.calls ++ [⟨batchOk s records, false⟩] } ∧
      (∀ i < s.pixcnt.toNat, ∀ k < 9,
        Memory.read t.fb (phys s.params (9 * i + k)) =
          match lastColour records i with
          | some c => pixelByte c k
          | none => Memory.read s.fb (phys s.params (9 * i + k))) ∧
      (∀ a, (∀ u ∈ records, u.index.toNat < s.pixcnt.toNat → a ∉ storedSet s.params u.index.toNat) →
        Memory.read t.fb a = Memory.read s.fb a)

/-- R132: an invalid record writes nothing and does not stop the batch: the batch without its invalid records leaves the
same frame buffer, and raises nothing. -/
def Obligations.InvalidRecordsAreSkipped : Prop :=
  (∀ (s : State) (records : List PixelUpdate),
    s.life = .running → s.lock = false → evenFrame s.params s.pixcnt →
    ∃ t u : State,
      Sys2Proof.Machine.exec (.setPixel records) s = .next t ∧
      Sys2Proof.Machine.exec (.setPixel (records.filter fun r => decide (r.index.toNat < s.pixcnt.toNat))) s = .next u ∧
      t.fb = u.fb ∧ u.status = s.status ∧
      ((∃ r ∈ records, s.pixcnt.toNat ≤ r.index.toNat) → t.status = s.status ||| 0x04#8)) ∧
  (∀ (s : State) (u : PixelUpdate), s.pixcnt = 0 → validRecord s u = false) ∧
  ∀ (s : State) (c : Colour), validRecord s ⟨0xFFFFFFFF, c⟩ = false

/-- R135: SP_SIGNAL of a call completes in RUNNING: SIG is set whatever `ok` is, the response is `ok`, the call is over and
nothing else changes; elsewhere it is refused, and so is the late step of a call that a DEINIT has overtaken (R251, U8).
Which call steps is named by its place in `calls` (log 4), and which calls are late by their mark (log 21). -/
def Obligations.SignalStepPostsOnceAndAnswers : Prop :=
  ∀ (s : State) (k : Nat) (ok late : Bool), s.calls[k]? = some ⟨ok, late⟩ →
    (s.life = .running → late = false →
      Sys2Proof.Machine.exec (.spSignal k) s =
        .next { s with
          sig := true
          calls := s.calls.eraseIdx k
          responses := s.responses ++ [if ok then 1 else 0] }) ∧
    (s.life ≠ .running ∨ late = true → Sys2Proof.Machine.exec (.spSignal k) s = .refused .outsideLifecycle)

/-- R74, R138: the same batch twice leaves byte-identical frame buffers. -/
def Obligations.BatchIsIdempotent : Prop :=
  ∀ (s : State) (records : List PixelUpdate),
    s.life = .running → s.lock = false → evenFrame s.params s.pixcnt →
    ∃ t u : State,
      Sys2Proof.Machine.exec (.setPixel records) s = .next t ∧
      Sys2Proof.Machine.exec (.setPixel records) t = .next u ∧
      ∀ a, Memory.read u.fb a = Memory.read t.fb a

/-- R77: two batches on disjoint pixels leave the same frame buffer in either order, and both updates are in it. -/
def Obligations.DisjointBatchesCommute : Prop :=
  ∀ (s : State) (first second : List PixelUpdate),
    s.life = .running → s.lock = false → evenFrame s.params s.pixcnt → Memory.wf s.fb →
    (∀ u ∈ first, ∀ v ∈ second, u.index ≠ v.index) →
    ∃ t1 t2 u1 u2 : State,
      Sys2Proof.Machine.exec (.setPixel first) s = .next t1 ∧
      Sys2Proof.Machine.exec (.setPixel second) t1 = .next t2 ∧
      Sys2Proof.Machine.exec (.setPixel second) s = .next u1 ∧
      Sys2Proof.Machine.exec (.setPixel first) u1 = .next u2 ∧
      t2.fb = u2.fb ∧ t2.status = u2.status ∧
      ∀ i < s.pixcnt.toNat, ∀ k < 9,
        (∀ c, lastColour first i = some c → t2.lb (9 * i + k) = pixelByte c k) ∧
        (∀ c, lastColour second i = some c → t2.lb (9 * i + k) = pixelByte c k)

/-- R181: every command outside its LIFE values is refused. -/
def Obligations.CommandsRefusedOutsideTheirLifecycle : Prop :=
  ∀ (s : State) (n d : Word) (records : List PixelUpdate),
    (s.life ≠ .absent → s.life ≠ .destroyed →
      Sys2Proof.Machine.exec (.init n d) s = .refused .outsideLifecycle) ∧
    (s.life ≠ .running →
      Sys2Proof.Machine.exec (.setPixel records) s = .refused .outsideLifecycle ∧
      Sys2Proof.Machine.exec (.spCommit records) s = .refused .outsideLifecycle ∧
      (∀ k c, s.calls[k]? = some c → Sys2Proof.Machine.exec (.spSignal k) s = .refused .outsideLifecycle) ∧
      Sys2Proof.Machine.exec .getRefreshRate s = .refused .outsideLifecycle ∧
      Sys2Proof.Machine.exec .deinit s = .refused .outsideLifecycle ∧
      Sys2Proof.Machine.exec .diRequest s = .refused .outsideLifecycle)

/-! ### The transmission engine -/

/-- R146: TX_WAKE consumes the signals and goes to T_CHECK; nothing else changes. -/
def Obligations.WakeConsumesTheSignal : Prop :=
  ∀ s : State, s.life.live = true → s.phase = .tIdle → (s.sig = true ∨ s.term = true) →
    Sys2Proof.Machine.exec .txWake s = .next { s with sig := false, phase := .tCheck }

/-- R147: TX_CHECK exits the loop on TERM and goes on without it; TX_EXIT is the first branch. -/
def Obligations.CheckExitsOnTermination : Prop :=
  ∀ s : State, s.life.live = true → s.phase = .tCheck →
    (s.term = true →
      Sys2Proof.Machine.exec .txCheck s = .next { s with exited := true, phase := .tExited } ∧
      Sys2Proof.Machine.exec .txExit s = .next { s with exited := true, phase := .tExited }) ∧
    (s.term = false → Sys2Proof.Machine.exec .txCheck s = .next { s with phase := .tSnap })

/-- R148: TX_SNAPSHOT copies every byte of FB to the same physical position of WB; nothing else changes. -/
def Obligations.SnapshotCopiesTheFrame : Prop :=
  ∀ s : State, s.life.live = true → s.phase = .tSnap → s.lock = false →
    ∃ wb : Memory,
      Sys2Proof.Machine.exec .txSnapshot s = .next { s with wb := wb, phase := .tEnable } ∧
      ∀ a < s.frameLen, Memory.read wb a = Memory.read s.fb a

/-- R149: TX_ENABLE enables the peripheral and starts a transfer; nothing else changes. -/
def Obligations.EnableStartsATransfer : Prop :=
  ∀ s : State, s.life.live = true → s.phase = .tEnable →
    Sys2Proof.Machine.exec .txEnable s =
      .next { s with perEn := true, done := false, txidx := 0, phase := .tStream }

/-- R150, R193, R215: TX_STREAM hands all of WB over in physical order and goes to the strategy's phase; a Write that
accepts fewer than `L` bytes is the fault ShortWrite (the Write's answer is the environment's, log 10). -/
def Obligations.StreamHandsOverTheBuffer : Prop :=
  ∀ s : State, s.life.live = true → s.phase = .tStream →
    (∀ ns, (s.writeTakes = [] ∧ ns = [] ∨ ∃ n, s.writeTakes = n :: ns ∧ s.frameLen ≤ n) →
      Sys2Proof.Machine.exec .txStream s =
        .next { s with
          perQ := s.perQ ++ (List.range s.frameLen).map (fun a => Memory.read s.wb a)
          txidx := s.frameLen
          phase := if s.params.txStrategy = .completionWait then .tDrain else .tResend
          writeTakes := ns }) ∧
    (∀ n ns, s.writeTakes = n :: ns → n < s.frameLen →
      Sys2Proof.Machine.exec .txStream s = .fault .shortWrite)

/-- R151: TX_DRAIN ends the wait for the transfer when DONE = 1; nothing else changes. -/
def Obligations.DrainEndsTheWait : Prop :=
  ∀ s : State, s.life.live = true → s.phase = .tDrain → s.params.txStrategy = .completionWait → s.done = true →
    Sys2Proof.Machine.exec .txDrain s = .next { s with done := false, phase := .tDisable }

/-- R154: TX_RESEND issues the same buffer again while nothing is pending, and else ends the transfer. -/
def Obligations.ResendRepeatsUntilSignalled : Prop :=
  ∀ s : State, s.life.live = true → s.phase = .tResend → s.params.txStrategy = .freeRun → s.perQ = [] →
    (s.sig = false → s.term = false →
      Sys2Proof.Machine.exec .txResend s = .next { s with txidx := 0, phase := .tStream }) ∧
    (s.sig = true ∨ s.term = true →
      Sys2Proof.Machine.exec .txResend s = .next { s with phase := .tDisable })

/-- R152: TX_DISABLE disables the peripheral and goes to T_IDLE; nothing else changes. -/
def Obligations.DisableEndsTheTransfer : Prop :=
  ∀ s : State, s.life.live = true → s.phase = .tDisable →
    Sys2Proof.Machine.exec .txDisable s = .next { s with perEn := false, phase := .tIdle }

/-- R153: in T_EXITED no engine step is enabled (the engine's turn passes, which is the model's choice, log 3), and only an
INIT after a released DEINIT leads out of it. -/
def Obligations.ExitedEngineNeverReturns : Prop :=
  (∀ s : State, s.phase = .tExited → Sys2Proof.Machine.exec .tExited s = .next s) ∧
  (∀ (s : State) (ts : List Turn), s.phase = .tExited → s.turns = .engine :: ts →
    step s = .next { s with turns := ts }) ∧
  ∀ s t : State, s.phase = .tExited → s.life ≠ .absent → step s = .next t → t.phase ≠ .tExited →
    s.life = .destroyed ∧ t.life = .running ∧ t.phase = .tIdle

/-- R158: the transition table of PHASE is complete. -/
def Obligations.PhaseMovesOnlyAlongTheTable : Prop :=
  ∀ s t : State, step s = .next t → t.phase ≠ s.phase →
    (s.life.live = false ∧ t.life = .running ∧ t.phase = .tIdle) ∨
    (s.life.live = true ∧
      ((s.phase = .tIdle ∧ t.phase = .tCheck ∧ (s.sig = true ∨ s.term = true)) ∨
       (s.phase = .tCheck ∧ t.phase = .tExited ∧ s.term = true) ∨
       (s.phase = .tCheck ∧ t.phase = .tSnap ∧ s.term = false) ∨
       (s.phase = .tSnap ∧ t.phase = .tEnable) ∨
       (s.phase = .tEnable ∧ t.phase = .tStream) ∨
       (s.phase = .tStream ∧ t.phase = .tDrain ∧ s.params.txStrategy = .completionWait) ∨
       (s.phase = .tStream ∧ t.phase = .tResend ∧ s.params.txStrategy = .freeRun) ∨
       (s.phase = .tDrain ∧ t.phase = .tDisable ∧ s.done = true) ∨
       (s.phase = .tResend ∧ t.phase = .tStream ∧ s.perQ = [] ∧ s.sig = false ∧ s.term = false) ∨
       (s.phase = .tResend ∧ t.phase = .tDisable ∧ s.perQ = [] ∧ (s.sig = true ∨ s.term = true)) ∨
       (s.phase = .tDisable ∧ t.phase = .tIdle)))

/-- R217: with SIG and TERM pending at a wake, two engine turns consume SIG and exit without transmitting. -/
def Obligations.TerminationBeatsAPendingUpdate : Prop :=
  ∀ (s : State) (ts : List Turn), s.life.live = true → s.phase = .tIdle → s.sig = true → s.term = true →
    s.turns = .engine :: .engine :: ts →
    Host.Core.run Sys2Proof.core 2 s =
      .next { s with sig := false, exited := true, phase := .tExited, turns := ts }

/-- A turn whose step is not enabled passes with nothing changed (that it passes is the model's choice, log 3 and log 13).
The engine: without a context, in T_IDLE with nothing pending, in T_SNAP with LOCK held, in T_DRAIN and T_RESEND before the
end of the transfer or under the other strategy, in T_EXITED. The peripheral: without a context, disabled, or with nothing
whole to emit and nothing to report. A producer: with LOCK held or no words on the port, without a call to signal, without
a teardown to poll (R35, R146, R148, R151 to R156, R178, V60, V69). -/
def Obligations.BlockedTurnsChangeNothing : Prop :=
  ∀ (s : State) (ts : List Turn),
    (s.turns = .engine :: ts →
      s.life.live = false ∨ (s.phase = .tIdle ∧ s.sig = false ∧ s.term = false) ∨ (s.phase = .tSnap ∧ s.lock = true) ∨
        (s.phase = .tDrain ∧ (s.done = false ∨ s.params.txStrategy = .freeRun)) ∨
        (s.phase = .tResend ∧ (s.perQ ≠ [] ∨ s.params.txStrategy = .completionWait)) ∨ s.phase = .tExited →
      step s = .next { s with turns := ts }) ∧
    (s.turns = .peripheral :: ts →
      s.life.live = false ∨ s.perEn = false ∨
        (s.perQ.length < emitUnit s.params ∧
          (s.phase ≠ .tDrain ∨ s.done = true ∨ s.perQ ≠ [] ∨ s.txidx ≠ s.frameLen ∨ s.params.txStrategy = .freeRun)) →
      step s = .next { s with turns := ts }) ∧
    (s.turns = .command :: ts → s.lock = true ∨ s.cmds = [] → step s = .next { s with turns := ts }) ∧
    (∀ k, s.turns = .signal k :: ts → s.calls[k]? = none → step s = .next { s with turns := ts }) ∧
    (s.turns = .poll :: ts → s.life ≠ .teardown → step s = .next { s with turns := ts })

/-- R162: a quiescent state is final: the turns of the engine, the peripheral, a poll and a signal pass with nothing changed
(that they pass is the model's choice, log 3), and in RUNNING everything committed has been transmitted: the last frame on
WIRE is the frame buffer's, unless there has been neither a snapshot nor an update since INIT. WIRE is bit order alone,
without gaps or underrun (U9, log 16). -/
def Obligations.QuiescentStatesAreFinal : Prop :=
  (∀ (s : State) (t : Turn) (ts : List Turn), s.quiescent → s.turns = t :: ts →
    t = .engine ∨ t = .peripheral ∨ t = .poll ∨ (∃ k, t = .signal k) → step s = .next { s with turns := ts }) ∧
  ∀ (snapshots : List Bool → Prop) (s : State), FrameInv s → EngineInv s → WireInv snapshots s → NoUpdateLost s →
    s.cleanEnd → s.life = .running →
    ((∀ a < s.frameLen, Memory.read s.wb a = Memory.read s.fb a) ∧ s.frameBits <:+ s.wire) ∨
    (s.phase = .tIdle ∧ s.txidx = 0 ∧ ∀ o < s.frameLen, s.lb o = if o < 9 * s.pixcnt.toNat then lut 0 (o % 3) else 0)

/-! ### The serial peripheral -/

/-- R155: PER_EMIT pops one transfer unit and appends its bits, the odd byte of a pair first with the lane quirk, each
byte most significant bit first; nothing else changes. -/
def Obligations.EmitPutsAUnitOnTheWire : Prop :=
  ∀ (s : State) (a b : Byte) (rest : List Byte), s.life.live = true → s.perEn = true →
    (s.params.laneSwap = true → s.perQ = a :: b :: rest →
      Sys2Proof.Machine.exec .perEmit s =
        .next { s with
          perQ := rest
          wire := s.wire ++ (List.range 8).map (fun i => b.getLsbD (7 - i)) ++
            (List.range 8).map (fun i => a.getLsbD (7 - i)) }) ∧
    (s.params.laneSwap = false → s.perQ = a :: rest →
      Sys2Proof.Machine.exec .perEmit s =
        .next { s with perQ := rest, wire := s.wire ++ (List.range 8).map (fun i => a.getLsbD (7 - i)) })

/-- R156: PER_COMPLETE posts DONE and writes nothing else. -/
def Obligations.CompletionOnlyPostsDone : Prop :=
  ∀ s : State, s.life.live = true → s.params.txStrategy = .completionWait →
    s.perEn = true → s.phase = .tDrain → s.txidx = s.frameLen → s.perQ = [] → s.done = false →
    Sys2Proof.Machine.exec .perComplete s = .next { s with done := true }

/-! ### The lifecycle -/

/-- R42, R170, R173: INIT completes when its preconditions and both draws hold, and leaves a fresh context with every
pixel off; STATUS and WIRE and everything else are unchanged (draws are the environment's answers, log 7). -/
def Obligations.InitCreatesAFreshContext : Prop :=
  ∀ (s : State) (n d : Word),
    (s.life = .absent ∨ s.life = .destroyed) → (s.params.laneSwap = true → (9 * n.toNat + s.params.resetBytes) % 2 = 0) →
    (drawBit s).1 = true → (drawBit (drawBit s).2).1 = true →
    ∃ t : State, Sys2Proof.Machine.exec (.init n d) s = .next t ∧
      t = { s with
        life := .running
        pixcnt := n
        fb := t.fb
        wb := t.wb
        sig := t.sig
        term := false
        exited := false
        done := false
        phase := .tIdle
        txidx := 0
        perEn := false
        perRate := s.params.protocolBitRate
        perQ := []
        lock := false
        dpoll := 0
        responses := s.responses ++ [0]
        draws := t.draws
        tick := t.tick } ∧
      (s.params.initSignal = .zero → t.sig = false) ∧ (s.params.initSignal = .one → t.sig = true) ∧
      (∀ i < n.toNat, ∀ k < 9, t.lb (9 * i + k) = ([0x92, 0x49, 0x24] : List Byte).getD (k % 3) 0) ∧
      (∀ o, 9 * n.toNat ≤ o → o < 9 * n.toNat + s.params.resetBytes → t.lb o = 0)

/-- R43, R171, R172, R210, R218: a failed INIT answers its code, sets its STATUS bit and changes nothing else; a failed
allocation hides a failed configuration (the draws, and the fields that move with them, are log 7). What stays in the fields
that R41, R44 and R172 leave unspecified is the model's choice (log 6, log 11). -/
def Obligations.FailedInitChangesNothingElse : Prop :=
  ∀ (s : State) (n d : Word),
    (s.life = .absent ∨ s.life = .destroyed) → (s.params.laneSwap = true → (9 * n.toNat + s.params.resetBytes) % 2 = 0) →
    ((drawBit s).1 = false →
      ∃ t : State, Sys2Proof.Machine.exec (.init n d) s = .next t ∧
        t = { s with status := s.status ||| 0x01#8, responses := s.responses ++ [1], draws := t.draws, tick := t.tick }) ∧
    ((drawBit s).1 = true → (drawBit (drawBit s).2).1 = false →
      ∃ t : State, Sys2Proof.Machine.exec (.init n d) s = .next t ∧
        t = { s with status := s.status ||| 0x02#8, responses := s.responses ++ [2], draws := t.draws, tick := t.tick })

/-- R71, R170: INIT with an operand that makes `L` odd under the lane swap is refused. -/
def Obligations.InitRefusesAnOddFrame : Prop :=
  ∀ (s : State) (n d : Word), (s.life = .absent ∨ s.life = .destroyed) → s.params.laneSwap = true →
    (9 * n.toNat + s.params.resetBytes) % 2 = 1 →
    Sys2Proof.Machine.exec (.init n d) s = .refused .oddFrameLength

/-- R176: GETREFRESHRATE answers `floor(ProtocolBitRate / (L * 8))`, which fits the response word, and changes nothing
else; with `L = 0`, and outside RUNNING, it is refused. -/
def Obligations.RefreshRateIsTheTruncatedQuotient : Prop :=
  ∀ s : State,
    (s.life = .running → 9 * s.pixcnt.toNat + s.params.resetBytes ≠ 0 → s.params.wf →
      ∃ w : Word,
        Sys2Proof.Machine.exec .getRefreshRate s = .next { s with responses := s.responses ++ [w] } ∧
        w.toNat = s.params.protocolBitRate / ((9 * s.pixcnt.toNat + s.params.resetBytes) * 8)) ∧
    (s.life = .running → 9 * s.pixcnt.toNat + s.params.resetBytes = 0 →
      Sys2Proof.Machine.exec .getRefreshRate s = .refused .zeroFrameLength) ∧
    (s.life ≠ .running → Sys2Proof.Machine.exec .getRefreshRate s = .refused .outsideLifecycle)

/-- R177: DEINIT's first step and DI_REQUEST complete in RUNNING: teardown begins, TERM and SIG are set in one step; from
then on SETPIXEL and GETREFRESHRATE are refused. The SETPIXEL calls it overlaps are late from then on (R251; log 21). -/
def Obligations.TerminationIsRequestedInOneStep : Prop :=
  ∀ s : State, s.life = .running →
    ∃ t : State,
      t = { s with
        life := .teardown
        term := true
        sig := true
        dpoll := 0
        calls := s.calls.map fun c => ⟨c.ok, true⟩ } ∧
      Sys2Proof.Machine.exec .deinit s = .next t ∧
      Sys2Proof.Machine.exec .diRequest s = .next t ∧
      (∀ records, Sys2Proof.Machine.exec (.setPixel records) t = .refused .outsideLifecycle) ∧
      Sys2Proof.Machine.exec .getRefreshRate t = .refused .outsideLifecycle

/-- R178: DI_POLL completes in TEARDOWN: it releases on EXITED, else counts the examination while the bound allows one
more, else times out. -/
def Obligations.PollExaminesTheAcknowledgement : Prop :=
  ∀ s : State, s.life = .teardown →
    (s.exited = true →
      ∃ t : State, Sys2Proof.Machine.exec .diPoll s = .next t ∧ Sys2Proof.Machine.exec .diRelease s = .next t) ∧
    (s.exited = false → s.dpoll + 1 < s.params.deinitRetryBound →
      Sys2Proof.Machine.exec .diPoll s = .next { s with dpoll := s.dpoll + 1 }) ∧
    (s.exited = false → s.params.deinitRetryBound ≤ s.dpoll + 1 →
      Sys2Proof.Machine.exec .diPoll s = .next { s with life := .leaked, status := s.status ||| 0x08#8 })

/-- R44, R179: DI_RELEASE completes on the engine's acknowledgement: the buffers and the queue cease to exist and LIFE is
DESTROYED; SIG and DONE are unspecified afterwards (how they are left open is log 11) and nothing else changes. That PER_RATE,
PIXCNT, TXIDX, DPOLL and LOCK stay, which the spec leaves open here, is the model's choice too (log 11), and so are the empty
lists for what does not exist (log 9). -/
def Obligations.ReleaseDestroysTheContext : Prop :=
  ∀ s : State, s.life = .teardown → s.exited = true →
    ∃ t : State, Sys2Proof.Machine.exec .diRelease s = .next t ∧
      t = { s with
        life := .destroyed
        fb := []
        wb := []
        perQ := []
        sig := t.sig
        done := t.done
        draws := t.draws
        tick := t.tick }

/-- R180: DI_TIMEOUT completes at the last allowed examination: the timeout is recorded, LIFE is LEAKED and nothing is
released. -/
def Obligations.TimeoutLeaksTheContext : Prop :=
  ∀ s : State, s.life = .teardown → s.exited = false → s.params.deinitRetryBound ≤ s.dpoll + 1 →
    Sys2Proof.Machine.exec .diTimeout s = .next { s with life := .leaked, status := s.status ||| 0x08#8 }

/-- R178, R180, S8: with the engine stalled, `DeinitRetryBound` polls after the request end DEINIT with a recorded
timeout. -/
def Obligations.StalledTeardownEndsInATimeout : Prop :=
  ∀ (s : State) (ts : List Turn), s.life = .teardown → s.exited = false → s.dpoll = 0 → s.params.wf →
    s.turns = List.replicate s.params.deinitRetryBound .poll ++ ts →
    Host.Core.run Sys2Proof.core s.params.deinitRetryBound s =
      .next { s with
        life := .leaked
        status := s.status ||| 0x08#8
        dpoll := s.params.deinitRetryBound - 1
        turns := ts }

/-- R44, R220, R243: after a timed-out DEINIT every step leaves LIFE = LEAKED, the frame buffer and the length as they
are, and no command answers a response. -/
def Obligations.LeakedIsForGood : Prop :=
  ∀ s t : State, s.life = .leaked → step s = .next t →
    t.life = .leaked ∧ t.fb = s.fb ∧ t.pixcnt = s.pixcnt ∧ t.term = s.term ∧ t.responses = s.responses ∧
      t.status = s.status

/-! ### Rules of the whole machine -/

/-- R40: a STATUS bit once 1 stays 1, and bits 7:4 are never written. -/
def Obligations.StatusIsSticky : Prop :=
  ∀ s t : State, step s = .next t →
    (∀ i, s.status.getLsbD i = true → t.status.getLsbD i = true) ∧
    (∀ i, 4 ≤ i → t.status.getLsbD i = s.status.getLsbD i)

/-- R6, R21, R242: no step changes the parameters, and none from a state in which a context exists changes PIXCNT, and so the
frame length. That the step which releases the context keeps PIXCNT too, which the spec leaves open, is the model's choice
(log 11). -/
def Obligations.LengthIsFixedForAContext : Prop :=
  ∀ s t : State, step s = .next t →
    t.params = s.params ∧ (s.life.live = true → t.pixcnt = s.pixcnt ∧ t.frameLen = s.frameLen)

/-- R34, R221: WIRE is append-only, and only the peripheral's turn, enabled, appends to it (bit order alone, U9, log 16). -/
def Obligations.OnlyThePeripheralAppendsToTheWire : Prop :=
  ∀ s t : State, step s = .next t →
    ∃ bits : List Bool, t.wire = s.wire ++ bits ∧
      (bits ≠ [] → (nextTurn s).1 = .peripheral ∧ s.life.live = true ∧ s.perEn = true)

/-- R221: the engine's turn changes WB, SIG, EXITED, DONE, PHASE, TXIDX, PER_EN and PER_Q at most. -/
def Obligations.EngineTouchesOnlyItsOwnState : Prop :=
  ∀ s t : State, (nextTurn s).1 = .engine → step s = .next t →
    t = { s with
      wb := t.wb
      sig := t.sig
      exited := t.exited
      done := t.done
      phase := t.phase
      txidx := t.txidx
      perEn := t.perEn
      perQ := t.perQ
      writeTakes := t.writeTakes
      turns := t.turns
      tick := t.tick } ∧
    (t.sig = true → s.sig = true) ∧ (s.exited = true → t.exited = true) ∧ (t.done = true → s.done = true)

/-- R67, R155, R198, R221: the peripheral's turn changes DONE, PER_Q and WIRE at most: it only sets DONE, only pops PER_Q, and
appends to WIRE exactly what it pops, in order (bit order alone, U9, log 16). -/
def Obligations.PeripheralTouchesOnlyItsOwnState : Prop :=
  ∀ s t : State, (nextTurn s).1 = .peripheral → step s = .next t →
    t = { s with done := t.done, perQ := t.perQ, wire := t.wire, turns := t.turns, tick := t.tick } ∧
    (s.done = true → t.done = true) ∧
    ∃ popped, s.perQ = popped ++ t.perQ ∧ t.wire = s.wire ++ queueBits s.params popped

/-- R80, R221: while the context goes on existing, no producer's turn changes WB or anything of a transfer, and none
clears SIG or TERM. -/
def Obligations.ProducersNeverTouchATransfer : Prop :=
  ∀ s t : State, s.life.live = true → t.life.live = true → step s = .next t →
    ((nextTurn s).1 = .command ∨ (∃ k, (nextTurn s).1 = .signal k) ∨ (nextTurn s).1 = .poll) →
    t.wb = s.wb ∧ t.perQ = s.perQ ∧ t.wire = s.wire ∧ t.txidx = s.txidx ∧ t.perEn = s.perEn ∧ t.done = s.done ∧
      t.phase = s.phase ∧ t.exited = s.exited ∧ (s.sig = true → t.sig = true) ∧ (s.term = true → t.term = true)

/-- The power-on values the spec gives (R41, R240): no context, STATUS 0, an empty WIRE and no buffers (that a buffer which
does not exist is an empty list is the model's choice, log 9). -/
def Obligations.PowerOnStateIsAsGiven : Prop :=
  State.reset.life = .absent ∧ State.reset.status = 0 ∧ State.reset.wire = [] ∧ State.reset.fb = [] ∧
    State.reset.wb = [] ∧ State.reset.perQ = []

/-- R41, R240: before INIT succeeds no step has an effect on the block's buffers, flags, engine, peripheral or wire. -/
def Obligations.NothingMovesBeforeInit : Prop :=
  ∀ s t : State, s.life = .absent → step s = .next t → t.life ≠ .running →
    t = { s with
      status := t.status
      cmds := t.cmds
      responses := t.responses
      value := t.value
      turns := t.turns
      draws := t.draws
      tick := t.tick }

/-- R225: the debug port answers every item listed, and has no state to change. A position outside an existing buffer is
the fault BufferBounds (the model's reading of R61 for this port, log 17). -/
def Obligations.DebugPortReadsTheState : Prop :=
  ∀ s : State,
    debugRead .status s = .ok (.byte s.status) ∧ debugRead .life s = .ok (.life s.life) ∧
    debugRead .phase s = .ok (.phase s.phase) ∧ debugRead .pixcnt s = .ok (.count s.pixcnt) ∧
    debugRead .sig s = .ok (.flag s.sig) ∧ debugRead .term s = .ok (.flag s.term) ∧
    debugRead .exited s = .ok (.flag s.exited) ∧
    ∀ a, (s.life.live = true ∧ a < s.frameLen →
        debugRead (.fb a) s = .ok (.byte (Memory.read s.fb a)) ∧
        debugRead (.wb a) s = .ok (.byte (Memory.read s.wb a))) ∧
      (¬ (s.life.live = true ∧ a < s.frameLen) →
        debugRead (.fb a) s = .error .bufferBounds ∧ debugRead (.wb a) s = .error .bufferBounds)

/-! ### A step runs what it decodes -/

/-- R12, R110: on a producer's turn the step is exec of the command its words decode to, the words taken from the port and
the turn over. -/
def Obligations.StepRunsTheDecodedCommand : Prop :=
  ∀ (s : State) (ts : List Turn) (i : Instr) (rest : List Word),
    s.turns = .command :: ts → s.lock = false → decodeCommand s.cmds = .ok (i, rest) →
    step s = Sys2Proof.Machine.exec i { s with turns := ts, cmds := rest }

/-- R29, R145, R155, R156: on the other turns the step is exec of the agent's step: the engine's is the one the code of
PHASE decodes to, the peripheral's the one that is enabled (which turn it is is the schedule's, log 2). -/
def Obligations.StepRunsTheAgentsStep : Prop :=
  ∀ (s : State) (ts : List Turn),
    (∀ k, s.turns = .signal k :: ts → step s = Sys2Proof.Machine.exec (.spSignal k) { s with turns := ts }) ∧
    (s.turns = .poll :: ts → step s = Sys2Proof.Machine.exec .diPoll { s with turns := ts }) ∧
    (s.turns = .engine :: ts → ∀ i, decodePhase s.phase.code = .ok i →
      step s = Sys2Proof.Machine.exec i { s with turns := ts }) ∧
    (s.turns = .peripheral :: ts →
      (s.emitEnabled → step s = Sys2Proof.Machine.exec .perEmit { s with turns := ts }) ∧
      (¬ s.emitEnabled → step s = Sys2Proof.Machine.exec .perComplete { s with turns := ts })) ∧
    (∀ v, s.turns = .lookup v :: ts → step s = Sys2Proof.Machine.exec (.encode v) { s with turns := ts }) ∧
    (∀ r g b, s.turns = .makeColour r g b :: ts → step s = Sys2Proof.Machine.exec (.rgb r g b) { s with turns := ts }) ∧
    (∀ c, s.turns = .takeRed c :: ts → step s = Sys2Proof.Machine.exec (.red c) { s with turns := ts }) ∧
    (∀ c, s.turns = .takeGreen c :: ts → step s = Sys2Proof.Machine.exec (.green c) { s with turns := ts }) ∧
    (∀ c, s.turns = .takeBlue c :: ts → step s = Sys2Proof.Machine.exec (.blue c) { s with turns := ts })

/-! ### Invariants -/

/-- R7, R24, R35, R40, R41: the invariants hold at power-on, with no snapshot taken. R41 leaves LOCK open: that it is 0 is the
value log 6 picks (R35: it is 0 between steps). That the open parameters are within R7's limits is log 1, and that a buffer
or a queue that does not exist is an empty list is log 9. -/
def Obligations.InvariantsHoldAtPowerOn : Prop :=
  FrameInv State.reset ∧ EngineInv State.reset ∧ WireInv (fun _ => False) State.reset ∧ NoUpdateLost State.reset ∧
    State.reset.params.wf

/-- R24, R61, R71: every step keeps the buffers canonical, in bounds, of a well-formed length, and FB a frame: encoded
pixels, then zeros. -/
def Obligations.EveryStepKeepsTheFrame : Prop :=
  ∀ s t : State, FrameInv s → step s = .next t → FrameInv t

/-- R26 to R36, R44, R152, R156, R158: every step keeps the engine, the peripheral and the teardown handshake in
agreement. -/
def Obligations.EveryStepKeepsTheEngineConsistent : Prop :=
  ∀ s t : State, FrameInv s → EngineInv s → step s = .next t → EngineInv t

/-- R157: every step keeps WIRE a concatenation of whole frames and at most one in progress, whatever the schedule, each the
frame that FB had at a snapshot step; after a transfer the last of them is WB's. `snapshots` are those taken before the
step. WIRE is bit order alone, without gaps or underrun inside a frame (U9, log 16). -/
def Obligations.EveryStepKeepsTheWireWhole : Prop :=
  ∀ (snapshots : List Bool → Prop) (s t : State), FrameInv s → EngineInv s → WireInv snapshots s → step s = .next t →
    WireInv (snapshotsAfter snapshots s t) t

/-- R77 to R79: in RUNNING every step keeps every committed update either snapshotted or on its way to a snapshot; the
fresh frame of INIT needs no snapshot as long as there is neither an update nor a snapshot. -/
def Obligations.EveryStepKeepsUpdatesFromBeingLost : Prop :=
  ∀ s t : State, FrameInv s → EngineInv s → NoUpdateLost s → step s = .next t → NoUpdateLost t

/-- R157, R160, R163: from a snapshot on, the given schedule of the engine and the peripheral, with a Write that accepts
everything (the premise on writeTakes, log 10), appends exactly the frame buffer's frame to WIRE, and leaves the engine
idle, the peripheral disabled and the queue empty. WIRE is bit order alone, without gaps or underrun (U9, log 16). -/
def Obligations.OneTransferEmitsTheFrame : Prop :=
  ∀ (s : State) (ts : List Turn),
    s.life.live = true → s.phase = .tSnap → s.lock = false → s.params.txStrategy = .completionWait →
    evenFrame s.params s.pixcnt → s.perQ = [] → s.writeTakes = [] →
    s.turns = [.engine, .engine, .engine] ++ List.replicate (s.frameLen / emitUnit s.params) .peripheral ++
      [.peripheral, .engine, .engine] ++ ts →
    ∃ t : State,
      Host.Core.run Sys2Proof.core (s.frameLen / emitUnit s.params + 6) s = .next t ∧
      t = { s with
        wb := t.wb
        perEn := false
        done := false
        txidx := s.frameLen
        phase := .tIdle
        wire := s.wire ++ bufferBits s.params s.frameLen s.fb
        turns := ts }

/-- R79, R161, R198: in a weakly fair run without end (the premise R161 assumes; that a run never ends in a fault or a
refusal is log 10, log 19), from a state that the invariants admit: the peripheral in the end emits everything queued, in
order; and in RUNNING with an update signal pending and no termination requested, either termination is requested later, or
a later snapshot copies the frame buffer of that moment and its whole frame goes to WIRE. -/
def Obligations.FairRunsTransmitEveryUpdate : Prop :=
  ∀ (run : Nat → State) (n : Nat), IsRun run → WeaklyFair run → FrameInv (run n) → EngineInv (run n) →
    (∃ m, n ≤ m ∧ (run m).perQ = [] ∧ (run m).wire = (run n).wire ++ queueBits (run n).params (run n).perQ) ∧
    ((run n).life = .running → (run n).sig = true → (run n).term = false →
      (∃ m, n ≤ m ∧ (run m).term = true) ∨
      ∃ m, n ≤ m ∧ (run m).phase = .tSnap ∧ (run (m + 1)).phase = .tEnable ∧
        (∀ a < (run m).frameLen, Memory.read (run (m + 1)).wb a = Memory.read (run m).fb a) ∧
        ∃ k, m < k ∧
          (run k).wire = (run m).wire ++ bufferBits (run m).params (run m).frameLen (run m).fb)
end

