-- ==== Sys2Proof/Laws/Memory.lean ====
section
/-! SUPPORT. Memory: read after write, the canonical form kept by every operation, canonical memories with equal bytes
are equal, and what the bounds-checked accesses can do. -/

namespace Sys2Proof.Machine

/-! ### Reads -/

@[simp] theorem Memory.read_nil (a : Nat) : Memory.read [] a = 0 := rfl

theorem Memory.read_cons (c : Host.Cell) (m : Memory) (a : Nat) :
    Memory.read (c :: m) a = if c.1 = a then c.2 else Memory.read m a := by
  by_cases h : c.1 = a <;> simp [Memory.read, h]

theorem Memory.read_of_absent (m : Memory) (a : Nat) (h : ∀ c ∈ m, c.1 ≠ a) : Memory.read m a = 0 := by
  induction m with
  | nil => rfl
  | cons c m ih =>
    rw [Memory.read_cons, if_neg (h c (by simp))]
    exact ih fun d hd => h d (by simp [hd])

theorem Memory.read_clear (m : Memory) (a a' : Nat) :
    Memory.read (Memory.clear m a) a' = if a' = a then 0 else Memory.read m a' := by
  induction m with
  | nil => simp [Memory.clear]
  | cons c m ih =>
    simp only [Memory.clear, List.filter_cons] at ih ⊢
    by_cases hc : c.1 = a
    · simp only [hc, bne_self_eq_false, Bool.false_eq_true, if_false, ih, Memory.read_cons]
      by_cases ha : a' = a
      · simp [ha]
      · simp [ha, Ne.symm ha]
    · have : (c.1 != a) = true := by simpa using hc
      simp only [this, if_true, Memory.read_cons, ih]
      by_cases h : c.1 = a'
      · have : a' ≠ a := by omega
        simp [h, this]
      · simp [h]

theorem Memory.read_insert (c : Host.Cell) (m : Memory) (h : ∀ d ∈ m, d.1 ≠ c.1) (a : Nat) :
    Memory.read (Memory.insert c m) a = if a = c.1 then c.2 else Memory.read m a := by
  induction m with
  | nil => simp [Memory.insert, Memory.read_cons, eq_comm]
  | cons d m ih =>
    unfold Memory.insert
    split
    · simp [Memory.read_cons, eq_comm]
    · rw [Memory.read_cons, Memory.read_cons, ih fun e he => h e (by simp [he])]
      by_cases hd : d.1 = a
      · have : a ≠ c.1 := by have := h d (by simp); omega
        simp [hd, this]
      · simp [hd]

theorem Memory.clear_absent (m : Memory) (a : Nat) : ∀ c ∈ Memory.clear m a, c.1 ≠ a := by
  intro c hc
  simpa using (List.mem_filter.1 hc).2

/-- Read after write. -/
theorem Memory.read_write (m : Memory) (a : Nat) (b : Byte) (a' : Nat) :
    Memory.read (Memory.write m a b) a' = if a' = a then b else Memory.read m a' := by
  unfold Memory.write
  split
  · next h => rw [Memory.read_clear]; simp [h]
  · rw [Memory.read_insert _ _ (Memory.clear_absent m a), Memory.read_clear]
    by_cases h : a' = a <;> simp [h]

theorem Memory.read_write_same (m : Memory) (a : Nat) (b : Byte) :
    Memory.read (Memory.write m a b) a = b := by simp [Memory.read_write]

theorem Memory.read_write_other (m : Memory) (b : Byte) {a a' : Nat} (h : a' ≠ a) :
    Memory.read (Memory.write m a b) a' = Memory.read m a' := by simp [Memory.read_write, h]

theorem Memory.read_below (m : Memory) (n a : Nat) :
    Memory.read (Memory.below m n) a = if a < n then Memory.read m a else 0 := by
  induction m with
  | nil => simp [Memory.below]
  | cons c m ih =>
    simp only [Memory.below, List.filter_cons] at ih ⊢
    by_cases hc : c.1 < n
    · simp only [hc, decide_true, if_true, Memory.read_cons, ih]
      by_cases h : c.1 = a
      · have : a < n := by omega
        simp [h, this]
      · simp [h]
    · simp only [hc, decide_false, Bool.false_eq_true, if_false, ih, Memory.read_cons]
      by_cases h : a < n
      · have : c.1 ≠ a := by omega
        simp [this]
      · simp [h]

/-! ### The canonical form -/

@[simp] theorem Memory.wf_nil : Memory.wf [] := by simp [Memory.wf]

theorem Memory.wf_filter (m : Memory) (p : Host.Cell → Bool) (h : Memory.wf m) : Memory.wf (m.filter p) :=
  ⟨h.1.filter p, fun c hc => h.2 c (List.mem_filter.1 hc).1⟩

theorem Memory.wf_clear (m : Memory) (a : Nat) (h : Memory.wf m) : Memory.wf (Memory.clear m a) :=
  Memory.wf_filter m _ h

theorem Memory.wf_below (m : Memory) (n : Nat) (h : Memory.wf m) : Memory.wf (Memory.below m n) :=
  Memory.wf_filter m _ h

theorem Memory.mem_insert (c d : Host.Cell) (m : Memory) : d ∈ Memory.insert c m ↔ d = c ∨ d ∈ m := by
  induction m with
  | nil => simp [Memory.insert]
  | cons e m ih =>
    unfold Memory.insert
    split
    · simp
    · simp [ih]; tauto

theorem Memory.wf_insert (c : Host.Cell) (m : Memory) (hm : Memory.wf m) (hc : c.2 ≠ 0)
    (ha : ∀ d ∈ m, d.1 ≠ c.1) : Memory.wf (Memory.insert c m) := by
  refine ⟨?_, fun d hd => ?_⟩
  · induction m with
    | nil => simp [Memory.insert]
    | cons e m ih =>
      have he : e.1 ≠ c.1 := ha e (by simp)
      obtain ⟨hp, hz⟩ := hm
      rw [List.pairwise_cons] at hp
      unfold Memory.insert
      split
      · next hlt =>
        refine List.pairwise_cons.2 ⟨fun d hd => ?_, List.pairwise_cons.2 hp⟩
        rcases List.mem_cons.1 hd with rfl | hd
        · exact hlt
        · exact lt_trans hlt (hp.1 d hd)
      · next hge =>
        refine List.pairwise_cons.2 ⟨fun d hd => ?_, ?_⟩
        · rcases (Memory.mem_insert c d m).1 hd with rfl | hd
          · omega
          · exact hp.1 d hd
        · exact ih ⟨hp.2, fun d hd => hz d (by simp [hd])⟩ fun d hd => ha d (by simp [hd])
  · rcases (Memory.mem_insert c d m).1 hd with rfl | hd
    · exact hc
    · exact hm.2 d hd

theorem Memory.wf_write (m : Memory) (a : Nat) (b : Byte) (h : Memory.wf m) : Memory.wf (Memory.write m a b) := by
  unfold Memory.write
  split
  · exact Memory.wf_clear m a h
  · next hb => exact Memory.wf_insert _ _ (Memory.wf_clear m a h) hb (Memory.clear_absent m a)

theorem Memory.mem_write {m : Memory} {a : Nat} {b : Byte} {c : Host.Cell} (h : c ∈ Memory.write m a b) :
    c.1 = a ∨ c ∈ m := by
  unfold Memory.write at h
  split at h
  · exact .inr (List.mem_filter.1 h).1
  · rcases (Memory.mem_insert _ _ _).1 h with rfl | h
    · exact .inl rfl
    · exact .inr (List.mem_filter.1 h).1

theorem Memory.ofBytes_rising (n : Nat) (f : Nat → Byte) :
    ((List.range n).map fun a => ((a, f a) : Host.Cell)).Pairwise fun c d => c.1 < d.1 := by
  rw [List.pairwise_map]
  exact List.pairwise_lt_range

theorem Memory.wf_ofBytes (n : Nat) (f : Nat → Byte) : Memory.wf (Memory.ofBytes n f) := by
  refine ⟨(Memory.ofBytes_rising n f).filter _, fun c hc => ?_⟩
  simpa using (List.mem_filter.1 hc).2

theorem Memory.mem_ofBytes {n : Nat} {f : Nat → Byte} {c : Host.Cell} (h : c ∈ Memory.ofBytes n f) : c.1 < n := by
  obtain ⟨a, ha, rfl⟩ := List.mem_map.1 (List.mem_filter.1 h).1
  simpa using ha

theorem Memory.mem_below {m : Memory} {n : Nat} {c : Host.Cell} (h : c ∈ Memory.below m n) : c.1 < n := by
  simpa using (List.mem_filter.1 h).2

theorem Memory.read_of_mem {m : Memory} (h : Memory.wf m) {c : Host.Cell} (hc : c ∈ m) :
    Memory.read m c.1 = c.2 := by
  induction m with
  | nil => cases hc
  | cons d m ih =>
    obtain ⟨hp, hz⟩ := h
    rw [List.pairwise_cons] at hp
    rw [Memory.read_cons]
    rcases List.mem_cons.1 hc with rfl | hc
    · simp
    · have := hp.1 c hc
      rw [if_neg (by omega)]
      exact ih ⟨hp.2, fun e he => hz e (by simp [he])⟩ hc

theorem Memory.mem_iff {m : Memory} (h : Memory.wf m) (a : Nat) (b : Byte) :
    (a, b) ∈ m ↔ b ≠ 0 ∧ Memory.read m a = b := by
  refine ⟨fun hc => ⟨h.2 _ hc, Memory.read_of_mem h hc⟩, fun ⟨hb, hr⟩ => ?_⟩
  by_contra hn
  refine hb (hr ▸ Memory.read_of_absent m a fun c hc hca => hn ?_)
  have := Memory.read_of_mem h hc
  rw [hca, hr] at this
  rw [← hca, this]
  exact hc

/-- Canonical memories that read alike are the same list. -/
theorem Memory.ext {m m' : Memory} (h : Memory.wf m) (h' : Memory.wf m')
    (hr : ∀ a, Memory.read m a = Memory.read m' a) : m = m' := by
  have hmem : ∀ c : Host.Cell, c ∈ m ↔ c ∈ m' := fun ⟨a, b⟩ => by
    rw [Memory.mem_iff h, Memory.mem_iff h', hr]
  have hnd : ∀ {l : Memory}, Memory.wf l → l.Nodup := fun hl => hl.1.imp fun hlt he => by
    rw [he] at hlt; exact lt_irrefl _ hlt
  have hp : m.Perm m' := (List.perm_ext_iff_of_nodup (hnd h) (hnd h')).2 hmem
  exact hp.eq_of_pairwise (fun c d _ _ h1 h2 => absurd h1 (by omega)) h.1 h'.1

/-! ### Bounds-checked accesses -/

theorem memRead_all (len : Nat) (m : Memory) :
    memRead len m 0 len = .ok ((List.range len).map fun a => Memory.read m a) := by
  simp [memRead]

theorem memWrite_ok {len : Nat} {m m' : Memory} {a : Nat} {b : Byte} (h : memWrite len m a b = .ok m') :
    a < len ∧ m' = Memory.write m a b := by
  unfold memWrite at h
  split at h
  · next hb => exact ⟨by omega, by simpa using h.symm⟩
  · cases h

theorem memWrite_of_lt {len : Nat} (m : Memory) {a : Nat} (b : Byte) (h : a < len) :
    memWrite len m a b = .ok (Memory.write m a b) := by
  simp [memWrite, Nat.succ_le_of_lt h]

/-- Writes inside the buffer are all carried out. -/
theorem memWrites_of_lt (len : Nat) (cs : List Host.Cell) (m : Memory) (h : ∀ c ∈ cs, c.1 < len) :
    memWrites len cs m = .ok (cs.foldl (fun m c => Memory.write m c.1 c.2) m) := by
  induction cs generalizing m with
  | nil => rfl
  | cons c cs ih =>
    simp only [memWrites, memWrite_of_lt m c.2 (h c (by simp)), List.foldl_cons]
    exact ih _ fun d hd => h d (by simp [hd])

/-- Writes that end have all been inside the buffer. -/
theorem memWrites_ok {len : Nat} {cs : List Host.Cell} {m m' : Memory} (h : memWrites len cs m = .ok m') :
    (∀ c ∈ cs, c.1 < len) ∧ m' = cs.foldl (fun m c => Memory.write m c.1 c.2) m := by
  induction cs generalizing m with
  | nil => simp only [memWrites, Except.ok.injEq] at h; simp [h]
  | cons c cs ih =>
    simp only [memWrites] at h
    split at h
    · next m1 h1 =>
      obtain ⟨hlt, rfl⟩ := memWrite_ok h1
      obtain ⟨hcs, rfl⟩ := ih h
      exact ⟨by simpa [hlt] using hcs, rfl⟩
    · cases h

theorem Memory.wf_writes (cs : List Host.Cell) (m : Memory) (h : Memory.wf m) :
    Memory.wf (cs.foldl (fun m c => Memory.write m c.1 c.2) m) := by
  induction cs generalizing m with
  | nil => exact h
  | cons c cs ih => exact ih _ (Memory.wf_write m c.1 c.2 h)

theorem Memory.read_writes_other (cs : List Host.Cell) (m : Memory) (a : Nat) (h : ∀ c ∈ cs, c.1 ≠ a) :
    Memory.read (cs.foldl (fun m c => Memory.write m c.1 c.2) m) a = Memory.read m a := by
  induction cs generalizing m with
  | nil => rfl
  | cons c cs ih =>
    rw [List.foldl_cons, ih _ fun d hd => h d (by simp [hd])]
    exact Memory.read_write_other m c.2 (Ne.symm (h c (by simp)))

/-- Writes to different positions: each position holds the byte written to it. -/
theorem Memory.read_writes_same (cs : List Host.Cell) (m : Memory)
    (hd : cs.Pairwise fun c d => c.1 ≠ d.1) {c : Host.Cell} (hc : c ∈ cs) :
    Memory.read (cs.foldl (fun m c => Memory.write m c.1 c.2) m) c.1 = c.2 := by
  induction cs generalizing m with
  | nil => cases hc
  | cons d cs ih =>
    rw [List.pairwise_cons] at hd
    rw [List.foldl_cons]
    rcases List.mem_cons.1 hc with rfl | hc
    · rw [Memory.read_writes_other cs _ _ fun e he => (hd.1 e he).symm]
      exact Memory.read_write_same m _ _
    · exact ih _ hd.2 hc

theorem Memory.mem_writes {cs : List Host.Cell} {m : Memory} {d : Host.Cell}
    (h : d ∈ cs.foldl (fun m c => Memory.write m c.1 c.2) m) : (∃ c ∈ cs, d.1 = c.1) ∨ d ∈ m := by
  induction cs generalizing m with
  | nil => exact .inr h
  | cons c cs ih =>
    rcases ih h with ⟨e, he, hde⟩ | h
    · exact .inl ⟨e, by simp [he], hde⟩
    · rcases Memory.mem_write h with hd | h
      · exact .inl ⟨c, by simp, hd⟩
      · exact .inr h

end Sys2Proof.Machine
end

