-- ==== Sys2Proof/Laws/Operands.lean ====
section
/-! SUPPORT. Operands: the lane swap's arithmetic, the positions of a pixel, the bytes of an entry, the codes of PHASE. -/

namespace Sys2Proof.Machine

/-! ### The lane swap -/

theorem xor_one (o : Nat) : o ^^^ 1 = if o % 2 = 0 then o + 1 else o - 1 := by
  have hdiv : (o ^^^ 1) / 2 = o / 2 := by simp [← Nat.shiftRight_one, Nat.shiftRight_xor_distrib]
  have hmod : (o ^^^ 1) % 2 = (o + 1) % 2 := by
    rcases Nat.mod_two_eq_zero_or_one o with h | h <;> simp [Nat.xor_mod_two_eq]
  split <;> omega

theorem phys_on {p : Params} (h : p.laneSwap = true) (o : Nat) :
    phys p o = if o % 2 = 0 then o + 1 else o - 1 := by simp [phys, h, xor_one]

theorem phys_off {p : Params} (h : p.laneSwap = false) (o : Nat) : phys p o = o := by simp [phys, h]

theorem phys_inj {p : Params} {a b : Nat} (h : phys p a = phys p b) : a = b := by
  unfold phys at h
  split at h
  · rw [xor_one, xor_one] at h
    split at h <;> split at h <;> omega
  · exact h

theorem phys_ne {p : Params} {a b : Nat} (h : a ≠ b) : phys p a ≠ phys p b := fun e => h (phys_inj e)

/-! ### Pixels -/

@[simp] theorem pixelCells_eq (p : Params) (i : Nat) (c : Colour) :
    pixelCells p i c = (List.range 9).map fun k => (phys p (pixelOffset i k), pixelByte c k) := rfl

theorem mem_storedSet {p : Params} {i a : Nat} : a ∈ storedSet p i ↔ ∃ k < 9, phys p (pixelOffset i k) = a := by
  simp [storedSet]

theorem pixelOffset_inj {i j k l : Nat} (hk : k < 9) (hl : l < 9) (h : pixelOffset i k = pixelOffset j l) :
    i = j ∧ k = l := by
  unfold pixelOffset at h
  omega

/-- The logical bytes of a frame belong to one pixel each, or to the gap (R75). -/
theorem pixelOffset_cover {n o : Nat} (h : o < 9 * n) : ∃ i < n, ∃ k < 9, o = pixelOffset i k :=
  ⟨o / 9, by omega, o % 9, by omega, by unfold pixelOffset; omega⟩

theorem frameLength_eq (p : Params) (n : Word) : frameLength p n = 9 * n.toNat + p.resetBytes := rfl

theorem State.frameLen_eq (s : State) : s.frameLen = frameLength s.params s.pixcnt := rfl

/-! ### Entries of LUT and the codes of PHASE -/

theorem lutRead_entry (v : Byte) {j : Nat} (h : j < 3) : lutRead (3 * v.toNat + j) = lut v j := by
  have h1 : (3 * v.toNat + j) / 3 = v.toNat := by omega
  have h2 : (3 * v.toNat + j) % 3 = j := by omega
  simp [lutRead, h1, h2]

theorem phaseOfCode_code (p : Phase) : phaseOfCode p.code = some p := by cases p <;> rfl

theorem emitUnit_on {p : Params} (h : p.laneSwap = true) : emitUnit p = 2 := by simp [emitUnit, h]

theorem emitUnit_off {p : Params} (h : p.laneSwap = false) : emitUnit p = 1 := by simp [emitUnit, h]

@[simp] theorem msbFirst_length (b : Byte) : (msbFirst b).length = 8 := rfl

end Sys2Proof.Machine
end

