-- ==== Sys2Proof/Laws/Pixel.lean ====
section
/-! SUPPORT. WritePixel, the batch of SETPIXEL and the fresh frame of INIT: when they end, and what they leave. -/

namespace Sys2Proof.Machine

theorem phys_lt {p : Params} {len o : Nat} (he : p.laneSwap = true → len % 2 = 0) (h : o < len) :
    phys p o < len := by
  cases hl : p.laneSwap
  · rw [phys_off hl]; exact h
  · have := he hl
    rw [phys_on hl]
    split <;> omega

theorem pixelCells_distinct (p : Params) (i : Nat) (c : Colour) :
    (pixelCells p i c).Pairwise fun c d => c.1 ≠ d.1 := by
  rw [pixelCells_eq, List.pairwise_map]
  exact List.pairwise_lt_range.imp fun hlt he => by
    have := phys_inj he
    unfold pixelOffset at this
    omega

/-- Everything WritePixel can do when it ends. -/
theorem writePixel_ok {p : Params} {len i : Nat} {c : Colour} {m m' : Memory}
    (h : writePixel p len i c m = .ok m') :
    (∀ k < 9, phys p (pixelOffset i k) < len) ∧ (Memory.wf m → Memory.wf m') ∧
      (∀ k < 9, Memory.read m' (phys p (pixelOffset i k)) = pixelByte c k) ∧
      (∀ a, a ∉ storedSet p i → Memory.read m' a = Memory.read m a) ∧
      ((∀ d ∈ m, d.1 < len) → ∀ d ∈ m', d.1 < len) := by
  obtain ⟨hlt, rfl⟩ := memWrites_ok h
  have hmem : ∀ k < 9, (phys p (pixelOffset i k), pixelByte c k) ∈ pixelCells p i c := fun k hk => by
    simp only [pixelCells_eq, List.mem_map, List.mem_range]; exact ⟨k, hk, rfl⟩
  refine ⟨fun k hk => hlt _ (hmem k hk), Memory.wf_writes _ _, fun k hk => ?_, fun a ha => ?_, fun hm d hd => ?_⟩
  · exact Memory.read_writes_same _ m (pixelCells_distinct p i c) (hmem k hk)
  · refine Memory.read_writes_other _ _ _ fun d hd hda => ha ?_
    simp only [pixelCells_eq, List.mem_map, List.mem_range] at hd
    obtain ⟨k, hk, rfl⟩ := hd
    exact mem_storedSet.2 ⟨k, hk, hda⟩
  · rcases Memory.mem_writes hd with ⟨e, he, hde⟩ | hd
    · rw [hde]; exact hlt e he
    · exact hm d hd

/-- WritePixel ends on every pixel of a well-formed frame. -/
theorem writePixel_ends {p : Params} {n : Word} (he : evenFrame p n) {i : Nat} (hi : i < n.toNat) (c : Colour)
    (m : Memory) : ∃ m', writePixel p (frameLength p n) i c m = .ok m' := by
  refine ⟨_, memWrites_of_lt _ _ _ fun d hd => ?_⟩
  simp only [pixelCells_eq, List.mem_map, List.mem_range] at hd
  obtain ⟨k, hk, rfl⟩ := hd
  exact phys_lt he (by unfold pixelOffset frameLength; omega)

/-! ### The fresh frame -/

/-- Everything a run of WritePixel with one colour can do when it ends. -/
theorem writePixels_ok {p : Params} {len : Nat} {c : Colour} {is : List Nat} {m m' : Memory}
    (h : writePixels p len c is m = .ok m') :
    (Memory.wf m → Memory.wf m') ∧
      (∀ i ∈ is, ∀ k < 9, Memory.read m' (phys p (pixelOffset i k)) = pixelByte c k) ∧
      (∀ a, (∀ i ∈ is, a ∉ storedSet p i) → Memory.read m' a = Memory.read m a) ∧
      ((∀ d ∈ m, d.1 < len) → ∀ d ∈ m', d.1 < len) := by
  induction is generalizing m with
  | nil =>
    simp only [writePixels, Except.ok.injEq] at h
    subst h; simp
  | cons i is ih =>
    simp only [writePixels] at h
    split at h
    · next m1 h1 =>
      obtain ⟨-, hwf, hsame, hother, hin⟩ := writePixel_ok h1
      obtain ⟨iwf, isame, iother, iin⟩ := ih h
      refine ⟨fun hm => iwf (hwf hm), fun j hj k hk => ?_, fun a ha => ?_, fun hm => iin (hin hm)⟩
      · by_cases hjm : j ∈ is
        · exact isame j hjm k hk
        · obtain rfl : j = i := by simpa [hjm] using hj
          rw [iother _ fun l hl hmem => ?_]
          · exact hsame k hk
          · obtain ⟨k', hk', he⟩ := mem_storedSet.1 hmem
            exact hjm ((pixelOffset_inj hk' hk (phys_inj he)).1 ▸ hl)
      · rw [iother a fun l hl => ha l (by simp [hl])]
        exact hother a (ha i (by simp))
    · cases h

theorem writePixels_ends {p : Params} {n : Word} (he : evenFrame p n) (c : Colour) (is : List Nat)
    (his : ∀ i ∈ is, i < n.toNat) (m : Memory) : ∃ m', writePixels p (frameLength p n) c is m = .ok m' := by
  induction is generalizing m with
  | nil => exact ⟨m, rfl⟩
  | cons i is ih =>
    obtain ⟨m1, h1⟩ := writePixel_ends he (his i (by simp)) c m
    simp only [writePixels, h1]
    exact ih (fun j hj => his j (by simp [hj])) m1

theorem offFrame_ends {p : Params} {n : Word} (he : evenFrame p n) : ∃ m, offFrame p n = .ok m :=
  writePixels_ends he 0 _ (fun _ hi => by simpa using hi) []

/-- The fresh frame: every pixel off, zeros after them, all inside the buffer. -/
theorem offFrame_ok {p : Params} {n : Word} {m : Memory} (h : offFrame p n = .ok m) :
    Memory.wf m ∧ (∀ i < n.toNat, ∀ k < 9, Memory.read m (phys p (pixelOffset i k)) = pixelByte 0 k) ∧
      (∀ o, 9 * n.toNat ≤ o → Memory.read m (phys p o) = 0) ∧ ∀ d ∈ m, d.1 < frameLength p n := by
  obtain ⟨hwf, hsame, hother, hin⟩ := writePixels_ok h
  refine ⟨hwf Memory.wf_nil, fun i hi => hsame i (by simpa using hi), fun o ho => ?_, hin (by simp)⟩
  rw [hother (phys p o) fun i hi hmem => ?_]
  · rfl
  · obtain ⟨k, hk, he⟩ := mem_storedSet.1 hmem
    have := phys_inj he
    have hi : i < n.toNat := by simpa using hi
    unfold pixelOffset at this
    omega

/-! ### The batch -/

theorem lastColour_nil (i : Nat) : lastColour [] i = none := rfl

theorem lastColour_cons (u : PixelUpdate) (us : List PixelUpdate) (i : Nat) :
    lastColour (u :: us) i =
      match lastColour us i with
      | some c => some c
      | none => if u.index.toNat = i then some u.colour else none := by
  unfold lastColour
  rw [List.reverse_cons, List.find?_append]
  cases List.find? (fun u => u.index.toNat == i) us.reverse with
  | some v => simp
  | none => by_cases h : u.index.toNat = i <;> simp [h]

theorem lastColour_none {us : List PixelUpdate} {i : Nat} : lastColour us i = none ↔ ∀ u ∈ us, u.index.toNat ≠ i := by
  simp [lastColour]

/-- Everything a batch can do when it ends: only FB and STATUS change; `ok` and the InvalidIndex bit tell whether every
record was valid; each pixel holds the last valid colour for it; every other byte is as before. -/
theorem applyRecords_ok {us : List PixelUpdate} {ok ok' : Bool} {s t : State}
    (h : applyRecords us ok s = .ok (ok', t)) :
    t = { s with fb := t.fb, status := if batchOk s us then s.status else s.status ||| 0b0100 } ∧
      ok' = (ok && batchOk s us) ∧ (Memory.wf s.fb → Memory.wf t.fb) ∧
      (∀ i < s.pixcnt.toNat, ∀ k < 9, Memory.read t.fb (phys s.params (pixelOffset i k)) =
        match lastColour us i with
        | some c => pixelByte c k
        | none => Memory.read s.fb (phys s.params (pixelOffset i k))) ∧
      (∀ a, (∀ u ∈ us, validRecord s u = true → a ∉ storedSet s.params u.index.toNat) →
        Memory.read t.fb a = Memory.read s.fb a) ∧
      ((∀ d ∈ s.fb, d.1 < s.frameLen) → ∀ d ∈ t.fb, d.1 < s.frameLen) := by
  induction us generalizing ok s with
  | nil =>
    simp only [applyRecords, Except.ok.injEq, Prod.mk.injEq] at h
    obtain ⟨rfl, rfl⟩ := h
    simp [batchOk, lastColour_nil]
  | cons u us ih =>
    simp only [applyRecords] at h
    split at h
    · next hinv =>
      obtain ⟨ht, hok, hwf, hlast, hother, hin⟩ := ih h
      have hb : batchOk s (u :: us) = false := by simp [batchOk, validRecord]; omega
      refine ⟨?_, by rw [hok, hb]; simp, hwf, fun i hi k hk => ?_, fun a ha => ?_, hin⟩
      · refine ht.trans ?_
        have hst : (if batchOk (raiseError .invalidIndex s) us then s.status ||| 4#8 else s.status ||| 4#8 ||| 4#8) =
            s.status ||| 4#8 := by
          split
          · rfl
          · rw [BitVec.or_assoc, BitVec.or_self]
        have hif : (if batchOk s (u :: us) then s.status else s.status ||| 0b0100#8) = s.status ||| 4#8 := by simp [hb]
        exact congrArg (fun st => { s with fb := t.fb, status := st }) (hst.trans hif.symm)
      · refine (hlast i hi k hk).trans ?_
        rw [lastColour_cons]
        have : u.index.toNat ≠ i := by omega
        cases lastColour us i <;> simp [this, raiseError]
      · exact hother a fun v hv => ha v (by simp [hv])
    · next hval =>
      split at h
      · next fb hfb =>
        obtain ⟨-, wwf, wsame, wother, win⟩ := writePixel_ok hfb
        obtain ⟨ht, hok, hwf, hlast, hother, hin⟩ := ih h
        have hv : validRecord s u = true := by simp [validRecord]; omega
        have hb : batchOk s (u :: us) = batchOk { s with fb := fb } us := by
          simp [batchOk, hv]; rfl
        refine ⟨?_, by rw [hok, hb], fun hm => hwf (wwf hm), fun i hi k hk => ?_, fun a ha => ?_,
          fun hm => hin (win hm)⟩
        · rw [hb]; exact ht
        · refine (hlast i hi k hk).trans ?_
          rw [lastColour_cons]
          cases hl : lastColour us i with
          | some c => simp
          | none =>
            by_cases hu : u.index.toNat = i
            · subst hu; simpa using wsame k hk
            · simp only [hu, if_false]
              refine wother _ fun hmem => hu ?_
              obtain ⟨k', hk', he⟩ := mem_storedSet.1 hmem
              exact (pixelOffset_inj hk' hk (phys_inj he)).1
        · rw [hother a fun v hv' hvv => ha v (by simp [hv']) hvv]
          exact wother a (ha u (by simp) hv)
      · cases h

/-- A batch ends on every well-formed frame. -/
theorem applyRecords_ends {s : State} (he : evenFrame s.params s.pixcnt) (us : List PixelUpdate) (ok : Bool) :
    ∃ r, applyRecords us ok s = .ok r := by
  induction us generalizing ok s with
  | nil => exact ⟨_, rfl⟩
  | cons u us ih =>
    simp only [applyRecords]
    split
    · exact ih (s := raiseError .invalidIndex s) he false
    · obtain ⟨m, hm⟩ := writePixel_ends he (i := u.index.toNat) (by omega) u.colour s.fb
      simp only [State.frameLen_eq, hm]
      exact ih (s := { s with fb := m }) he ok

end Sys2Proof.Machine
end

