-- ==== Sys2Proof/Laws/State.lean ====
section
/-! SUPPORT. The shared updates of State, field by field: what each leaves in every field. -/

namespace Sys2Proof.Machine

section
variable (s : State)

/-! signalUpdate -/

@[simp] theorem signalUpdate_params : (signalUpdate s).params = s.params := rfl
@[simp] theorem signalUpdate_life : (signalUpdate s).life = s.life := rfl
@[simp] theorem signalUpdate_pixcnt : (signalUpdate s).pixcnt = s.pixcnt := rfl
@[simp] theorem signalUpdate_fb : (signalUpdate s).fb = s.fb := rfl
@[simp] theorem signalUpdate_wb : (signalUpdate s).wb = s.wb := rfl
@[simp] theorem signalUpdate_sig : (signalUpdate s).sig = true := rfl
@[simp] theorem signalUpdate_term : (signalUpdate s).term = s.term := rfl
@[simp] theorem signalUpdate_exited : (signalUpdate s).exited = s.exited := rfl
@[simp] theorem signalUpdate_done : (signalUpdate s).done = s.done := rfl
@[simp] theorem signalUpdate_phase : (signalUpdate s).phase = s.phase := rfl
@[simp] theorem signalUpdate_txidx : (signalUpdate s).txidx = s.txidx := rfl
@[simp] theorem signalUpdate_perEn : (signalUpdate s).perEn = s.perEn := rfl
@[simp] theorem signalUpdate_perRate : (signalUpdate s).perRate = s.perRate := rfl
@[simp] theorem signalUpdate_perQ : (signalUpdate s).perQ = s.perQ := rfl
@[simp] theorem signalUpdate_wire : (signalUpdate s).wire = s.wire := rfl
@[simp] theorem signalUpdate_lock : (signalUpdate s).lock = s.lock := rfl
@[simp] theorem signalUpdate_dpoll : (signalUpdate s).dpoll = s.dpoll := rfl
@[simp] theorem signalUpdate_calls : (signalUpdate s).calls = s.calls := rfl
@[simp] theorem signalUpdate_status : (signalUpdate s).status = s.status := rfl
@[simp] theorem signalUpdate_cmds : (signalUpdate s).cmds = s.cmds := rfl
@[simp] theorem signalUpdate_responses : (signalUpdate s).responses = s.responses := rfl
@[simp] theorem signalUpdate_value : (signalUpdate s).value = s.value := rfl
@[simp] theorem signalUpdate_turns : (signalUpdate s).turns = s.turns := rfl
@[simp] theorem signalUpdate_draws : (signalUpdate s).draws = s.draws := rfl
@[simp] theorem signalUpdate_writeTakes : (signalUpdate s).writeTakes = s.writeTakes := rfl
@[simp] theorem signalUpdate_tick : (signalUpdate s).tick = s.tick := rfl

/-! consumeUpdate -/

@[simp] theorem consumeUpdate_params : (consumeUpdate s).params = s.params := rfl
@[simp] theorem consumeUpdate_life : (consumeUpdate s).life = s.life := rfl
@[simp] theorem consumeUpdate_pixcnt : (consumeUpdate s).pixcnt = s.pixcnt := rfl
@[simp] theorem consumeUpdate_fb : (consumeUpdate s).fb = s.fb := rfl
@[simp] theorem consumeUpdate_wb : (consumeUpdate s).wb = s.wb := rfl
@[simp] theorem consumeUpdate_sig : (consumeUpdate s).sig = false := rfl
@[simp] theorem consumeUpdate_term : (consumeUpdate s).term = s.term := rfl
@[simp] theorem consumeUpdate_exited : (consumeUpdate s).exited = s.exited := rfl
@[simp] theorem consumeUpdate_done : (consumeUpdate s).done = s.done := rfl
@[simp] theorem consumeUpdate_phase : (consumeUpdate s).phase = s.phase := rfl
@[simp] theorem consumeUpdate_txidx : (consumeUpdate s).txidx = s.txidx := rfl
@[simp] theorem consumeUpdate_perEn : (consumeUpdate s).perEn = s.perEn := rfl
@[simp] theorem consumeUpdate_perRate : (consumeUpdate s).perRate = s.perRate := rfl
@[simp] theorem consumeUpdate_perQ : (consumeUpdate s).perQ = s.perQ := rfl
@[simp] theorem consumeUpdate_wire : (consumeUpdate s).wire = s.wire := rfl
@[simp] theorem consumeUpdate_lock : (consumeUpdate s).lock = s.lock := rfl
@[simp] theorem consumeUpdate_dpoll : (consumeUpdate s).dpoll = s.dpoll := rfl
@[simp] theorem consumeUpdate_calls : (consumeUpdate s).calls = s.calls := rfl
@[simp] theorem consumeUpdate_status : (consumeUpdate s).status = s.status := rfl
@[simp] theorem consumeUpdate_cmds : (consumeUpdate s).cmds = s.cmds := rfl
@[simp] theorem consumeUpdate_responses : (consumeUpdate s).responses = s.responses := rfl
@[simp] theorem consumeUpdate_value : (consumeUpdate s).value = s.value := rfl
@[simp] theorem consumeUpdate_turns : (consumeUpdate s).turns = s.turns := rfl
@[simp] theorem consumeUpdate_draws : (consumeUpdate s).draws = s.draws := rfl
@[simp] theorem consumeUpdate_writeTakes : (consumeUpdate s).writeTakes = s.writeTakes := rfl
@[simp] theorem consumeUpdate_tick : (consumeUpdate s).tick = s.tick := rfl

/-! signalDone -/

@[simp] theorem signalDone_params : (signalDone s).params = s.params := rfl
@[simp] theorem signalDone_life : (signalDone s).life = s.life := rfl
@[simp] theorem signalDone_pixcnt : (signalDone s).pixcnt = s.pixcnt := rfl
@[simp] theorem signalDone_fb : (signalDone s).fb = s.fb := rfl
@[simp] theorem signalDone_wb : (signalDone s).wb = s.wb := rfl
@[simp] theorem signalDone_sig : (signalDone s).sig = s.sig := rfl
@[simp] theorem signalDone_term : (signalDone s).term = s.term := rfl
@[simp] theorem signalDone_exited : (signalDone s).exited = s.exited := rfl
@[simp] theorem signalDone_done : (signalDone s).done = true := rfl
@[simp] theorem signalDone_phase : (signalDone s).phase = s.phase := rfl
@[simp] theorem signalDone_txidx : (signalDone s).txidx = s.txidx := rfl
@[simp] theorem signalDone_perEn : (signalDone s).perEn = s.perEn := rfl
@[simp] theorem signalDone_perRate : (signalDone s).perRate = s.perRate := rfl
@[simp] theorem signalDone_perQ : (signalDone s).perQ = s.perQ := rfl
@[simp] theorem signalDone_wire : (signalDone s).wire = s.wire := rfl
@[simp] theorem signalDone_lock : (signalDone s).lock = s.lock := rfl
@[simp] theorem signalDone_dpoll : (signalDone s).dpoll = s.dpoll := rfl
@[simp] theorem signalDone_calls : (signalDone s).calls = s.calls := rfl
@[simp] theorem signalDone_status : (signalDone s).status = s.status := rfl
@[simp] theorem signalDone_cmds : (signalDone s).cmds = s.cmds := rfl
@[simp] theorem signalDone_responses : (signalDone s).responses = s.responses := rfl
@[simp] theorem signalDone_value : (signalDone s).value = s.value := rfl
@[simp] theorem signalDone_turns : (signalDone s).turns = s.turns := rfl
@[simp] theorem signalDone_draws : (signalDone s).draws = s.draws := rfl
@[simp] theorem signalDone_writeTakes : (signalDone s).writeTakes = s.writeTakes := rfl
@[simp] theorem signalDone_tick : (signalDone s).tick = s.tick := rfl

/-! consumeDone -/

@[simp] theorem consumeDone_params : (consumeDone s).params = s.params := rfl
@[simp] theorem consumeDone_life : (consumeDone s).life = s.life := rfl
@[simp] theorem consumeDone_pixcnt : (consumeDone s).pixcnt = s.pixcnt := rfl
@[simp] theorem consumeDone_fb : (consumeDone s).fb = s.fb := rfl
@[simp] theorem consumeDone_wb : (consumeDone s).wb = s.wb := rfl
@[simp] theorem consumeDone_sig : (consumeDone s).sig = s.sig := rfl
@[simp] theorem consumeDone_term : (consumeDone s).term = s.term := rfl
@[simp] theorem consumeDone_exited : (consumeDone s).exited = s.exited := rfl
@[simp] theorem consumeDone_done : (consumeDone s).done = false := rfl
@[simp] theorem consumeDone_phase : (consumeDone s).phase = s.phase := rfl
@[simp] theorem consumeDone_txidx : (consumeDone s).txidx = s.txidx := rfl
@[simp] theorem consumeDone_perEn : (consumeDone s).perEn = s.perEn := rfl
@[simp] theorem consumeDone_perRate : (consumeDone s).perRate = s.perRate := rfl
@[simp] theorem consumeDone_perQ : (consumeDone s).perQ = s.perQ := rfl
@[simp] theorem consumeDone_wire : (consumeDone s).wire = s.wire := rfl
@[simp] theorem consumeDone_lock : (consumeDone s).lock = s.lock := rfl
@[simp] theorem consumeDone_dpoll : (consumeDone s).dpoll = s.dpoll := rfl
@[simp] theorem consumeDone_calls : (consumeDone s).calls = s.calls := rfl
@[simp] theorem consumeDone_status : (consumeDone s).status = s.status := rfl
@[simp] theorem consumeDone_cmds : (consumeDone s).cmds = s.cmds := rfl
@[simp] theorem consumeDone_responses : (consumeDone s).responses = s.responses := rfl
@[simp] theorem consumeDone_value : (consumeDone s).value = s.value := rfl
@[simp] theorem consumeDone_turns : (consumeDone s).turns = s.turns := rfl
@[simp] theorem consumeDone_draws : (consumeDone s).draws = s.draws := rfl
@[simp] theorem consumeDone_writeTakes : (consumeDone s).writeTakes = s.writeTakes := rfl
@[simp] theorem consumeDone_tick : (consumeDone s).tick = s.tick := rfl

/-! enterLock -/

@[simp] theorem enterLock_params : (enterLock s).params = s.params := rfl
@[simp] theorem enterLock_life : (enterLock s).life = s.life := rfl
@[simp] theorem enterLock_pixcnt : (enterLock s).pixcnt = s.pixcnt := rfl
@[simp] theorem enterLock_fb : (enterLock s).fb = s.fb := rfl
@[simp] theorem enterLock_wb : (enterLock s).wb = s.wb := rfl
@[simp] theorem enterLock_sig : (enterLock s).sig = s.sig := rfl
@[simp] theorem enterLock_term : (enterLock s).term = s.term := rfl
@[simp] theorem enterLock_exited : (enterLock s).exited = s.exited := rfl
@[simp] theorem enterLock_done : (enterLock s).done = s.done := rfl
@[simp] theorem enterLock_phase : (enterLock s).phase = s.phase := rfl
@[simp] theorem enterLock_txidx : (enterLock s).txidx = s.txidx := rfl
@[simp] theorem enterLock_perEn : (enterLock s).perEn = s.perEn := rfl
@[simp] theorem enterLock_perRate : (enterLock s).perRate = s.perRate := rfl
@[simp] theorem enterLock_perQ : (enterLock s).perQ = s.perQ := rfl
@[simp] theorem enterLock_wire : (enterLock s).wire = s.wire := rfl
@[simp] theorem enterLock_lock : (enterLock s).lock = true := rfl
@[simp] theorem enterLock_dpoll : (enterLock s).dpoll = s.dpoll := rfl
@[simp] theorem enterLock_calls : (enterLock s).calls = s.calls := rfl
@[simp] theorem enterLock_status : (enterLock s).status = s.status := rfl
@[simp] theorem enterLock_cmds : (enterLock s).cmds = s.cmds := rfl
@[simp] theorem enterLock_responses : (enterLock s).responses = s.responses := rfl
@[simp] theorem enterLock_value : (enterLock s).value = s.value := rfl
@[simp] theorem enterLock_turns : (enterLock s).turns = s.turns := rfl
@[simp] theorem enterLock_draws : (enterLock s).draws = s.draws := rfl
@[simp] theorem enterLock_writeTakes : (enterLock s).writeTakes = s.writeTakes := rfl
@[simp] theorem enterLock_tick : (enterLock s).tick = s.tick := rfl

/-! exitLock -/

@[simp] theorem exitLock_params : (exitLock s).params = s.params := rfl
@[simp] theorem exitLock_life : (exitLock s).life = s.life := rfl
@[simp] theorem exitLock_pixcnt : (exitLock s).pixcnt = s.pixcnt := rfl
@[simp] theorem exitLock_fb : (exitLock s).fb = s.fb := rfl
@[simp] theorem exitLock_wb : (exitLock s).wb = s.wb := rfl
@[simp] theorem exitLock_sig : (exitLock s).sig = s.sig := rfl
@[simp] theorem exitLock_term : (exitLock s).term = s.term := rfl
@[simp] theorem exitLock_exited : (exitLock s).exited = s.exited := rfl
@[simp] theorem exitLock_done : (exitLock s).done = s.done := rfl
@[simp] theorem exitLock_phase : (exitLock s).phase = s.phase := rfl
@[simp] theorem exitLock_txidx : (exitLock s).txidx = s.txidx := rfl
@[simp] theorem exitLock_perEn : (exitLock s).perEn = s.perEn := rfl
@[simp] theorem exitLock_perRate : (exitLock s).perRate = s.perRate := rfl
@[simp] theorem exitLock_perQ : (exitLock s).perQ = s.perQ := rfl
@[simp] theorem exitLock_wire : (exitLock s).wire = s.wire := rfl
@[simp] theorem exitLock_lock : (exitLock s).lock = false := rfl
@[simp] theorem exitLock_dpoll : (exitLock s).dpoll = s.dpoll := rfl
@[simp] theorem exitLock_calls : (exitLock s).calls = s.calls := rfl
@[simp] theorem exitLock_status : (exitLock s).status = s.status := rfl
@[simp] theorem exitLock_cmds : (exitLock s).cmds = s.cmds := rfl
@[simp] theorem exitLock_responses : (exitLock s).responses = s.responses := rfl
@[simp] theorem exitLock_value : (exitLock s).value = s.value := rfl
@[simp] theorem exitLock_turns : (exitLock s).turns = s.turns := rfl
@[simp] theorem exitLock_draws : (exitLock s).draws = s.draws := rfl
@[simp] theorem exitLock_writeTakes : (exitLock s).writeTakes = s.writeTakes := rfl
@[simp] theorem exitLock_tick : (exitLock s).tick = s.tick := rfl

/-! raiseError -/

@[simp] theorem raiseError_params (e : Err) : (raiseError e s).params = s.params := rfl
@[simp] theorem raiseError_life (e : Err) : (raiseError e s).life = s.life := rfl
@[simp] theorem raiseError_pixcnt (e : Err) : (raiseError e s).pixcnt = s.pixcnt := rfl
@[simp] theorem raiseError_fb (e : Err) : (raiseError e s).fb = s.fb := rfl
@[simp] theorem raiseError_wb (e : Err) : (raiseError e s).wb = s.wb := rfl
@[simp] theorem raiseError_sig (e : Err) : (raiseError e s).sig = s.sig := rfl
@[simp] theorem raiseError_term (e : Err) : (raiseError e s).term = s.term := rfl
@[simp] theorem raiseError_exited (e : Err) : (raiseError e s).exited = s.exited := rfl
@[simp] theorem raiseError_done (e : Err) : (raiseError e s).done = s.done := rfl
@[simp] theorem raiseError_phase (e : Err) : (raiseError e s).phase = s.phase := rfl
@[simp] theorem raiseError_txidx (e : Err) : (raiseError e s).txidx = s.txidx := rfl
@[simp] theorem raiseError_perEn (e : Err) : (raiseError e s).perEn = s.perEn := rfl
@[simp] theorem raiseError_perRate (e : Err) : (raiseError e s).perRate = s.perRate := rfl
@[simp] theorem raiseError_perQ (e : Err) : (raiseError e s).perQ = s.perQ := rfl
@[simp] theorem raiseError_wire (e : Err) : (raiseError e s).wire = s.wire := rfl
@[simp] theorem raiseError_lock (e : Err) : (raiseError e s).lock = s.lock := rfl
@[simp] theorem raiseError_dpoll (e : Err) : (raiseError e s).dpoll = s.dpoll := rfl
@[simp] theorem raiseError_calls (e : Err) : (raiseError e s).calls = s.calls := rfl
@[simp] theorem raiseError_status (e : Err) : (raiseError e s).status = statusWith e s.status := rfl
@[simp] theorem raiseError_cmds (e : Err) : (raiseError e s).cmds = s.cmds := rfl
@[simp] theorem raiseError_responses (e : Err) : (raiseError e s).responses = s.responses := rfl
@[simp] theorem raiseError_value (e : Err) : (raiseError e s).value = s.value := rfl
@[simp] theorem raiseError_turns (e : Err) : (raiseError e s).turns = s.turns := rfl
@[simp] theorem raiseError_draws (e : Err) : (raiseError e s).draws = s.draws := rfl
@[simp] theorem raiseError_writeTakes (e : Err) : (raiseError e s).writeTakes = s.writeTakes := rfl
@[simp] theorem raiseError_tick (e : Err) : (raiseError e s).tick = s.tick := rfl

/-! respond -/

@[simp] theorem respond_params (w : Word) : (respond w s).params = s.params := rfl
@[simp] theorem respond_life (w : Word) : (respond w s).life = s.life := rfl
@[simp] theorem respond_pixcnt (w : Word) : (respond w s).pixcnt = s.pixcnt := rfl
@[simp] theorem respond_fb (w : Word) : (respond w s).fb = s.fb := rfl
@[simp] theorem respond_wb (w : Word) : (respond w s).wb = s.wb := rfl
@[simp] theorem respond_sig (w : Word) : (respond w s).sig = s.sig := rfl
@[simp] theorem respond_term (w : Word) : (respond w s).term = s.term := rfl
@[simp] theorem respond_exited (w : Word) : (respond w s).exited = s.exited := rfl
@[simp] theorem respond_done (w : Word) : (respond w s).done = s.done := rfl
@[simp] theorem respond_phase (w : Word) : (respond w s).phase = s.phase := rfl
@[simp] theorem respond_txidx (w : Word) : (respond w s).txidx = s.txidx := rfl
@[simp] theorem respond_perEn (w : Word) : (respond w s).perEn = s.perEn := rfl
@[simp] theorem respond_perRate (w : Word) : (respond w s).perRate = s.perRate := rfl
@[simp] theorem respond_perQ (w : Word) : (respond w s).perQ = s.perQ := rfl
@[simp] theorem respond_wire (w : Word) : (respond w s).wire = s.wire := rfl
@[simp] theorem respond_lock (w : Word) : (respond w s).lock = s.lock := rfl
@[simp] theorem respond_dpoll (w : Word) : (respond w s).dpoll = s.dpoll := rfl
@[simp] theorem respond_calls (w : Word) : (respond w s).calls = s.calls := rfl
@[simp] theorem respond_status (w : Word) : (respond w s).status = s.status := rfl
@[simp] theorem respond_cmds (w : Word) : (respond w s).cmds = s.cmds := rfl
@[simp] theorem respond_responses (w : Word) : (respond w s).responses = s.responses ++ [w] := rfl
@[simp] theorem respond_value (w : Word) : (respond w s).value = s.value := rfl
@[simp] theorem respond_turns (w : Word) : (respond w s).turns = s.turns := rfl
@[simp] theorem respond_draws (w : Word) : (respond w s).draws = s.draws := rfl
@[simp] theorem respond_writeTakes (w : Word) : (respond w s).writeTakes = s.writeTakes := rfl
@[simp] theorem respond_tick (w : Word) : (respond w s).tick = s.tick := rfl

/-! perConfigure -/

@[simp] theorem perConfigure_params (d : Word) : (perConfigure d s).params = s.params := rfl
@[simp] theorem perConfigure_life (d : Word) : (perConfigure d s).life = s.life := rfl
@[simp] theorem perConfigure_pixcnt (d : Word) : (perConfigure d s).pixcnt = s.pixcnt := rfl
@[simp] theorem perConfigure_fb (d : Word) : (perConfigure d s).fb = s.fb := rfl
@[simp] theorem perConfigure_wb (d : Word) : (perConfigure d s).wb = s.wb := rfl
@[simp] theorem perConfigure_sig (d : Word) : (perConfigure d s).sig = s.sig := rfl
@[simp] theorem perConfigure_term (d : Word) : (perConfigure d s).term = s.term := rfl
@[simp] theorem perConfigure_exited (d : Word) : (perConfigure d s).exited = s.exited := rfl
@[simp] theorem perConfigure_done (d : Word) : (perConfigure d s).done = s.done := rfl
@[simp] theorem perConfigure_phase (d : Word) : (perConfigure d s).phase = s.phase := rfl
@[simp] theorem perConfigure_txidx (d : Word) : (perConfigure d s).txidx = s.txidx := rfl
@[simp] theorem perConfigure_perEn (d : Word) : (perConfigure d s).perEn = s.perEn := rfl
@[simp] theorem perConfigure_perRate (d : Word) : (perConfigure d s).perRate = s.params.protocolBitRate := rfl
@[simp] theorem perConfigure_perQ (d : Word) : (perConfigure d s).perQ = s.perQ := rfl
@[simp] theorem perConfigure_wire (d : Word) : (perConfigure d s).wire = s.wire := rfl
@[simp] theorem perConfigure_lock (d : Word) : (perConfigure d s).lock = s.lock := rfl
@[simp] theorem perConfigure_dpoll (d : Word) : (perConfigure d s).dpoll = s.dpoll := rfl
@[simp] theorem perConfigure_calls (d : Word) : (perConfigure d s).calls = s.calls := rfl
@[simp] theorem perConfigure_status (d : Word) : (perConfigure d s).status = s.status := rfl
@[simp] theorem perConfigure_cmds (d : Word) : (perConfigure d s).cmds = s.cmds := rfl
@[simp] theorem perConfigure_responses (d : Word) : (perConfigure d s).responses = s.responses := rfl
@[simp] theorem perConfigure_value (d : Word) : (perConfigure d s).value = s.value := rfl
@[simp] theorem perConfigure_turns (d : Word) : (perConfigure d s).turns = s.turns := rfl
@[simp] theorem perConfigure_draws (d : Word) : (perConfigure d s).draws = s.draws := rfl
@[simp] theorem perConfigure_writeTakes (d : Word) : (perConfigure d s).writeTakes = s.writeTakes := rfl
@[simp] theorem perConfigure_tick (d : Word) : (perConfigure d s).tick = s.tick := rfl

/-! perEnable -/

@[simp] theorem perEnable_params : (perEnable s).params = s.params := rfl
@[simp] theorem perEnable_life : (perEnable s).life = s.life := rfl
@[simp] theorem perEnable_pixcnt : (perEnable s).pixcnt = s.pixcnt := rfl
@[simp] theorem perEnable_fb : (perEnable s).fb = s.fb := rfl
@[simp] theorem perEnable_wb : (perEnable s).wb = s.wb := rfl
@[simp] theorem perEnable_sig : (perEnable s).sig = s.sig := rfl
@[simp] theorem perEnable_term : (perEnable s).term = s.term := rfl
@[simp] theorem perEnable_exited : (perEnable s).exited = s.exited := rfl
@[simp] theorem perEnable_done : (perEnable s).done = s.done := rfl
@[simp] theorem perEnable_phase : (perEnable s).phase = s.phase := rfl
@[simp] theorem perEnable_txidx : (perEnable s).txidx = s.txidx := rfl
@[simp] theorem perEnable_perEn : (perEnable s).perEn = true := rfl
@[simp] theorem perEnable_perRate : (perEnable s).perRate = s.perRate := rfl
@[simp] theorem perEnable_perQ : (perEnable s).perQ = s.perQ := rfl
@[simp] theorem perEnable_wire : (perEnable s).wire = s.wire := rfl
@[simp] theorem perEnable_lock : (perEnable s).lock = s.lock := rfl
@[simp] theorem perEnable_dpoll : (perEnable s).dpoll = s.dpoll := rfl
@[simp] theorem perEnable_calls : (perEnable s).calls = s.calls := rfl
@[simp] theorem perEnable_status : (perEnable s).status = s.status := rfl
@[simp] theorem perEnable_cmds : (perEnable s).cmds = s.cmds := rfl
@[simp] theorem perEnable_responses : (perEnable s).responses = s.responses := rfl
@[simp] theorem perEnable_value : (perEnable s).value = s.value := rfl
@[simp] theorem perEnable_turns : (perEnable s).turns = s.turns := rfl
@[simp] theorem perEnable_draws : (perEnable s).draws = s.draws := rfl
@[simp] theorem perEnable_writeTakes : (perEnable s).writeTakes = s.writeTakes := rfl
@[simp] theorem perEnable_tick : (perEnable s).tick = s.tick := rfl

/-! perDisable -/

@[simp] theorem perDisable_params : (perDisable s).params = s.params := rfl
@[simp] theorem perDisable_life : (perDisable s).life = s.life := rfl
@[simp] theorem perDisable_pixcnt : (perDisable s).pixcnt = s.pixcnt := rfl
@[simp] theorem perDisable_fb : (perDisable s).fb = s.fb := rfl
@[simp] theorem perDisable_wb : (perDisable s).wb = s.wb := rfl
@[simp] theorem perDisable_sig : (perDisable s).sig = s.sig := rfl
@[simp] theorem perDisable_term : (perDisable s).term = s.term := rfl
@[simp] theorem perDisable_exited : (perDisable s).exited = s.exited := rfl
@[simp] theorem perDisable_done : (perDisable s).done = s.done := rfl
@[simp] theorem perDisable_phase : (perDisable s).phase = s.phase := rfl
@[simp] theorem perDisable_txidx : (perDisable s).txidx = s.txidx := rfl
@[simp] theorem perDisable_perEn : (perDisable s).perEn = false := rfl
@[simp] theorem perDisable_perRate : (perDisable s).perRate = s.perRate := rfl
@[simp] theorem perDisable_perQ : (perDisable s).perQ = s.perQ := rfl
@[simp] theorem perDisable_wire : (perDisable s).wire = s.wire := rfl
@[simp] theorem perDisable_lock : (perDisable s).lock = s.lock := rfl
@[simp] theorem perDisable_dpoll : (perDisable s).dpoll = s.dpoll := rfl
@[simp] theorem perDisable_calls : (perDisable s).calls = s.calls := rfl
@[simp] theorem perDisable_status : (perDisable s).status = s.status := rfl
@[simp] theorem perDisable_cmds : (perDisable s).cmds = s.cmds := rfl
@[simp] theorem perDisable_responses : (perDisable s).responses = s.responses := rfl
@[simp] theorem perDisable_value : (perDisable s).value = s.value := rfl
@[simp] theorem perDisable_turns : (perDisable s).turns = s.turns := rfl
@[simp] theorem perDisable_draws : (perDisable s).draws = s.draws := rfl
@[simp] theorem perDisable_writeTakes : (perDisable s).writeTakes = s.writeTakes := rfl
@[simp] theorem perDisable_tick : (perDisable s).tick = s.tick := rfl

/-! exitLoop -/

@[simp] theorem exitLoop_params : (exitLoop s).params = s.params := rfl
@[simp] theorem exitLoop_life : (exitLoop s).life = s.life := rfl
@[simp] theorem exitLoop_pixcnt : (exitLoop s).pixcnt = s.pixcnt := rfl
@[simp] theorem exitLoop_fb : (exitLoop s).fb = s.fb := rfl
@[simp] theorem exitLoop_wb : (exitLoop s).wb = s.wb := rfl
@[simp] theorem exitLoop_sig : (exitLoop s).sig = s.sig := rfl
@[simp] theorem exitLoop_term : (exitLoop s).term = s.term := rfl
@[simp] theorem exitLoop_exited : (exitLoop s).exited = true := rfl
@[simp] theorem exitLoop_done : (exitLoop s).done = s.done := rfl
@[simp] theorem exitLoop_phase : (exitLoop s).phase = .tExited := rfl
@[simp] theorem exitLoop_txidx : (exitLoop s).txidx = s.txidx := rfl
@[simp] theorem exitLoop_perEn : (exitLoop s).perEn = s.perEn := rfl
@[simp] theorem exitLoop_perRate : (exitLoop s).perRate = s.perRate := rfl
@[simp] theorem exitLoop_perQ : (exitLoop s).perQ = s.perQ := rfl
@[simp] theorem exitLoop_wire : (exitLoop s).wire = s.wire := rfl
@[simp] theorem exitLoop_lock : (exitLoop s).lock = s.lock := rfl
@[simp] theorem exitLoop_dpoll : (exitLoop s).dpoll = s.dpoll := rfl
@[simp] theorem exitLoop_calls : (exitLoop s).calls = s.calls := rfl
@[simp] theorem exitLoop_status : (exitLoop s).status = s.status := rfl
@[simp] theorem exitLoop_cmds : (exitLoop s).cmds = s.cmds := rfl
@[simp] theorem exitLoop_responses : (exitLoop s).responses = s.responses := rfl
@[simp] theorem exitLoop_value : (exitLoop s).value = s.value := rfl
@[simp] theorem exitLoop_turns : (exitLoop s).turns = s.turns := rfl
@[simp] theorem exitLoop_draws : (exitLoop s).draws = s.draws := rfl
@[simp] theorem exitLoop_writeTakes : (exitLoop s).writeTakes = s.writeTakes := rfl
@[simp] theorem exitLoop_tick : (exitLoop s).tick = s.tick := rfl

/-! overtakeCalls -/

@[simp] theorem overtakeCalls_params : (overtakeCalls s).params = s.params := rfl
@[simp] theorem overtakeCalls_life : (overtakeCalls s).life = s.life := rfl
@[simp] theorem overtakeCalls_pixcnt : (overtakeCalls s).pixcnt = s.pixcnt := rfl
@[simp] theorem overtakeCalls_fb : (overtakeCalls s).fb = s.fb := rfl
@[simp] theorem overtakeCalls_wb : (overtakeCalls s).wb = s.wb := rfl
@[simp] theorem overtakeCalls_sig : (overtakeCalls s).sig = s.sig := rfl
@[simp] theorem overtakeCalls_term : (overtakeCalls s).term = s.term := rfl
@[simp] theorem overtakeCalls_exited : (overtakeCalls s).exited = s.exited := rfl
@[simp] theorem overtakeCalls_done : (overtakeCalls s).done = s.done := rfl
@[simp] theorem overtakeCalls_phase : (overtakeCalls s).phase = s.phase := rfl
@[simp] theorem overtakeCalls_txidx : (overtakeCalls s).txidx = s.txidx := rfl
@[simp] theorem overtakeCalls_perEn : (overtakeCalls s).perEn = s.perEn := rfl
@[simp] theorem overtakeCalls_perRate : (overtakeCalls s).perRate = s.perRate := rfl
@[simp] theorem overtakeCalls_perQ : (overtakeCalls s).perQ = s.perQ := rfl
@[simp] theorem overtakeCalls_wire : (overtakeCalls s).wire = s.wire := rfl
@[simp] theorem overtakeCalls_lock : (overtakeCalls s).lock = s.lock := rfl
@[simp] theorem overtakeCalls_dpoll : (overtakeCalls s).dpoll = s.dpoll := rfl
@[simp] theorem overtakeCalls_calls : (overtakeCalls s).calls = s.calls.map (fun c => { c with late := true }) := rfl
@[simp] theorem overtakeCalls_status : (overtakeCalls s).status = s.status := rfl
@[simp] theorem overtakeCalls_cmds : (overtakeCalls s).cmds = s.cmds := rfl
@[simp] theorem overtakeCalls_responses : (overtakeCalls s).responses = s.responses := rfl
@[simp] theorem overtakeCalls_value : (overtakeCalls s).value = s.value := rfl
@[simp] theorem overtakeCalls_turns : (overtakeCalls s).turns = s.turns := rfl
@[simp] theorem overtakeCalls_draws : (overtakeCalls s).draws = s.draws := rfl
@[simp] theorem overtakeCalls_writeTakes : (overtakeCalls s).writeTakes = s.writeTakes := rfl
@[simp] theorem overtakeCalls_tick : (overtakeCalls s).tick = s.tick := rfl

/-! timeOutTeardown -/

@[simp] theorem timeOutTeardown_params : (timeOutTeardown s).params = s.params := rfl
@[simp] theorem timeOutTeardown_life : (timeOutTeardown s).life = .leaked := rfl
@[simp] theorem timeOutTeardown_pixcnt : (timeOutTeardown s).pixcnt = s.pixcnt := rfl
@[simp] theorem timeOutTeardown_fb : (timeOutTeardown s).fb = s.fb := rfl
@[simp] theorem timeOutTeardown_wb : (timeOutTeardown s).wb = s.wb := rfl
@[simp] theorem timeOutTeardown_sig : (timeOutTeardown s).sig = s.sig := rfl
@[simp] theorem timeOutTeardown_term : (timeOutTeardown s).term = s.term := rfl
@[simp] theorem timeOutTeardown_exited : (timeOutTeardown s).exited = s.exited := rfl
@[simp] theorem timeOutTeardown_done : (timeOutTeardown s).done = s.done := rfl
@[simp] theorem timeOutTeardown_phase : (timeOutTeardown s).phase = s.phase := rfl
@[simp] theorem timeOutTeardown_txidx : (timeOutTeardown s).txidx = s.txidx := rfl
@[simp] theorem timeOutTeardown_perEn : (timeOutTeardown s).perEn = s.perEn := rfl
@[simp] theorem timeOutTeardown_perRate : (timeOutTeardown s).perRate = s.perRate := rfl
@[simp] theorem timeOutTeardown_perQ : (timeOutTeardown s).perQ = s.perQ := rfl
@[simp] theorem timeOutTeardown_wire : (timeOutTeardown s).wire = s.wire := rfl
@[simp] theorem timeOutTeardown_lock : (timeOutTeardown s).lock = s.lock := rfl
@[simp] theorem timeOutTeardown_dpoll : (timeOutTeardown s).dpoll = s.dpoll := rfl
@[simp] theorem timeOutTeardown_calls : (timeOutTeardown s).calls = s.calls := rfl
@[simp] theorem timeOutTeardown_status : (timeOutTeardown s).status = statusWith .terminationTimeout s.status := rfl
@[simp] theorem timeOutTeardown_cmds : (timeOutTeardown s).cmds = s.cmds := rfl
@[simp] theorem timeOutTeardown_responses : (timeOutTeardown s).responses = s.responses := rfl
@[simp] theorem timeOutTeardown_value : (timeOutTeardown s).value = s.value := rfl
@[simp] theorem timeOutTeardown_turns : (timeOutTeardown s).turns = s.turns := rfl
@[simp] theorem timeOutTeardown_draws : (timeOutTeardown s).draws = s.draws := rfl
@[simp] theorem timeOutTeardown_writeTakes : (timeOutTeardown s).writeTakes = s.writeTakes := rfl
@[simp] theorem timeOutTeardown_tick : (timeOutTeardown s).tick = s.tick := rfl

/-! A draw moves only the environment's answers and the counter. -/

@[simp] theorem drawBit_params : (drawBit s).2.params = s.params := by unfold drawBit; split <;> rfl
@[simp] theorem drawBit_life : (drawBit s).2.life = s.life := by unfold drawBit; split <;> rfl
@[simp] theorem drawBit_pixcnt : (drawBit s).2.pixcnt = s.pixcnt := by unfold drawBit; split <;> rfl
@[simp] theorem drawBit_fb : (drawBit s).2.fb = s.fb := by unfold drawBit; split <;> rfl
@[simp] theorem drawBit_wb : (drawBit s).2.wb = s.wb := by unfold drawBit; split <;> rfl
@[simp] theorem drawBit_sig : (drawBit s).2.sig = s.sig := by unfold drawBit; split <;> rfl
@[simp] theorem drawBit_term : (drawBit s).2.term = s.term := by unfold drawBit; split <;> rfl
@[simp] theorem drawBit_exited : (drawBit s).2.exited = s.exited := by unfold drawBit; split <;> rfl
@[simp] theorem drawBit_done : (drawBit s).2.done = s.done := by unfold drawBit; split <;> rfl
@[simp] theorem drawBit_phase : (drawBit s).2.phase = s.phase := by unfold drawBit; split <;> rfl
@[simp] theorem drawBit_txidx : (drawBit s).2.txidx = s.txidx := by unfold drawBit; split <;> rfl
@[simp] theorem drawBit_perEn : (drawBit s).2.perEn = s.perEn := by unfold drawBit; split <;> rfl
@[simp] theorem drawBit_perRate : (drawBit s).2.perRate = s.perRate := by unfold drawBit; split <;> rfl
@[simp] theorem drawBit_perQ : (drawBit s).2.perQ = s.perQ := by unfold drawBit; split <;> rfl
@[simp] theorem drawBit_wire : (drawBit s).2.wire = s.wire := by unfold drawBit; split <;> rfl
@[simp] theorem drawBit_lock : (drawBit s).2.lock = s.lock := by unfold drawBit; split <;> rfl
@[simp] theorem drawBit_dpoll : (drawBit s).2.dpoll = s.dpoll := by unfold drawBit; split <;> rfl
@[simp] theorem drawBit_calls : (drawBit s).2.calls = s.calls := by unfold drawBit; split <;> rfl
@[simp] theorem drawBit_status : (drawBit s).2.status = s.status := by unfold drawBit; split <;> rfl
@[simp] theorem drawBit_cmds : (drawBit s).2.cmds = s.cmds := by unfold drawBit; split <;> rfl
@[simp] theorem drawBit_responses : (drawBit s).2.responses = s.responses := by unfold drawBit; split <;> rfl
@[simp] theorem drawBit_value : (drawBit s).2.value = s.value := by unfold drawBit; split <;> rfl
@[simp] theorem drawBit_turns : (drawBit s).2.turns = s.turns := by unfold drawBit; split <;> rfl
@[simp] theorem drawBit_writeTakes : (drawBit s).2.writeTakes = s.writeTakes := by unfold drawBit; split <;> rfl

@[simp] theorem drawInitSignal_params : (drawInitSignal s).2.params = s.params := by
  unfold drawInitSignal; split <;> simp
@[simp] theorem drawInitSignal_life : (drawInitSignal s).2.life = s.life := by
  unfold drawInitSignal; split <;> simp
@[simp] theorem drawInitSignal_pixcnt : (drawInitSignal s).2.pixcnt = s.pixcnt := by
  unfold drawInitSignal; split <;> simp
@[simp] theorem drawInitSignal_fb : (drawInitSignal s).2.fb = s.fb := by
  unfold drawInitSignal; split <;> simp
@[simp] theorem drawInitSignal_wb : (drawInitSignal s).2.wb = s.wb := by
  unfold drawInitSignal; split <;> simp
@[simp] theorem drawInitSignal_sig : (drawInitSignal s).2.sig = s.sig := by
  unfold drawInitSignal; split <;> simp
@[simp] theorem drawInitSignal_term : (drawInitSignal s).2.term = s.term := by
  unfold drawInitSignal; split <;> simp
@[simp] theorem drawInitSignal_exited : (drawInitSignal s).2.exited = s.exited := by
  unfold drawInitSignal; split <;> simp
@[simp] theorem drawInitSignal_done : (drawInitSignal s).2.done = s.done := by
  unfold drawInitSignal; split <;> simp
@[simp] theorem drawInitSignal_phase : (drawInitSignal s).2.phase = s.phase := by
  unfold drawInitSignal; split <;> simp
@[simp] theorem drawInitSignal_txidx : (drawInitSignal s).2.txidx = s.txidx := by
  unfold drawInitSignal; split <;> simp
@[simp] theorem drawInitSignal_perEn : (drawInitSignal s).2.perEn = s.perEn := by
  unfold drawInitSignal; split <;> simp
@[simp] theorem drawInitSignal_perRate : (drawInitSignal s).2.perRate = s.perRate := by
  unfold drawInitSignal; split <;> simp
@[simp] theorem drawInitSignal_perQ : (drawInitSignal s).2.perQ = s.perQ := by
  unfold drawInitSignal; split <;> simp
@[simp] theorem drawInitSignal_wire : (drawInitSignal s).2.wire = s.wire := by
  unfold drawInitSignal; split <;> simp
@[simp] theorem drawInitSignal_lock : (drawInitSignal s).2.lock = s.lock := by
  unfold drawInitSignal; split <;> simp
@[simp] theorem drawInitSignal_dpoll : (drawInitSignal s).2.dpoll = s.dpoll := by
  unfold drawInitSignal; split <;> simp
@[simp] theorem drawInitSignal_calls : (drawInitSignal s).2.calls = s.calls := by
  unfold drawInitSignal; split <;> simp
@[simp] theorem drawInitSignal_status : (drawInitSignal s).2.status = s.status := by
  unfold drawInitSignal; split <;> simp
@[simp] theorem drawInitSignal_cmds : (drawInitSignal s).2.cmds = s.cmds := by
  unfold drawInitSignal; split <;> simp
@[simp] theorem drawInitSignal_responses : (drawInitSignal s).2.responses = s.responses := by
  unfold drawInitSignal; split <;> simp
@[simp] theorem drawInitSignal_value : (drawInitSignal s).2.value = s.value := by
  unfold drawInitSignal; split <;> simp
@[simp] theorem drawInitSignal_turns : (drawInitSignal s).2.turns = s.turns := by
  unfold drawInitSignal; split <;> simp
@[simp] theorem drawInitSignal_writeTakes : (drawInitSignal s).2.writeTakes = s.writeTakes := by
  unfold drawInitSignal; split <;> simp

end

end Sys2Proof.Machine
end

