-- ==== Sys2Proof/Laws/Ops.lean ====
section
/-! SUPPORT. The shared operations: everything a draw, a Write, an emission, a batch and the creation of a context can do,
said once. -/

namespace Sys2Proof.Machine

/-- A state is another one but for the environment's answers to draws. -/
theorem drawBit_state (s : State) : (drawBit s).2 = { s with draws := (drawBit s).2.draws, tick := (drawBit s).2.tick } := by
  unfold drawBit; split <;> rfl

theorem drawBit_of_draws {s : State} {b : Bool} {bs : List Bool} (h : s.draws = b :: bs) :
    drawBit s = (b, { s with draws := bs }) := by simp [drawBit, h]

theorem drawInitSignal_state (s : State) :
    (drawInitSignal s).2 = { s with draws := (drawInitSignal s).2.draws, tick := (drawInitSignal s).2.tick } := by
  unfold drawInitSignal
  split
  · rfl
  · rfl
  · exact drawBit_state s

/-- Everything Write can do. -/
theorem perWrite_cases (bytes : List Byte) (s : State) :
    (∃ ns, perWrite bytes s = .ok { s with perQ := s.perQ ++ bytes, writeTakes := ns }) ∨
      (perWrite bytes s = .error .shortWrite ∧ ∃ n ns, s.writeTakes = n :: ns ∧ n < bytes.length) := by
  unfold perWrite
  split
  · next h => exact .inl ⟨s.writeTakes, rfl⟩
  · next n ns h =>
    split
    · next hn => exact .inr ⟨rfl, n, ns, h, hn⟩
    · exact .inl ⟨ns, rfl⟩

/-- An emission from a queue that holds a whole unit: a pair, odd byte first, or one byte. -/
theorem emitFrom_cases (p : Params) (q : List Byte) (h : emitUnit p ≤ q.length) :
    (p.laneSwap = true ∧ ∃ a b rest, q = a :: b :: rest ∧ emitFrom p q = some (msbFirst b ++ msbFirst a, rest)) ∨
      (p.laneSwap = false ∧ ∃ a rest, q = a :: rest ∧ emitFrom p q = some (msbFirst a, rest)) := by
  cases hl : p.laneSwap
  · rw [emitUnit_off hl] at h
    match q, h with
    | a :: rest, _ => exact .inr ⟨rfl, a, rest, rfl, by simp [emitFrom, hl]⟩
  · rw [emitUnit_on hl] at h
    match q, h with
    | a :: b :: rest, _ => exact .inl ⟨rfl, a, b, rest, rfl, by simp [emitFrom, hl]⟩

/-- Everything SP_COMMIT can do when it answers a next state. -/
theorem commitBatch_next {us : List PixelUpdate} {s t : State} (h : commitBatch us s = .next t) :
    s.life = .running ∧
      ((s.lock = true ∧ t = s) ∨
        (s.lock = false ∧ ∃ ok u, applyRecords us true (enterLock s) = .ok (ok, u) ∧
          t = { exitLock u with calls := u.calls ++ [⟨ok, false⟩] })) := by
  unfold commitBatch at h
  split at h
  · cases h
  · next hl =>
    refine ⟨by simpa using hl, ?_⟩
    split at h
    · next hk => exact .inl ⟨hk, by cases h; rfl⟩
    · next hk =>
      split at h
      · next ok u hu => exact .inr ⟨by simpa using hk, ok, u, hu, by cases h; rfl⟩
      · cases h

/-- Everything INIT can do when it answers a next state. -/
theorem execInit_next {n d : Word} {s t : State} (h : execInit n d s = .next t) :
    (s.life = .absent ∨ s.life = .destroyed) ∧ evenFrame s.params n ∧
      (((drawBit s).1 = false ∧ t = respond 1 (raiseError .allocationFailure (drawBit s).2)) ∨
        ((drawBit s).1 = true ∧ (drawBit (drawBit s).2).1 = false ∧
          t = respond 2 (raiseError .configurationFailure (drawBit (drawBit s).2).2)) ∨
        ((drawBit s).1 = true ∧ (drawBit (drawBit s).2).1 = true ∧
          ∃ fb, offFrame s.params n = .ok fb ∧ t = respond 0 (newContext n d fb (drawBit (drawBit s).2).2))) := by
  unfold execInit at h
  split at h
  · next hl =>
    split at h
    · next he =>
      refine ⟨hl, he, ?_⟩
      simp only [createContext] at h
      split at h
      · next ha =>
        split at h
        · cases h
        · next fb hfb =>
          split at h
          · next hc => exact .inr (.inr ⟨ha, hc, fb, hfb, by cases h; rfl⟩)
          · next hc => exact .inr (.inl ⟨ha, by simpa using hc, by cases h; rfl⟩)
      · next ha => exact .inl ⟨by simpa using ha, by cases h; rfl⟩
    · cases h
  · cases h

/-- The buffers at power-on are canonical. -/
theorem State.reset_buffers_wf : Memory.wf State.reset.fb ∧ Memory.wf State.reset.wb := ⟨Memory.wf_nil, Memory.wf_nil⟩

end Sys2Proof.Machine
end

