-- ==== Sys2Proof/Laws/Step.lean ====
section
/-! SUPPORT. Inversion of a step: what it runs, in which state, and everything each operation can do when it answers a
next state. Later proofs cite these and unfold nothing. -/

namespace Sys2Proof.Machine

/-! ### The turn -/

theorem nextTurn_state (s : State) :
    (nextTurn s).2 = { s with turns := (nextTurn s).2.turns, tick := (nextTurn s).2.tick } := by
  unfold nextTurn; split <;> rfl

theorem nextTurn_of_turns {s : State} {t : Turn} {ts : List Turn} (h : s.turns = t :: ts) :
    nextTurn s = (t, { s with turns := ts }) := by simp [nextTurn, h]

/-- Everything taking a command can do. -/
theorem takeCommand_ok {s t : State} {i : Option Instr} (h : takeCommand s = .ok (i, t)) :
    (i = none ∧ t = s) ∨
      (s.lock = false ∧ ∃ j rest, i = some j ∧ decodeCommand s.cmds = .ok (j, rest) ∧ t = { s with cmds := rest }) := by
  unfold takeCommand at h
  split at h
  · cases h; exact .inl ⟨rfl, rfl⟩
  · next hl =>
    split at h
    · next j rest hd =>
      cases h
      refine .inr ⟨?_, j, rest, rfl, hd, rfl⟩
      by_contra hc
      exact hl (.inl (by simpa using hc))
    · cases h

/-- The state an operation runs in differs from the step's only in the schedule, the counter and the port. -/
theorem fetch_state {s t : State} {i : Option Instr} (h : fetch s = .ok (i, t)) :
    t = { s with turns := t.turns, tick := t.tick, cmds := t.cmds } := by
  have hn := nextTurn_state s
  unfold fetch operationOf at h
  split at h
  · rcases takeCommand_ok h with ⟨-, rfl⟩ | ⟨-, j, rest, -, -, rfl⟩
    · rw [hn]
    · rw [hn]
  all_goals
    simp only [Except.ok.injEq, Prod.mk.injEq] at h
    obtain ⟨-, rfl⟩ := h
    rw [hn]

/-- Everything a step can do: pass, or run one operation. -/
theorem step_next {s t : State} (h : step s = .next t) :
    fetch s = .ok (none, t) ∨ ∃ i u, fetch s = .ok (some i, u) ∧ exec i u = .next t := by
  unfold step at h
  split at h
  · cases h
  · next u hf => cases h; exact .inl hf
  · next i u hf => exact .inr ⟨i, u, hf, h⟩

/-- What a step preserves: a relation that bookkeeping of the schedule and the port has, and every operation's step. -/
theorem step_induction {P : State → State → Prop} {s t : State} (h : step s = .next t)
    (hpass : ∀ turns tick cmds, P s { s with turns := turns, tick := tick, cmds := cmds })
    (hexec : ∀ i turns tick cmds u,
      exec i { s with turns := turns, tick := tick, cmds := cmds } = .next u → P s u) : P s t := by
  rcases step_next h with hf | ⟨i, u, hf, he⟩
  · rw [fetch_state hf]; exact hpass _ _ _
  · rw [fetch_state hf] at he; exact hexec i _ _ _ t he

/-! ### SETPIXEL -/

/-- Everything SP_SIGNAL can do when it answers a next state. -/
theorem execSpSignal_next {k : Nat} {s t : State} (h : execSpSignal k s = .next t) :
    (s.calls[k]? = none ∧ t = s) ∨
      (s.life = .running ∧ ∃ ok, s.calls[k]? = some ⟨ok, false⟩ ∧
        t = respond (okWord ok) { signalUpdate s with calls := s.calls.eraseIdx k }) := by
  unfold execSpSignal at h
  split at h
  · next hk => cases h; exact .inl ⟨hk, rfl⟩
  · next c hk =>
    split at h
    · cases h
    · next hl =>
      cases h
      obtain ⟨ok, late⟩ := c
      simp only [ne_eq, not_or, Decidable.not_not, Bool.not_eq_true] at hl
      exact .inr ⟨hl.1, ok, by rw [hk, hl.2], rfl⟩

/-! ### The engine -/

theorem execTxWake_next {s t : State} (h : execTxWake s = .next t) :
    t = s ∨ (s.wakeEnabled ∧ t = { consumeUpdate s with phase := .tCheck }) := by
  unfold execTxWake at h
  split at h
  · next he => cases h; exact .inr ⟨he, rfl⟩
  · cases h; exact .inl rfl

theorem execTxCheck_next {s t : State} (h : execTxCheck s = .next t) :
    t = s ∨ (s.engineAt .tCheck ∧ s.term = true ∧ t = exitLoop s) ∨
      (s.engineAt .tCheck ∧ s.term = false ∧ t = { s with phase := .tSnap }) := by
  unfold execTxCheck at h
  split at h
  · next he =>
    split at h
    · next ht => cases h; exact .inr (.inl ⟨he, ht, rfl⟩)
    · next ht => cases h; exact .inr (.inr ⟨he, by simpa using ht, rfl⟩)
  · cases h; exact .inl rfl

theorem execTxExit_next {s t : State} (h : execTxExit s = .next t) :
    t = s ∨ (s.exitEnabled ∧ t = exitLoop s) := by
  unfold execTxExit at h
  split at h
  · next he => cases h; exact .inr ⟨he, rfl⟩
  · cases h; exact .inl rfl

theorem execTxSnapshot_next {s t : State} (h : execTxSnapshot s = .next t) :
    t = s ∨ (s.snapshotEnabled ∧ t = { s with wb := Memory.below s.fb s.frameLen, phase := .tEnable }) := by
  unfold execTxSnapshot at h
  split at h
  · next he => cases h; exact .inr ⟨he, rfl⟩
  · cases h; exact .inl rfl

theorem execTxEnable_next {s t : State} (h : execTxEnable s = .next t) :
    t = s ∨ (s.engineAt .tEnable ∧ t = { perEnable (consumeDone s) with txidx := 0, phase := .tStream }) := by
  unfold execTxEnable at h
  split at h
  · next he => cases h; exact .inr ⟨he, rfl⟩
  · cases h; exact .inl rfl

theorem execTxStream_next {s t : State} (h : execTxStream s = .next t) :
    t = s ∨ (s.engineAt .tStream ∧ ∃ ns,
      t = { s with perQ := s.perQ ++ (List.range s.frameLen).map (fun a => Memory.read s.wb a), writeTakes := ns,
                   txidx := s.frameLen, phase := phaseAfterStream s.params }) := by
  unfold execTxStream at h
  split at h
  · next he =>
    rw [memRead_all] at h
    rcases perWrite_cases ((List.range s.frameLen).map fun a => Memory.read s.wb a) s with ⟨ns, hw⟩ | ⟨hw, -⟩
    · simp only [hw, Host.Outcome.next.injEq] at h
      exact .inr ⟨he, ns, h.symm⟩
    · simp [hw] at h
  · cases h; exact .inl rfl

theorem execTxDrain_next {s t : State} (h : execTxDrain s = .next t) :
    t = s ∨ (s.drainEnabled ∧ t = { consumeDone s with phase := .tDisable }) := by
  unfold execTxDrain at h
  split at h
  · next he => cases h; exact .inr ⟨he, rfl⟩
  · cases h; exact .inl rfl

theorem execTxResend_next {s t : State} (h : execTxResend s = .next t) :
    t = s ∨ (s.resendEnabled ∧ s.sig = false ∧ s.term = false ∧ t = { s with txidx := 0, phase := .tStream }) ∨
      (s.resendEnabled ∧ ¬ (s.sig = false ∧ s.term = false) ∧ t = { s with phase := .tDisable }) := by
  unfold execTxResend at h
  split at h
  · next he =>
    split at h
    · next hs => cases h; exact .inr (.inl ⟨he, hs.1, hs.2, rfl⟩)
    · next hs => cases h; exact .inr (.inr ⟨he, hs, rfl⟩)
  · cases h; exact .inl rfl

theorem execTxDisable_next {s t : State} (h : execTxDisable s = .next t) :
    t = s ∨ (s.engineAt .tDisable ∧ t = { perDisable s with phase := .tIdle }) := by
  unfold execTxDisable at h
  split at h
  · next he => cases h; exact .inr ⟨he, rfl⟩
  · cases h; exact .inl rfl

/-! ### The peripheral -/

theorem execPerEmit_next {s t : State} (h : execPerEmit s = .next t) :
    t = s ∨ (s.emitEnabled ∧ ∃ bits rest, emitFrom s.params s.perQ = some (bits, rest) ∧
      t = { s with perQ := rest, wire := s.wire ++ bits }) := by
  unfold execPerEmit at h
  split at h
  · next he =>
    split at h
    · next bits rest hb => cases h; exact .inr ⟨he, bits, rest, hb, rfl⟩
    · cases h; exact .inl rfl
  · cases h; exact .inl rfl

theorem execPerComplete_next {s t : State} (h : execPerComplete s = .next t) :
    t = s ∨ (s.completeEnabled ∧ t = signalDone s) := by
  unfold execPerComplete at h
  split at h
  · next he => cases h; exact .inr ⟨he, rfl⟩
  · cases h; exact .inl rfl

/-! ### The lifecycle -/

theorem requestTermination_next {s t : State} (h : requestTermination s = .next t) :
    s.life = .running ∧ t = { overtakeCalls (signalUpdate s) with life := .teardown, term := true, dpoll := 0 } := by
  unfold requestTermination at h
  split at h
  · cases h
  · next hl => cases h; exact ⟨by simpa using hl, rfl⟩

theorem execGetRefreshRate_next {s t : State} (h : execGetRefreshRate s = .next t) :
    s.life = .running ∧ s.frameLen ≠ 0 ∧
      t = respond (BitVec.ofNat 32 (refreshRate s.params s.frameLen)) s := by
  unfold execGetRefreshRate at h
  split at h
  · cases h
  · next hl =>
    split at h
    · cases h
    · next hz => cases h; exact ⟨by simpa using hl, hz, rfl⟩

theorem releaseContext_state (s : State) :
    releaseContext s =
      { s with life := .destroyed, fb := [], wb := [], perQ := [], sig := (releaseContext s).sig,
               done := (releaseContext s).done, draws := (releaseContext s).draws, tick := (releaseContext s).tick } := by
  simp [releaseContext]

theorem execDiPoll_next {s t : State} (h : execDiPoll s = .next t) :
    t = s ∨ (s.releaseEnabled ∧ t = releaseContext s) ∨
      (s.life = .teardown ∧ s.exited = false ∧ s.dpoll + 1 < s.params.deinitRetryBound ∧
        t = { s with dpoll := s.dpoll + 1 }) ∨
      (s.timeoutEnabled ∧ t = timeOutTeardown s) := by
  unfold execDiPoll at h
  split at h
  · next hl =>
    split at h
    · next he => cases h; exact .inr (.inl ⟨⟨hl, he⟩, rfl⟩)
    · next he =>
      have he : s.exited = false := by simpa using he
      split at h
      · next hb => cases h; exact .inr (.inr (.inl ⟨hl, he, hb, rfl⟩))
      · next hb => cases h; exact .inr (.inr (.inr ⟨⟨hl, he, by omega⟩, rfl⟩))
  · cases h; exact .inl rfl

theorem execDiRelease_next {s t : State} (h : execDiRelease s = .next t) :
    t = s ∨ (s.releaseEnabled ∧ t = releaseContext s) := by
  unfold execDiRelease at h
  split at h
  · next he => cases h; exact .inr ⟨he, rfl⟩
  · cases h; exact .inl rfl

theorem execDiTimeout_next {s t : State} (h : execDiTimeout s = .next t) :
    t = s ∨ (s.timeoutEnabled ∧ t = timeOutTeardown s) := by
  unfold execDiTimeout at h
  split at h
  · next he => cases h; exact .inr ⟨he, rfl⟩
  · cases h; exact .inl rfl

/-! ### Runs -/

theorem run_succ_of_next (M : Host.Core) {s t : M.State} (h : M.step s = .next t) (k : Nat) :
    M.run (k + 1) s = M.run k t := by rw [Host.Core.run, h]

/-- A run whose first step is known. -/
theorem core_run_of_next {s t : State} (h : step s = .next t) (k : Nat) :
    Host.Core.run Sys2Proof.core (k + 1) s = Host.Core.run Sys2Proof.core k t := run_succ_of_next Sys2Proof.core h k

theorem core_run_zero (s : State) : Host.Core.run Sys2Proof.core 0 s = .next s := rfl

end Sys2Proof.Machine
end

