-- ==== Sys2Proof/Laws/Effect.lean ====
section
/-! SUPPORT. Everything one instruction, and one step, can do, said once: a proof about every step is a case analysis
over `Effect`. -/

namespace Sys2Proof.Machine

/-- The effects of the instructions, each with the condition it has. -/
inductive Effect (s : State) : State → Prop
  /-- the step is not enabled, or there is none (log 3) -/
  | unchanged : Effect s s
  /-- ENCODE and the colour operations (R107, R120) -/
  | answer (v : FuncValue) : Effect s { s with value := v }
  /-- INIT, allocation failed (R171) -/
  | initAllocation (n : Word) : (s.life = .absent ∨ s.life = .destroyed) → evenFrame s.params n →
      Effect s (respond 1 (raiseError .allocationFailure (drawBit s).2))
  /-- INIT, configuration failed (R172) -/
  | initConfiguration (n : Word) : (s.life = .absent ∨ s.life = .destroyed) → evenFrame s.params n →
      Effect s (respond 2 (raiseError .configurationFailure (drawBit (drawBit s).2).2))
  /-- INIT (R173) -/
  | initCreates (n d : Word) (fb : Memory) : (s.life = .absent ∨ s.life = .destroyed) → evenFrame s.params n →
      offFrame s.params n = .ok fb → Effect s (respond 0 (newContext n d fb (drawBit (drawBit s).2).2))
  /-- DEINIT, DI_REQUEST (R177) -/
  | request : s.life = .running → Effect s { overtakeCalls (signalUpdate s) with life := .teardown, term := true, dpoll := 0 }
  /-- SETPIXEL, SP_COMMIT (R131) -/
  | commit (us : List PixelUpdate) (ok : Bool) (u : State) : s.life = .running → s.lock = false →
      applyRecords us true (enterLock s) = .ok (ok, u) → Effect s { exitLock u with calls := u.calls ++ [⟨ok, false⟩] }
  /-- SP_SIGNAL (R135) -/
  | signal (k : Nat) (ok : Bool) : s.life = .running → s.calls[k]? = some ⟨ok, false⟩ →
      Effect s (respond (okWord ok) { signalUpdate s with calls := s.calls.eraseIdx k })
  /-- GETREFRESHRATE (R176) -/
  | rate (w : Word) : s.life = .running → Effect s (respond w s)
  /-- DI_RELEASE (R179) -/
  | release : s.releaseEnabled → Effect s (releaseContext s)
  /-- DI_POLL (R178) -/
  | poll : s.life = .teardown → s.exited = false → s.dpoll + 1 < s.params.deinitRetryBound →
      Effect s { s with dpoll := s.dpoll + 1 }
  /-- DI_TIMEOUT (R180) -/
  | timeout : s.timeoutEnabled → Effect s (timeOutTeardown s)
  /-- TX_WAKE (R146) -/
  | wake : s.wakeEnabled → Effect s { consumeUpdate s with phase := .tCheck }
  /-- TX_EXIT (R147) -/
  | exit : s.exitEnabled → Effect s (exitLoop s)
  /-- TX_CHECK without termination (R147) -/
  | check : s.engineAt .tCheck → s.term = false → Effect s { s with phase := .tSnap }
  /-- TX_SNAPSHOT (R148) -/
  | snapshot : s.snapshotEnabled → Effect s { s with wb := Memory.below s.fb s.frameLen, phase := .tEnable }
  /-- TX_ENABLE (R149) -/
  | enable : s.engineAt .tEnable → Effect s { perEnable (consumeDone s) with txidx := 0, phase := .tStream }
  /-- TX_STREAM (R150) -/
  | stream (ns : List Nat) : s.engineAt .tStream →
      Effect s { s with perQ := s.perQ ++ (List.range s.frameLen).map (fun a => Memory.read s.wb a), writeTakes := ns,
                        txidx := s.frameLen, phase := phaseAfterStream s.params }
  /-- TX_DRAIN (R151) -/
  | drain : s.drainEnabled → Effect s { consumeDone s with phase := .tDisable }
  /-- TX_RESEND with nothing pending (R154) -/
  | resend : s.resendEnabled → s.sig = false → s.term = false → Effect s { s with txidx := 0, phase := .tStream }
  /-- TX_RESEND with a signal pending (R154) -/
  | resendEnd : s.resendEnabled → ¬ (s.sig = false ∧ s.term = false) → Effect s { s with phase := .tDisable }
  /-- TX_DISABLE (R152) -/
  | disable : s.engineAt .tDisable → Effect s { perDisable s with phase := .tIdle }
  /-- PER_EMIT (R155) -/
  | emit (bits : List Bool) (rest : List Byte) : s.emitEnabled → emitFrom s.params s.perQ = some (bits, rest) →
      Effect s { s with perQ := rest, wire := s.wire ++ bits }
  /-- PER_COMPLETE (R156) -/
  | complete : s.completeEnabled → Effect s (signalDone s)

/-- What exec can do. -/
theorem exec_effect {i : Instr} {s t : State} (h : exec i s = .next t) : Effect s t := by
  have hcommit : ∀ us, commitBatch us s = .next t → Effect s t := by
    intro us h
    obtain ⟨a, ⟨_, rfl⟩ | ⟨b, ok, u, c, rfl⟩⟩ := commitBatch_next h
    · exact .unchanged
    · exact .commit us ok u a b c
  have hreq : requestTermination s = .next t → Effect s t := by
    intro h
    obtain ⟨a, rfl⟩ := requestTermination_next h
    exact .request a
  cases i with
  | init n d =>
    obtain ⟨a, b, ⟨_, rfl⟩ | ⟨_, _, rfl⟩ | ⟨_, _, fb, c, rfl⟩⟩ := execInit_next h
    · exact .initAllocation n a b
    · exact .initConfiguration n a b
    · exact .initCreates n d fb a b c
  | deinit => exact hreq h
  | diRequest => exact hreq h
  | setPixel us => exact hcommit us h
  | spCommit us => exact hcommit us h
  | getRefreshRate =>
    obtain ⟨a, _, rfl⟩ := execGetRefreshRate_next h
    exact .rate _ a
  | encode v => cases h; exact .answer _
  | rgb => cases h; exact .answer _
  | red => cases h; exact .answer _
  | green => cases h; exact .answer _
  | blue => cases h; exact .answer _
  | spSignal k =>
    obtain ⟨_, rfl⟩ | ⟨a, ok, b, rfl⟩ := execSpSignal_next h
    · exact .unchanged
    · exact .signal k ok a b
  | diPoll =>
    obtain rfl | ⟨a, rfl⟩ | ⟨a, b, c, rfl⟩ | ⟨a, rfl⟩ := execDiPoll_next h
    · exact .unchanged
    · exact .release a
    · exact .poll a b c
    · exact .timeout a
  | diRelease =>
    obtain rfl | ⟨a, rfl⟩ := execDiRelease_next h
    · exact .unchanged
    · exact .release a
  | diTimeout =>
    obtain rfl | ⟨a, rfl⟩ := execDiTimeout_next h
    · exact .unchanged
    · exact .timeout a
  | txWake =>
    obtain rfl | ⟨a, rfl⟩ := execTxWake_next h
    · exact .unchanged
    · exact .wake a
  | txCheck =>
    obtain rfl | ⟨a, b, rfl⟩ | ⟨a, b, rfl⟩ := execTxCheck_next h
    · exact .unchanged
    · exact .exit ⟨a, b⟩
    · exact .check a b
  | txExit =>
    obtain rfl | ⟨a, rfl⟩ := execTxExit_next h
    · exact .unchanged
    · exact .exit a
  | txSnapshot =>
    obtain rfl | ⟨a, rfl⟩ := execTxSnapshot_next h
    · exact .unchanged
    · exact .snapshot a
  | txEnable =>
    obtain rfl | ⟨a, rfl⟩ := execTxEnable_next h
    · exact .unchanged
    · exact .enable a
  | txStream =>
    obtain rfl | ⟨a, ns, rfl⟩ := execTxStream_next h
    · exact .unchanged
    · exact .stream ns a
  | txDrain =>
    obtain rfl | ⟨a, rfl⟩ := execTxDrain_next h
    · exact .unchanged
    · exact .drain a
  | txResend =>
    obtain rfl | ⟨a, b, c, rfl⟩ | ⟨a, b, rfl⟩ := execTxResend_next h
    · exact .unchanged
    · exact .resend a b c
    · exact .resendEnd a b
  | txDisable =>
    obtain rfl | ⟨a, rfl⟩ := execTxDisable_next h
    · exact .unchanged
    · exact .disable a
  | tExited => cases h; exact .unchanged
  | perEmit =>
    obtain rfl | ⟨a, bits, rest, b, rfl⟩ := execPerEmit_next h
    · exact .unchanged
    · exact .emit bits rest a b
  | perComplete =>
    obtain rfl | ⟨a, rfl⟩ := execPerComplete_next h
    · exact .unchanged
    · exact .complete a

/-- What one step can do: the schedule and the command port move, then at most one effect happens. -/
theorem step_effect {s t : State} (h : step s = .next t) :
    ∃ turns tick cmds, Effect { s with turns := turns, tick := tick, cmds := cmds } t := by
  rcases step_next h with hf | ⟨i, u, hf, he⟩
  · exact ⟨t.turns, t.tick, t.cmds, by rw [← fetch_state hf]; exact .unchanged⟩
  · exact ⟨u.turns, u.tick, u.cmds, by rw [← fetch_state hf]; exact exec_effect he⟩

/-- A commit, field by field. -/
theorem commit_state {us : List PixelUpdate} {s u : State} {ok : Bool}
    (h : applyRecords us true (enterLock s) = .ok (ok, u)) (hl : s.lock = false) :
    { exitLock u with calls := u.calls ++ [PendingCall.mk ok false] } =
      { s with fb := u.fb, status := if batchOk s us then s.status else s.status ||| 0b0100,
               calls := s.calls ++ [⟨ok, false⟩] } := by
  have := (applyRecords_ok h).1
  generalize u.fb = fb at *
  subst this
  cases s
  simp at hl
  subst hl
  rfl

/-- A fresh context, field by field. -/
theorem newContext_state (n d : Word) (fb : Memory) (s : State) :
    ∃ wb sig tick draws, respond 0 (newContext n d fb (drawBit (drawBit s).2).2) =
      { s with life := .running, pixcnt := n, fb := fb, wb := wb, sig := sig, term := false, exited := false,
               done := false, phase := .tIdle, txidx := 0, perEn := false, perRate := s.params.protocolBitRate,
               perQ := [], lock := false, dpoll := 0, responses := s.responses ++ [0], draws := draws, tick := tick } ∧
      Memory.wf wb ∧ ∀ c ∈ wb, c.1 < frameLength s.params n := by
  have a := drawBit_state s
  have b := drawBit_state (drawBit s).2
  have c := drawInitSignal_state (drawBit (drawBit s).2).2
  let t := newContext n d fb (drawBit (drawBit s).2).2
  refine ⟨t.wb, t.sig, t.tick, t.draws, ?_, Memory.wf_ofBytes _ _, ?_⟩
  · simp [t, respond, newContext, perConfigure, perDisable]
  · intro c hc
    have := Memory.mem_ofBytes hc
    simpa using this

/-- The frame length depends on the parameters and PIXCNT alone. -/
theorem State.frameLen_congr {s t : State} (hp : t.params = s.params) (hn : t.pixcnt = s.pixcnt) :
    t.frameLen = s.frameLen := by rw [State.frameLen, State.frameLen, hp, hn]

/-! ### Bits on their way to the wire (R67, R155, R157) -/

@[simp] theorem queueBits_nil (p : Params) : queueBits p [] = [] := by cases h : p.laneSwap <;> simp [queueBits, h]

theorem queueBits_off {p : Params} (h : p.laneSwap = false) (q : List Byte) : queueBits p q = q.flatMap msbFirst := by
  unfold queueBits
  simp [h]

theorem queueBits_pair {p : Params} (h : p.laneSwap = true) (a b : Byte) (rest : List Byte) :
    queueBits p (a :: b :: rest) = msbFirst b ++ msbFirst a ++ queueBits p rest := by
  rw [queueBits]
  simp only [h, if_true]

/-- What PER_EMIT emits is the head of what the queue still puts on the wire. -/
theorem queueBits_emitFrom {p : Params} {q rest : List Byte} {bits : List Bool} (h : emitUnit p ≤ q.length)
    (he : emitFrom p q = some (bits, rest)) : queueBits p q = bits ++ queueBits p rest := by
  rcases emitFrom_cases p q h with ⟨hl, x, y, r, rfl, e⟩ | ⟨hl, x, r, rfl, e⟩
  · simp only [e, Option.some.injEq, Prod.mk.injEq] at he
    rw [queueBits_pair hl, he.1, he.2]
  · simp only [e, Option.some.injEq, Prod.mk.injEq] at he
    simp [queueBits_off hl, ← he.1, ← he.2]

/-- A frame is one of more snapshots too. -/
theorem WireInv.mono {before after : List Bool → Prop} {s : State} (h : WireInv before s)
    (hsub : ∀ f, before f → after f) : WireInv after s := by
  obtain ⟨hc, hs, hl, frames, part, hw, hf, hrest⟩ := h
  exact ⟨hc, fun a b => hsub _ (hs a b), hl, frames, part, hw, fun f m => ⟨hsub f (hf f m).1, (hf f m).2⟩, hrest⟩

/-- A frame of a WB that was a snapshot of FB is FB's frame, inside a frame of even length (R68, R148). -/
theorem bufferBits_congr {p : Params} {len : Nat} {m m' : Memory} (he : p.laneSwap = true → len % 2 = 0)
    (h : ∀ a < len, Memory.read m a = Memory.read m' a) : bufferBits p len m = bufferBits p len m' := by
  unfold bufferBits
  exact List.flatMap_congr fun o ho => congrArg msbFirst (h _ (phys_lt he (by simpa using ho)))

end Sys2Proof.Machine
end

