-- ==== Sys2Proof/Laws/Fair.lean ====
section
/-! SUPPORT. What a fair run's proof cites (R161): the turn of an agent with an enabled step takes that step; a step moves
a live context only so far; a quantity that changes has a first change; and weak fairness in those terms. -/

namespace Sys2Proof.Machine

/-! ### A turn with an enabled step takes it -/

/-- The step that each phase names (R29). -/
theorem step_engine {s : State} (ht : (nextTurn s).1 = .engine) :
    step s = exec (match s.phase with
      | .tIdle => .txWake
      | .tCheck => .txCheck
      | .tSnap => .txSnapshot
      | .tEnable => .txEnable
      | .tStream => .txStream
      | .tDrain => .txDrain
      | .tResend => .txResend
      | .tDisable => .txDisable
      | .tExited => .tExited) (nextTurn s).2 := by
  have hp : (nextTurn s).2.phase = s.phase := by rw [nextTurn_state]
  simp only [step, fetch, ht, operationOf, engineStep, hp]
  cases s.phase <;> rfl

theorem step_peripheral {s : State} (ht : (nextTurn s).1 = .peripheral) :
    step s = exec (peripheralStep (nextTurn s).2) (nextTurn s).2 := by
  simp only [step, fetch, ht, operationOf]

/-- TX_STREAM, enabled, leaves T_STREAM when it answers a next state. -/
theorem execTxStream_leaves {s t : State} (he : s.engineAt .tStream) (h : execTxStream s = .next t) :
    t.phase = phaseAfterStream s.params := by
  rw [execTxStream, if_pos he, memRead_all] at h
  rcases perWrite_cases ((List.range s.frameLen).map fun a => Memory.read s.wb a) s with ⟨ns, hw⟩ | ⟨hw, -⟩
  · simp only [hw, Host.Outcome.next.injEq] at h
    rw [← h]
  · simp [hw] at h

/-- Every engine step that is taken moves PHASE. -/
theorem engine_turn_moves_phase {s t : State} (h : step s = .next t) (ht : (nextTurn s).1 = .engine)
    (he : s.engineEnabled) : t.phase ≠ s.phase := by
  rw [step_engine ht, nextTurn_state] at h
  generalize (nextTurn s).2.turns = a at h
  generalize (nextTurn s).2.tick = b at h
  have e : ({ s with turns := a, tick := b } : State).engineEnabled := he
  generalize hu : ({ s with turns := a, tick := b } : State) = u at h e
  rw [show s.phase = u.phase by rw [← hu]] at h ⊢
  rcases e with e | e | e | e | e | e | e | e
  · rw [e.1.2] at h ⊢; simp only [exec, execTxWake, if_pos e] at h; cases h; simp
  · rw [e.2] at h ⊢; simp only [exec, execTxCheck, if_pos e] at h; split at h <;> (cases h; simp [exitLoop])
  · rw [e.1.2] at h ⊢; simp only [exec, execTxSnapshot, if_pos e] at h; cases h; simp
  · rw [e.2] at h ⊢; simp only [exec, execTxEnable, if_pos e] at h; cases h; simp
  · rw [e.2] at h ⊢
    rw [execTxStream_leaves e h, phaseAfterStream]
    split <;> simp
  · rw [e.1.2] at h ⊢; simp only [exec, execTxDrain, if_pos e] at h; cases h; simp
  · rw [e.1.2] at h ⊢; simp only [exec, execTxResend, if_pos e] at h; split at h <;> (cases h; simp)
  · rw [e.2] at h ⊢; simp only [exec, execTxDisable, if_pos e] at h; cases h; simp

/-- An emit step that is taken shortens PER_Q. -/
theorem emitFrom_shorter {p : Params} {q rest : List Byte} {bits : List Bool} (h : emitUnit p ≤ q.length)
    (he : emitFrom p q = some (bits, rest)) : rest.length < q.length := by
  rcases emitFrom_cases p q h with ⟨-, x, y, r, rfl, e⟩ | ⟨-, x, r, rfl, e⟩ <;>
    (rw [e] at he; cases he; simp)

theorem peripheral_turn_emits {s t : State} (h : step s = .next t) (ht : (nextTurn s).1 = .peripheral)
    (he : s.emitEnabled) : t.perQ ≠ s.perQ := by
  rw [step_peripheral ht, nextTurn_state] at h
  generalize (nextTurn s).2.turns = a at h
  generalize (nextTurn s).2.tick = b at h
  have e : ({ s with turns := a, tick := b } : State).emitEnabled := he
  simp only [peripheralStep, if_pos e, exec, execPerEmit] at h
  split at h
  · next bits rest hb =>
    cases h
    exact fun hq => absurd (congrArg List.length hq) (emitFrom_shorter e.2.2 hb).ne
  · next hn => rcases emitFrom_cases _ _ e.2.2 with ⟨-, x, y, r, -, hb⟩ | ⟨-, x, r, -, hb⟩ <;> rw [hn] at hb <;> cases hb

theorem peripheral_turn_reports {s t : State} (h : step s = .next t) (ht : (nextTurn s).1 = .peripheral)
    (hn : ¬ s.emitEnabled) (hc : s.completeEnabled) : t.done = true := by
  rw [step_peripheral ht, nextTurn_state] at h
  generalize (nextTurn s).2.turns = a at h
  generalize (nextTurn s).2.tick = b at h
  have e : ¬ ({ s with turns := a, tick := b } : State).emitEnabled := hn
  have c : ({ s with turns := a, tick := b } : State).completeEnabled := hc
  simp only [peripheralStep, if_neg e, exec, execPerComplete, if_pos c] at h
  cases h
  rfl

/-! ### What a step does to a context in which the engine goes on -/

/-- One step of a context that exists and whose engine has not exited: what it keeps, and what it changes where. -/
structure LiveStep (s t : State) : Prop where
  live : t.live
  params : t.params = s.params
  pixcnt : t.pixcnt = s.pixcnt
  /-- within a phase WB stays, SIG and DONE are not taken back -/
  within : t.phase = s.phase → (s.sig = true → t.sig = true) ∧ t.wb = s.wb ∧ (s.done = true → t.done = true)
  /-- only T_IDLE consumes SIG -/
  signal : s.phase ≠ .tIdle → s.sig = true → t.sig = true
  /-- PER_Q and WIRE stay, or one unit goes from one to the other, or TX_STREAM fills PER_Q -/
  queue : (t.perQ = s.perQ ∧ t.wire = s.wire) ∨
    (∃ bits rest, emitUnit s.params ≤ s.perQ.length ∧ emitFrom s.params s.perQ = some (bits, rest) ∧ t.perQ = rest ∧
      t.wire = s.wire ++ bits) ∨
    (s.phase = .tStream ∧ t.phase ≠ .tStream ∧ t.wire = s.wire ∧
      t.perQ = s.perQ ++ (List.range s.frameLen).map (fun a => Memory.read s.wb a))
  leavesSnap : s.phase = .tSnap → t.phase ≠ .tSnap →
    t.wb = Memory.below s.fb s.frameLen ∧ t.perQ = s.perQ ∧ t.wire = s.wire
  leavesEnable : s.phase = .tEnable → t.phase ≠ .tEnable → t.wb = s.wb ∧ t.perQ = s.perQ ∧ t.wire = s.wire
  leavesStream : s.phase = .tStream → t.phase ≠ .tStream →
    t.perQ = s.perQ ++ (List.range s.frameLen).map (fun a => Memory.read s.wb a) ∧ t.wire = s.wire
  running : t.term = false → s.life = .running → t.life = .running

/-- A step that leaves PHASE, WB, PER_Q and WIRE alone and takes back neither SIG nor DONE. -/
theorem LiveStep.ofQuiet {s t : State} (hl : t.live) (hp : t.params = s.params) (hn : t.pixcnt = s.pixcnt)
    (hph : t.phase = s.phase) (hs : s.sig = true → t.sig = true) (hw : t.wb = s.wb) (hd : s.done = true → t.done = true)
    (hq : t.perQ = s.perQ) (hwi : t.wire = s.wire) (hr : t.term = false → s.life = .running → t.life = .running) :
    LiveStep s t :=
  ⟨hl, hp, hn, fun _ => ⟨hs, hw, hd⟩, fun _ => hs, .inl ⟨hq, hwi⟩, fun a b => absurd (hph.trans a) b,
    fun a b => absurd (hph.trans a) b, fun a b => absurd (hph.trans a) b, hr⟩

/-- A step from a phase other than T_SNAP, T_ENABLE and T_STREAM to another one, which leaves PER_Q and WIRE alone. -/
theorem LiveStep.ofMove {s t : State} (hl : t.live) (hp : t.params = s.params) (hn : t.pixcnt = s.pixcnt)
    (hph : t.phase ≠ s.phase) (h1 : s.phase ≠ .tSnap) (h2 : s.phase ≠ .tEnable) (h3 : s.phase ≠ .tStream)
    (hs : s.phase ≠ .tIdle → s.sig = true → t.sig = true) (hq : t.perQ = s.perQ) (hwi : t.wire = s.wire)
    (hr : t.life = s.life) : LiveStep s t :=
  ⟨hl, hp, hn, fun h => absurd h hph, hs, .inl ⟨hq, hwi⟩, fun a => absurd a h1, fun a => absurd a h2,
    fun a => absurd a h3, fun _ h => hr.trans h⟩

/-- Every step of such a context is one. -/
theorem live_step {s t : State} (hi : EngineInv s) (hl : s.live) (hx : s.phase ≠ .tExited) (h : step s = .next t) :
    LiveStep s t := by
  obtain ⟨turns, tick, cmds, hE⟩ := step_effect h
  have notExited : ¬ s.exited = true := fun h => hx ((hi.exitedIff hl).1 h)
  have notInit : ¬ (s.life = .absent ∨ s.life = .destroyed) := by
    rintro (a | a) <;> simp [State.live, a, Life.live] at hl
  cases hE
  case initAllocation a _ => exact absurd a notInit
  case initConfiguration a _ => exact absurd a notInit
  case initCreates a _ _ => exact absurd a notInit
  case release a => exact absurd a.2 notExited
  case request =>
    exact .ofQuiet rfl rfl rfl rfl (fun _ => rfl) rfl id rfl rfl (fun h => by cases h)
  case timeout a =>
    exact .ofQuiet rfl rfl rfl rfl id rfl id rfl rfl (fun _ h => by cases (show s.life = _ from a.1).symm.trans h)
  case commit us ok u a b c =>
    rw [commit_state c b]
    exact .ofQuiet hl rfl rfl rfl id rfl id rfl rfl (fun _ => id)
  case signal => exact .ofQuiet hl rfl rfl rfl (fun _ => rfl) rfl id rfl rfl (fun _ => id)
  case complete => exact .ofQuiet hl rfl rfl rfl id rfl (fun _ => rfl) rfl rfl (fun _ => id)
  case emit bits rest a b =>
    exact ⟨hl, rfl, rfl, fun _ => ⟨id, rfl, id⟩, fun _ => id, .inr (.inl ⟨bits, rest, a.2.2, b, rfl, rfl⟩),
      fun a b => absurd a b, fun a b => absurd a b, fun a b => absurd a b, fun _ => id⟩
  case snapshot a =>
    have hp : s.phase = .tSnap := a.1.2
    exact ⟨hl, rfl, rfl, fun h => (by simp [hp] at h), fun _ => id, .inl ⟨rfl, rfl⟩, fun _ _ => ⟨rfl, rfl, rfl⟩,
      fun h => (by simp [hp] at h), fun h => (by simp [hp] at h), fun _ => id⟩
  case enable a =>
    have hp : s.phase = .tEnable := a.2
    exact ⟨hl, rfl, rfl, fun h => (by simp [hp] at h), fun _ => id, .inl ⟨rfl, rfl⟩, fun h => (by simp [hp] at h),
      fun _ _ => ⟨rfl, rfl, rfl⟩, fun h => (by simp [hp] at h), fun _ => id⟩
  case stream ns a =>
    have hp : s.phase = .tStream := a.2
    exact ⟨hl, rfl, rfl, fun _ => ⟨id, rfl, id⟩, fun _ => id,
      .inr (.inr ⟨hp, by dsimp only [phaseAfterStream]; split <;> simp, rfl, rfl⟩), fun h => (by simp [hp] at h),
      fun h => (by simp [hp] at h), fun _ _ => ⟨rfl, rfl⟩, fun _ => id⟩
  case wake a =>
    have hp : s.phase = .tIdle := a.1.2
    exact .ofMove hl rfl rfl (by simp [hp]) (by simp [hp]) (by simp [hp]) (by simp [hp]) (fun h => absurd hp h) rfl rfl rfl
  case exit a =>
    have hp : s.phase = .tCheck := a.1.2
    exact .ofMove hl rfl rfl (by simp [hp, exitLoop]) (by simp [hp]) (by simp [hp]) (by simp [hp]) (fun _ => id) rfl rfl rfl
  case check a _ =>
    have hp : s.phase = .tCheck := a.2
    exact .ofMove hl rfl rfl (by simp [hp]) (by simp [hp]) (by simp [hp]) (by simp [hp]) (fun _ => id) rfl rfl rfl
  case drain a =>
    have hp : s.phase = .tDrain := a.1.2
    exact .ofMove hl rfl rfl (by simp [hp]) (by simp [hp]) (by simp [hp]) (by simp [hp]) (fun _ => id) rfl rfl rfl
  case resend a _ _ =>
    have hp : s.phase = .tResend := a.1.2
    exact .ofMove hl rfl rfl (by simp [hp]) (by simp [hp]) (by simp [hp]) (by simp [hp]) (fun _ => id) rfl rfl rfl
  case resendEnd a _ =>
    have hp : s.phase = .tResend := a.1.2
    exact .ofMove hl rfl rfl (by simp [hp]) (by simp [hp]) (by simp [hp]) (by simp [hp]) (fun _ => id) rfl rfl rfl
  case disable a =>
    have hp : s.phase = .tDisable := a.2
    exact .ofMove hl rfl rfl (by simp [hp]) (by simp [hp]) (by simp [hp]) (by simp [hp]) (fun _ => id) rfl rfl rfl
  all_goals exact .ofQuiet hl rfl rfl rfl id rfl id rfl rfl (fun _ => id)

/-! ### Fair runs -/

/-- A quantity that does not stay for ever has a first change. -/
theorem first_change {α : Type} (f : Nat → α) (n : Nat) (h : ¬ ∀ m, n ≤ m → f m = f n) :
    ∃ m, n ≤ m ∧ (∀ k, n ≤ k → k ≤ m → f k = f n) ∧ f (m + 1) ≠ f m := by
  classical
  have hex : ∃ m, n ≤ m ∧ f m ≠ f n := by
    by_contra hc
    exact h fun m hm => by_contra fun hf => hc ⟨m, hm, hf⟩
  obtain ⟨hle, hne⟩ := Nat.find_spec hex
  have hlt : n < Nat.find hex := lt_of_le_of_ne hle fun e => hne (congrArg f e.symm)
  have hmin : ∀ k, n ≤ k → k < Nat.find hex → f k = f n := fun k h1 h2 =>
    by_contra fun h3 => Nat.find_min hex h2 ⟨h1, h3⟩
  refine ⟨Nat.find hex - 1, by omega, fun k h1 h2 => hmin k h1 (by omega), ?_⟩
  rw [show Nat.find hex - 1 + 1 = Nat.find hex by omega, hmin (Nat.find hex - 1) (by omega) (by omega)]
  exact hne

/-- An engine step that stays enabled is taken in the end: PHASE moves (R161). -/
theorem WeaklyFair.phase_moves {run : Nat → State} (hr : IsRun run) (hf : WeaklyFair run) {n : Nat}
    (h : ∀ m, n ≤ m → (run m).engineEnabled) : ∃ m, n ≤ m ∧ (run (m + 1)).phase ≠ (run m).phase := by
  obtain ⟨m, hm, ht⟩ := hf.engine n h
  exact ⟨m, hm, engine_turn_moves_phase (hr m) ht (h m hm)⟩

/-- An emit step that stays enabled is taken in the end: PER_Q moves (R161, R198). -/
theorem WeaklyFair.queue_moves {run : Nat → State} (hr : IsRun run) (hf : WeaklyFair run) {n : Nat}
    (h : ∀ m, n ≤ m → (run m).emitEnabled) : ∃ m, n ≤ m ∧ (run (m + 1)).perQ ≠ (run m).perQ := by
  obtain ⟨m, hm, ht⟩ := hf.peripheral n fun m hm => .inl (h m hm)
  exact ⟨m, hm, peripheral_turn_emits (hr m) ht (h m hm)⟩

end Sys2Proof.Machine
end

