-- ==== Sys2Proof/Laws/PerInstr.lean ====
section
/-! SUPPORT. The family HeaderLength (R104): the words an instruction is encoded to on the command port are as many as
their header says. One lemma for each row of the table. -/

namespace Sys2Proof

theorem headerOp_headerWord (op : BitVec 2) (n : Nat) : headerOp (headerWord op n) = op := by
  ext i hi
  simp only [headerOp, headerWord, BitVec.getElem_extractLsb', BitVec.getLsbD_append]
  rw [if_neg (by omega)]
  simp [BitVec.getLsbD_eq_getElem hi]

theorem headerN_headerWord (op : BitVec 2) {n : Nat} (h : n < 2 ^ 30) : headerN (headerWord op n) = n := by
  have : (headerWord op n).extractLsb' 0 30 = BitVec.ofNat 30 n := by
    ext i hi
    simp only [headerWord, BitVec.getElem_extractLsb', BitVec.getLsbD_append]
    rw [if_pos (by omega)]
    simp [BitVec.getLsbD_eq_getElem hi]
  rw [headerN, this, BitVec.toNat_ofNat, Nat.mod_eq_of_lt h]

theorem wordsOfRecords_length (us : List PixelUpdate) : (us.flatMap wordsOfRecord).length = 2 * us.length := by
  induction us with
  | nil => rfl
  | cons u us ih => simp only [List.flatMap_cons, List.length_append, ih, List.length_cons, wordsOfRecord]; simp; omega

/-- The length of an encoding on the command port is its header's. -/
def Laws.HeaderLength.Statement (i : Instr) : Prop :=
  i.wf = true → ∀ h ws, encode i = .command (h :: ws) → (h :: ws).length = commandLength h

theorem Laws.HeaderLength.init (n d : Word) : Laws.HeaderLength.Statement (.init n d) := by
  intro _ h ws e
  simp only [encode, Encoding.command.injEq, List.cons.injEq] at e
  obtain ⟨rfl, rfl⟩ := e
  rfl

theorem Laws.HeaderLength.deinit : Laws.HeaderLength.Statement .deinit := by
  intro _ h ws e
  simp only [encode, Encoding.command.injEq, List.cons.injEq] at e
  obtain ⟨rfl, rfl⟩ := e
  decide

theorem Laws.HeaderLength.setPixel (us : List PixelUpdate) : Laws.HeaderLength.Statement (.setPixel us) := by
  intro hwf h ws e
  simp only [encode, Encoding.command.injEq, List.cons.injEq] at e
  obtain ⟨rfl, rfl⟩ := e
  have hn : us.length < 2 ^ 30 := by simpa [Instr.wf, recordsFit] using hwf
  have hl : commandLength (headerWord 0b10 us.length) = 1 + 2 * us.length := by
    rw [commandLength, headerOp_headerWord, headerN_headerWord _ hn]
    rfl
  rw [List.length_cons, wordsOfRecords_length, hl]
  omega

theorem Laws.HeaderLength.getRefreshRate : Laws.HeaderLength.Statement .getRefreshRate := by
  intro _ h ws e
  simp only [encode, Encoding.command.injEq, List.cons.injEq] at e
  obtain ⟨rfl, rfl⟩ := e
  decide

theorem Laws.HeaderLength.encode (v : Byte) : Laws.HeaderLength.Statement (.encode v) := fun _ _ _ e => by cases e
theorem Laws.HeaderLength.spCommit (us : List PixelUpdate) : Laws.HeaderLength.Statement (.spCommit us) :=
  fun _ _ _ e => by cases e
theorem Laws.HeaderLength.spSignal (k : Nat) : Laws.HeaderLength.Statement (.spSignal k) := fun _ _ _ e => by cases e
theorem Laws.HeaderLength.diRequest : Laws.HeaderLength.Statement .diRequest := fun _ _ _ e => by cases e
theorem Laws.HeaderLength.diPoll : Laws.HeaderLength.Statement .diPoll := fun _ _ _ e => by cases e
theorem Laws.HeaderLength.diRelease : Laws.HeaderLength.Statement .diRelease := fun _ _ _ e => by cases e
theorem Laws.HeaderLength.diTimeout : Laws.HeaderLength.Statement .diTimeout := fun _ _ _ e => by cases e
theorem Laws.HeaderLength.txWake : Laws.HeaderLength.Statement .txWake := fun _ _ _ e => by cases e
theorem Laws.HeaderLength.txCheck : Laws.HeaderLength.Statement .txCheck := fun _ _ _ e => by cases e
theorem Laws.HeaderLength.txExit : Laws.HeaderLength.Statement .txExit := fun _ _ _ e => by cases e
theorem Laws.HeaderLength.txSnapshot : Laws.HeaderLength.Statement .txSnapshot := fun _ _ _ e => by cases e
theorem Laws.HeaderLength.txEnable : Laws.HeaderLength.Statement .txEnable := fun _ _ _ e => by cases e
theorem Laws.HeaderLength.txStream : Laws.HeaderLength.Statement .txStream := fun _ _ _ e => by cases e
theorem Laws.HeaderLength.txDrain : Laws.HeaderLength.Statement .txDrain := fun _ _ _ e => by cases e
theorem Laws.HeaderLength.txResend : Laws.HeaderLength.Statement .txResend := fun _ _ _ e => by cases e
theorem Laws.HeaderLength.txDisable : Laws.HeaderLength.Statement .txDisable := fun _ _ _ e => by cases e
theorem Laws.HeaderLength.tExited : Laws.HeaderLength.Statement .tExited := fun _ _ _ e => by cases e
theorem Laws.HeaderLength.perEmit : Laws.HeaderLength.Statement .perEmit := fun _ _ _ e => by cases e
theorem Laws.HeaderLength.perComplete : Laws.HeaderLength.Statement .perComplete := fun _ _ _ e => by cases e
theorem Laws.HeaderLength.rgb (r g b : Byte) : Laws.HeaderLength.Statement (.rgb r g b) := fun _ _ _ e => by cases e
theorem Laws.HeaderLength.red (c : Colour) : Laws.HeaderLength.Statement (.red c) := fun _ _ _ e => by cases e
theorem Laws.HeaderLength.green (c : Colour) : Laws.HeaderLength.Statement (.green c) := fun _ _ _ e => by cases e
theorem Laws.HeaderLength.blue (c : Colour) : Laws.HeaderLength.Statement (.blue c) := fun _ _ _ e => by cases e

end Sys2Proof
end

