-- ==== Sys2Proof/Tests/Slice0.lean ====
section
/-! SUPPORT. Tests: the ill-formed terms WellFormed refuses; the words of 95_test_vectors.md, the codes of PHASE (R29) and
the 256 entries of R109, decoded; the vectors V1 to V87, one step each, on states built by the helpers below; and one
witness for the hypotheses of each statement. The parameters are the vectors' examples, not the hardware's. -/

namespace Sys2Proof.Tests

open Sys2Proof Sys2Proof.Machine

-- One test after another: elaborated side by side, the tests that wait for the kernel take 250 MB of stack each.
set_option Elab.async false

/-! ### Helpers -/

/-- A vector's parameters: `ResetBytes`, `ProtocolBitRate`, and the settled ones, `DeinitRetryBound = 3`. -/
def vectorParams (resetBytes rate : Nat) : Params := ⟨resetBytes, rate, true, .completionWait, 3, .any⟩

/-- The same without the lane swap. -/
def plainParams (resetBytes : Nat) : Params := { vectorParams resetBytes 2400000 with laneSwap := false }

/-- The same with the strategy FreeRun. -/
def freeRunParams (resetBytes : Nat) : Params := { vectorParams resetBytes 2400000 with txStrategy := .freeRun }

/-- Power-on with these parameters and these answers to the draws. -/
def powerOn (p : Params) (draws : List Bool) : State := { State.reset with params := p, draws := draws }

/-- A fresh context of `n` pixels, SIG drawn as 0, WB zeroed. -/
def fresh (p : Params) (n : Word) : State :=
  { powerOn p [] with
    life := .running
    pixcnt := n
    perRate := p.protocolBitRate
    fb := match offFrame p n with
      | .ok m => m
      | .error _ => [] }

/-- The start state of V30, V31, V35 and V36. -/
def two : State := fresh (vectorParams 2 2400000) 2

/-- A field of the next state. -/
def after {α : Type} (f : State → α) : Host.Outcome State Fault Refusal → Option α
  | .next s => some (f s)
  | .fault _ => none
  | .refused _ => none

/-- The next state, or the state given. -/
def andThen (o : Host.Outcome State Fault Refusal) (s : State) : State :=
  match o with
  | .next t => t
  | .fault _ => s
  | .refused _ => s

/-- The first `n` bytes of a buffer as numbers. -/
def bytesOf (m : Memory) (n : Nat) : List Nat := (List.range n).map fun a => (Memory.read m a).toNat

/-- A buffer holding these bytes. -/
def bufferOf (bytes : List Nat) : Memory := Memory.ofBytes bytes.length fun a => BitVec.ofNat 8 (bytes.getD a 0)

/-- The bits of bytes, most significant first. -/
def bitsOf (bytes : List Nat) : List Bool := bytes.flatMap fun b => msbFirst (BitVec.ofNat 8 b)

/-- Entries of LUT from `base` on, as 24-bit numbers. -/
def entriesFrom (base : Nat) : List Nat :=
  (List.range 64).map fun i => (lutSlots (BitVec.ofNat 8 (base + i))).toNat

/-- FB of V30. -/
def v30Bytes : List Nat :=
  [0x49, 0x92, 0xDB, 0x24, 0xB6, 0x6D, 0x49, 0x92, 0x92, 0x24, 0x24, 0x49, 0x49, 0x92, 0x92, 0x24, 0x24, 0x49, 0x00, 0x00]

/-- FB of V31. -/
def v31Bytes : List Nat :=
  [0x49, 0x92, 0x92, 0x24, 0x24, 0x49, 0x49, 0x92, 0x93, 0x24, 0xA4, 0x69, 0x69, 0x92, 0x9A, 0x34, 0xB4, 0x69, 0x00, 0x00]

/-- FB of V34. -/
def v34Bytes : List Nat :=
  [0x49, 0x92, 0x92, 0x24, 0x24, 0x49, 0x49, 0x92, 0xDB, 0x24, 0xB6, 0x6D, 0x49, 0x92] ++
  [0x92, 0x24, 0x24, 0x49, 0x49, 0x92, 0xD2, 0x26, 0x24, 0x49, 0x6D, 0x9B, 0x00, 0xB6]

/-- FB of V36. -/
def v36Bytes : List Nat :=
  [0x6D, 0xDB, 0x92, 0xB6, 0x24, 0x49, 0x49, 0x92, 0x92, 0x24, 0x24, 0x49, 0x49, 0x92, 0xDB, 0x24, 0xB6, 0x6D, 0x00, 0x00]

/-- The batch of V34 and V83. -/
def v34Batch : List PixelUpdate := [⟨1, 0x0000FF⟩, ⟨3, 0xFFFFFF⟩, ⟨1, 0x00FF00⟩, ⟨2, 0x80017F⟩]

/-! ### Well-formedness: one ill-formed term for each check (R100: `N < 2^30`) -/

theorem test_wf_refuses_a_long_setPixel (u : PixelUpdate) :
    (Instr.setPixel (List.replicate (2 ^ 30) u)).wf = false := by
  rw [Instr.wf, recordsFit, List.length_replicate]; decide

theorem test_wf_refuses_a_long_spCommit (u : PixelUpdate) :
    (Instr.spCommit (List.replicate (2 ^ 30) u)).wf = false := by
  rw [Instr.wf, recordsFit, List.length_replicate]; decide

theorem test_wf_takes_the_longest_batch (u : PixelUpdate) :
    (Instr.setPixel (List.replicate (2 ^ 30 - 1) u)).wf = true := by
  rw [Instr.wf, recordsFit, List.length_replicate]; decide

/-! ### Decoding: words from V80 to V87, codes from R29 -/

theorem test_decode_init : decodeCommand [0x00000000, 0x00000004, 0x00000005] = .ok (.init 4 5, []) := by rfl

theorem test_decode_deinit : decodeCommand [0x40000000] = .ok (.deinit, []) := by rfl

theorem test_decode_setPixel :
    decodeCommand [0x80000004, 0x00000001, 0x000000FF, 0x00000003, 0x00FFFFFF, 0x00000001, 0x0000FF00, 0x00000002,
      0x0080017F] = .ok (.setPixel v34Batch, []) := by rfl

/-- V25: bits 31:24 of the carrier are ignored. The words after the command stay on the port. -/
theorem test_decode_setPixel_carrier :
    decodeCommand [0b10000000000000000000000000000001, 7, 0xAB123456, 0xC0000000] =
      .ok (.setPixel [⟨7, 0x123456⟩], [0xC0000000]) := by rfl

theorem test_decode_setPixel_empty : decodeCommand [0x80000000] = .ok (.setPixel [], []) := by rfl

theorem test_decode_getRefreshRate : decodeCommand [0xC0000000] = .ok (.getRefreshRate, []) := by rfl

theorem test_decode_reserved :
    decodeCommand [0x00000001, 0, 0] = .error .reservedHeader ∧ decodeCommand [0x40000007] = .error .reservedHeader ∧
    decodeCommand [0xC0000001] = .error .reservedHeader := ⟨rfl, rfl, rfl⟩

theorem test_decode_truncated :
    decodeCommand [0x80000002, 0x00000000, 0x00FF0000] = .error .truncatedCommand ∧
    decodeCommand [0x80000001, 0] = .error .truncatedCommand ∧ decodeCommand [0, 4] = .error .truncatedCommand :=
  ⟨rfl, rfl, rfl⟩

theorem test_decode_phases :
    decodePhase 0b0000 = .ok .txWake ∧ decodePhase 0b0001 = .ok .txCheck ∧ decodePhase 0b0010 = .ok .txSnapshot ∧
    decodePhase 0b0011 = .ok .txEnable ∧ decodePhase 0b0100 = .ok .txStream ∧ decodePhase 0b0101 = .ok .txDrain ∧
    decodePhase 0b0110 = .ok .txResend ∧ decodePhase 0b0111 = .ok .txDisable ∧ decodePhase 0b1000 = .ok .tExited :=
  ⟨rfl, rfl, rfl, rfl, rfl, rfl, rfl, rfl, rfl⟩

theorem test_decode_unused_phases :
    decodePhase 0b1001 = .error .unusedPhase ∧ decodePhase 0b1111 = .error .unusedPhase := ⟨rfl, rfl⟩

theorem test_decode_lutIndex : decode (.lutIndex 0b10000000) = .ok (.encode 0x80, []) := by rfl

/-- The rows that share a parent's header decode to the parent, an unencoded row has no bits (R110). -/
theorem test_decode_steps :
    decode (encode .txExit) = .ok (.txCheck, []) ∧ decode (encode (.spCommit [])) = .error .noEncoding ∧
    decode (encode (.spSignal 0)) = .error .noEncoding ∧ decode (encode .diRequest) = .error .noEncoding ∧
    decode (encode .diPoll) = .error .noEncoding ∧ decode (encode .diRelease) = .error .noEncoding ∧
    decode (encode .diTimeout) = .error .noEncoding ∧ decode (encode .perEmit) = .error .noEncoding ∧
    decode (encode .perComplete) = .error .noEncoding ∧ decode (encode (.rgb 1 2 3)) = .error .noEncoding ∧
    decode (encode (.red 1)) = .error .noEncoding ∧ decode (encode (.green 1)) = .error .noEncoding ∧
    decode (encode (.blue 1)) = .error .noEncoding :=
  ⟨rfl, rfl, rfl, rfl, rfl, rfl, rfl, rfl, rfl, rfl, rfl, rfl, rfl⟩

theorem test_decodeTableWord :
    decodeTableWord 32 0x00000000 = some (.init 0 0) ∧ decodeTableWord 32 0x80000001 = some (.setPixel [⟨0, 0⟩]) ∧
    decodeTableWord 32 0xC0000001 = none ∧ decodeTableWord 4 0b0101 = some .txDrain ∧
    decodeTableWord 8 0xFF = some (.encode 0xFF) :=
  ⟨rfl, rfl, rfl, rfl, rfl⟩

theorem test_withFetchWord_command :
    after (fun s => (s.life, s.term)) (step (State.withFetchWord two 32 0x40000000)) = some (.teardown, true) := by rfl

theorem test_withFetchWord_phase :
    after (fun s => s.phase) (step (State.withFetchWord two 4 0b0011)) = some .tStream := by rfl

/-! ### The table (R109) -/

theorem test_lut_00 : entriesFrom 0 =
    [0x924924, 0x924926, 0x924934, 0x924936, 0x9249A4, 0x9249A6, 0x9249B4, 0x9249B6] ++
    [0x924D24, 0x924D26, 0x924D34, 0x924D36, 0x924DA4, 0x924DA6, 0x924DB4, 0x924DB6] ++
    [0x926924, 0x926926, 0x926934, 0x926936, 0x9269A4, 0x9269A6, 0x9269B4, 0x9269B6] ++
    [0x926D24, 0x926D26, 0x926D34, 0x926D36, 0x926DA4, 0x926DA6, 0x926DB4, 0x926DB6] ++
    [0x934924, 0x934926, 0x934934, 0x934936, 0x9349A4, 0x9349A6, 0x9349B4, 0x9349B6] ++
    [0x934D24, 0x934D26, 0x934D34, 0x934D36, 0x934DA4, 0x934DA6, 0x934DB4, 0x934DB6] ++
    [0x936924, 0x936926, 0x936934, 0x936936, 0x9369A4, 0x9369A6, 0x9369B4, 0x9369B6] ++
    [0x936D24, 0x936D26, 0x936D34, 0x936D36, 0x936DA4, 0x936DA6, 0x936DB4, 0x936DB6] := by decide +kernel

theorem test_lut_40 : entriesFrom 64 =
    [0x9A4924, 0x9A4926, 0x9A4934, 0x9A4936, 0x9A49A4, 0x9A49A6, 0x9A49B4, 0x9A49B6] ++
    [0x9A4D24, 0x9A4D26, 0x9A4D34, 0x9A4D36, 0x9A4DA4, 0x9A4DA6, 0x9A4DB4, 0x9A4DB6] ++
    [0x9A6924, 0x9A6926, 0x9A6934, 0x9A6936, 0x9A69A4, 0x9A69A6, 0x9A69B4, 0x9A69B6] ++
    [0x9A6D24, 0x9A6D26, 0x9A6D34, 0x9A6D36, 0x9A6DA4, 0x9A6DA6, 0x9A6DB4, 0x9A6DB6] ++
    [0x9B4924, 0x9B4926, 0x9B4934, 0x9B4936, 0x9B49A4, 0x9B49A6, 0x9B49B4, 0x9B49B6] ++
    [0x9B4D24, 0x9B4D26, 0x9B4D34, 0x9B4D36, 0x9B4DA4, 0x9B4DA6, 0x9B4DB4, 0x9B4DB6] ++
    [0x9B6924, 0x9B6926, 0x9B6934, 0x9B6936, 0x9B69A4, 0x9B69A6, 0x9B69B4, 0x9B69B6] ++
    [0x9B6D24, 0x9B6D26, 0x9B6D34, 0x9B6D36, 0x9B6DA4, 0x9B6DA6, 0x9B6DB4, 0x9B6DB6] := by decide +kernel

theorem test_lut_80 : entriesFrom 128 =
    [0xD24924, 0xD24926, 0xD24934, 0xD24936, 0xD249A4, 0xD249A6, 0xD249B4, 0xD249B6] ++
    [0xD24D24, 0xD24D26, 0xD24D34, 0xD24D36, 0xD24DA4, 0xD24DA6, 0xD24DB4, 0xD24DB6] ++
    [0xD26924, 0xD26926, 0xD26934, 0xD26936, 0xD269A4, 0xD269A6, 0xD269B4, 0xD269B6] ++
    [0xD26D24, 0xD26D26, 0xD26D34, 0xD26D36, 0xD26DA4, 0xD26DA6, 0xD26DB4, 0xD26DB6] ++
    [0xD34924, 0xD34926, 0xD34934, 0xD34936, 0xD349A4, 0xD349A6, 0xD349B4, 0xD349B6] ++
    [0xD34D24, 0xD34D26, 0xD34D34, 0xD34D36, 0xD34DA4, 0xD34DA6, 0xD34DB4, 0xD34DB6] ++
    [0xD36924, 0xD36926, 0xD36934, 0xD36936, 0xD369A4, 0xD369A6, 0xD369B4, 0xD369B6] ++
    [0xD36D24, 0xD36D26, 0xD36D34, 0xD36D36, 0xD36DA4, 0xD36DA6, 0xD36DB4, 0xD36DB6] := by decide +kernel

theorem test_lut_C0 : entriesFrom 192 =
    [0xDA4924, 0xDA4926, 0xDA4934, 0xDA4936, 0xDA49A4, 0xDA49A6, 0xDA49B4, 0xDA49B6] ++
    [0xDA4D24, 0xDA4D26, 0xDA4D34, 0xDA4D36, 0xDA4DA4, 0xDA4DA6, 0xDA4DB4, 0xDA4DB6] ++
    [0xDA6924, 0xDA6926, 0xDA6934, 0xDA6936, 0xDA69A4, 0xDA69A6, 0xDA69B4, 0xDA69B6] ++
    [0xDA6D24, 0xDA6D26, 0xDA6D34, 0xDA6D36, 0xDA6DA4, 0xDA6DA6, 0xDA6DB4, 0xDA6DB6] ++
    [0xDB4924, 0xDB4926, 0xDB4934, 0xDB4936, 0xDB49A4, 0xDB49A6, 0xDB49B4, 0xDB49B6] ++
    [0xDB4D24, 0xDB4D26, 0xDB4D34, 0xDB4D36, 0xDB4DA4, 0xDB4DA6, 0xDB4DB4, 0xDB4DB6] ++
    [0xDB6924, 0xDB6926, 0xDB6934, 0xDB6936, 0xDB69A4, 0xDB69A6, 0xDB69B4, 0xDB69B6] ++
    [0xDB6D24, 0xDB6D26, 0xDB6D34, 0xDB6D36, 0xDB6DA4, 0xDB6DA6, 0xDB6DB4, 0xDB6DB6] := by decide +kernel

/-! ### ENCODE and the colours (V1 to V25) -/

theorem test_encode_ends :
    after (fun s => s.value) (exec (.encode 0x00) two) = some (.entry [0x92, 0x49, 0x24]) ∧
    after (fun s => s.value) (exec (.encode 0xFF) two) = some (.entry [0xDB, 0x6D, 0xB6]) := by decide +kernel

theorem test_encode_bits :
    encodeBytes 0x80 = [0xD2, 0x49, 0x24] ∧ encodeBytes 0x40 = [0x9A, 0x49, 0x24] ∧
    encodeBytes 0x20 = [0x93, 0x49, 0x24] ∧ encodeBytes 0x10 = [0x92, 0x69, 0x24] ∧
    encodeBytes 0x08 = [0x92, 0x4D, 0x24] ∧ encodeBytes 0x04 = [0x92, 0x49, 0xA4] ∧
    encodeBytes 0x02 = [0x92, 0x49, 0x34] ∧ encodeBytes 0x01 = [0x92, 0x49, 0x26] := by decide +kernel

/-- V20, S7: the colour of `RGB(255, 0, 0)`. -/
theorem test_rgb : after (fun s => s.value) (exec (.rgb 255 0 0) two) = some (.colour 0xFF0000) := by decide +kernel

theorem test_red : after (fun s => s.value) (exec (.red 0x123456) two) = some (.channel 0x12) := by decide +kernel

theorem test_green : after (fun s => s.value) (exec (.green 0x123456) two) = some (.channel 0x34) := by decide +kernel

theorem test_blue : after (fun s => s.value) (exec (.blue 0x123456) two) = some (.channel 0x56) := by decide +kernel

theorem test_encoded_pixel_V20 :
    pixelBytes 0xFF0000 = [0x92, 0x49, 0x24, 0xDB, 0x6D, 0xB6, 0x92, 0x49, 0x24] := by decide +kernel

theorem test_encoded_pixel_V24 :
    pixelBytes 0x80017F = [0x92, 0x49, 0x26, 0xD2, 0x49, 0x24, 0x9B, 0x6D, 0xB6] := by decide +kernel

/-! ### The lane swap (V26 to V29) -/

theorem test_phys_V26 :
    (List.range 10).map (phys (vectorParams 2 1)) = [1, 0, 3, 2, 5, 4, 7, 6, 9, 8] ∧
    (List.range 10).map (phys (plainParams 2)) = List.range 10 := by decide

theorem test_storedSet_V27 :
    storedSet (vectorParams 2 1) 1 = [8, 11, 10, 13, 12, 15, 14, 17, 16] ∧
    27 ∈ storedSet (vectorParams 1 1) 2 ∧ 26 ∉ storedSet (vectorParams 1 1) 2 := by decide

/-! ### SETPIXEL (V30 to V39) -/

theorem test_setPixel_V30 :
    after (fun s => (bytesOf s.fb 20, s.calls)) (exec (.setPixel [⟨0, 0xFF0000⟩]) two) = some (v30Bytes, [⟨true, false⟩]) := by
  decide +kernel

theorem test_setPixel_V34 :
    after (fun s => (bytesOf s.fb 28, s.status, s.calls))
      (exec (.setPixel v34Batch) (fresh (vectorParams 1 2400000) 3)) = some (v34Bytes, 0x04, [⟨false, false⟩]) := by
  decide +kernel

theorem test_spCommit_V31 :
    after (fun s => bytesOf s.fb 20) (exec (.spCommit [⟨1, 0x123456⟩]) two) = some v31Bytes := by decide +kernel

/-- V33: the odd last pixel reaches into the tail. -/
theorem test_spCommit_V33 :
    after (fun s => bytesOf s.fb 12) (exec (.spCommit [⟨0, 0x123456⟩]) (fresh (vectorParams 3 2400000) 1)) =
      some [0x69, 0x93, 0x92, 0xA4, 0x34, 0x69, 0x69, 0x9A, 0x00, 0xB4, 0x00, 0x00] := by decide +kernel

/-- R135: the signal step posts SIG and answers `ok`, here of the second call in progress. -/
theorem test_spSignal :
    after (fun s => (s.sig, s.calls, s.responses))
      (exec (.spSignal 1) { two with calls := [⟨true, false⟩, ⟨false, false⟩] }) =
      some (true, [⟨true, false⟩], [0]) := by decide +kernel

/-- R251: the late step is refused, in the teardown and in a new context after it. -/
theorem test_spSignal_late :
    exec (.spSignal 0) { two with calls := [⟨true, false⟩], life := .teardown } = .refused .outsideLifecycle ∧
    exec (.spSignal 0) { two with calls := [⟨true, true⟩] } = .refused .outsideLifecycle := ⟨rfl, rfl⟩

/-! ### INIT and GETREFRESHRATE (V40 to V58) -/

theorem test_init_V41 :
    after (fun s => (bytesOf s.fb 28, s.pixcnt, s.life, s.responses))
      (exec (.init 3 0) (powerOn (vectorParams 1 2400000) [true, true, false])) =
    some ([0x49, 0x92, 0x92, 0x24, 0x24, 0x49, 0x49, 0x92, 0x92, 0x24, 0x24, 0x49, 0x49, 0x92] ++
      [0x92, 0x24, 0x24, 0x49, 0x49, 0x92, 0x92, 0x24, 0x24, 0x49, 0x49, 0x92, 0x00, 0x24], 3, .running, [0]) := by
  decide +kernel

/-- V47, V43: allocation is tried first; an odd length is refused. -/
theorem test_init_V47_V43 :
    after (fun s => (s.status, s.life, s.responses))
      (exec (.init 4 0) (powerOn (vectorParams 4 2400000) [false, false])) = some (0x01, .absent, [1]) ∧
    exec (.init 1 0) (powerOn (vectorParams 2 2400000) [true, true]) = .refused .oddFrameLength := by
  refine ⟨by decide +kernel, by rfl⟩

theorem test_getRefreshRate_V50 :
    after (fun s => s.responses) (exec .getRefreshRate { two with params := vectorParams 50 2400000, pixcnt := 4 }) =
      some [0x00000DA0] := by decide +kernel

/-- V57, V58. -/
theorem test_getRefreshRate_V57_V58 :
    after (fun s => s.responses) (exec .getRefreshRate { two with params := vectorParams 4 319, pixcnt := 4 }) =
      some [0] ∧
    exec .getRefreshRate { two with params := vectorParams 0 2400000, pixcnt := 0 } = .refused .zeroFrameLength := by
  refine ⟨by decide +kernel, by rfl⟩

/-! ### The engine and the peripheral (V60 to V70) -/

theorem test_txWake_V60_V61 :
    after (fun s => s.phase) (exec .txWake two) = some .tIdle ∧
    after (fun s => (s.sig, s.phase)) (exec .txWake { two with sig := true }) = some (false, .tCheck) := by decide +kernel

theorem test_txCheck_V62_V63 :
    after (fun s => s.phase) (exec .txCheck { two with phase := .tCheck }) = some .tSnap ∧
    after (fun s => (s.exited, s.phase)) (exec .txCheck { two with phase := .tCheck, term := true }) =
      some (true, .tExited) := by decide +kernel

theorem test_txExit : after (fun s => s.exited) (exec .txExit { two with phase := .tCheck, term := true }) =
    some true := by decide +kernel

theorem test_txSnapshot_V64 :
    after (fun s => (bytesOf s.wb 20, s.phase)) (exec .txSnapshot { two with phase := .tSnap, fb := bufferOf v30Bytes }) =
      some (v30Bytes, .tEnable) := by decide +kernel

theorem test_txEnable_V65 :
    after (fun s => (s.perEn, s.done, s.txidx, s.phase))
      (exec .txEnable { two with phase := .tEnable, done := true, txidx := 20 }) = some (true, false, 0, .tStream) := by
  decide +kernel

/-- The state of V66. -/
def streaming : State := { two with phase := .tStream, perEn := true, wb := bufferOf v30Bytes }

theorem test_txStream_V66 :
    after (fun s => (s.perQ.map BitVec.toNat, s.txidx, s.phase)) (exec .txStream streaming) =
      some (v30Bytes, 20, .tDrain) := by decide +kernel

/-- R150, R215: a short write. -/
theorem test_txStream_short : exec .txStream { streaming with writeTakes := [19] } = .fault .shortWrite := by rfl

theorem test_perEmit_V67 :
    after (fun s => (s.perQ, s.wire)) (exec .perEmit { two with perEn := true, perQ := [0x49, 0x92, 0xDB, 0x24] }) =
      some ([0xDB, 0x24], bitsOf [0x92, 0x49]) := by decide +kernel

/-- The state of V68 before the completion. -/
def drained : State := { two with phase := .tDrain, perEn := true, txidx := 20 }

theorem test_perComplete_V68 : after (fun s => s.done) (exec .perComplete drained) = some true := by decide +kernel

theorem test_txDrain_V68_V69 :
    after (fun s => (s.done, s.phase)) (exec .txDrain { drained with done := true }) = some (false, .tDisable) ∧
    after (fun s => (s.sig, s.phase)) (exec .txDrain { drained with sig := true }) = some (true, .tDrain) := by
  decide +kernel

theorem test_txDisable_V70 :
    after (fun s => (s.perEn, s.phase)) (exec .txDisable { two with phase := .tDisable, perEn := true }) =
      some (false, .tIdle) := by decide +kernel

/-- R154: FreeRun repeats the buffer until a signal is pending. -/
theorem test_txResend :
    after (fun s => s.phase) (exec .txResend { fresh (freeRunParams 2) 2 with phase := .tResend, perEn := true }) =
      some .tStream ∧
    after (fun s => s.phase)
      (exec .txResend { fresh (freeRunParams 2) 2 with phase := .tResend, perEn := true, sig := true }) =
      some .tDisable := by decide +kernel

theorem test_tExited : after (fun s => s.phase) (exec .tExited { two with phase := .tExited, sig := true }) =
    some .tExited := by decide +kernel

/-- The wire vector of V33's buffer, decoded (R108). -/
theorem test_wire_decodes :
    takePixels 1 (bitsOf [0x93, 0x69, 0xA4, 0x92, 0x69, 0x34, 0x9A, 0x69, 0xB4, 0, 0, 0]) =
      some ([0x123456], List.replicate 24 false) := by decide +kernel

/-- The wire vector of V34's buffer. -/
theorem test_wire_V34 :
    bufferBits (vectorParams 1 2400000) 28 (bufferOf v34Bytes) =
      bitsOf ([0x92, 0x49, 0x24, 0x92, 0x49, 0x24, 0x92, 0x49, 0x24, 0xDB, 0x6D, 0xB6, 0x92, 0x49, 0x24] ++
        [0x92, 0x49, 0x24, 0x92, 0x49, 0x26, 0xD2, 0x49, 0x24, 0x9B, 0x6D, 0xB6, 0x00]) := by decide +kernel

/-! ### DEINIT (V71 to V76) -/

theorem test_deinit :
    after (fun s => (s.life, s.term, s.sig, s.dpoll, s.calls)) (exec .deinit { two with calls := [⟨true, false⟩] }) =
      some (.teardown, true, true, 0, [⟨true, true⟩]) := by decide +kernel

/-- V76. -/
theorem test_diRequest_V76 :
    exec .diRequest (powerOn (vectorParams 2 1) []) = .refused .outsideLifecycle ∧
    exec .diRequest { two with life := .teardown } = .refused .outsideLifecycle := ⟨rfl, rfl⟩

/-- A teardown with `DeinitRetryBound = 3`. -/
def tearing (dpoll : Nat) : State := { two with life := .teardown, term := true, sig := true, dpoll := dpoll }

theorem test_diPoll_V71 :
    after (fun s => (s.life, s.dpoll)) (exec .diPoll (tearing 1)) = some (.teardown, 2) ∧
    after (fun s => (s.life, s.status)) (exec .diPoll (tearing 2)) = some (.leaked, 0x08) := by decide +kernel

theorem test_diRelease_V72 :
    after (fun s => (s.life, s.fb, s.status)) (exec .diRelease { tearing 0 with exited := true }) =
      some (.destroyed, [], 0) := by decide +kernel

theorem test_diTimeout_V71 :
    after (fun s => (s.life, s.status, bytesOf s.fb 2)) (exec .diTimeout (tearing 2)) =
      some (.leaked, 0x08, [0x49, 0x92]) := by decide +kernel

/-! ### Witnesses: states and operands that meet the hypotheses of the statements -/


theorem witness_DecodeInvertsEncode :
    (Instr.setPixel v34Batch).wf = true ∧ hasOwnEncoding (.setPixel v34Batch) = true ∧
    encode .deinit = .command [0x40000000] ∧ Instr.deinit.wf = true ∧ hasOwnEncoding .deinit = true := by decide

theorem witness_HeaderGivesTheCommandLength :
    decodeCommand (0x80000001 :: [5, 6, 7]) = .ok (.setPixel [⟨5, 6⟩], [7]) ∧
    decodeCommand (0 :: [5, 6, 7]) = .ok (.init 5 6, [7]) := ⟨rfl, rfl⟩

/-- A producer's turn with these words on the port. -/
def commandTurn (s : State) (ws : List Word) : State := { s with turns := [.command], cmds := ws }

/-- Each clause, at the ends of its range: `n = 1`, `n = 2^30 − 1`; one word missing, of INIT and of SETPIXEL. -/
theorem witness_PortRefusesReservedAndTruncated :
    (commandTurn two [0xFFFFFFFF]).turns = .command :: [] ∧ two.lock = false ∧
    headerOp 0x00000001 ≠ 0b10#2 ∧ headerN 0x00000001 ≠ 0 ∧
    headerOp 0xFFFFFFFF ≠ 0b10#2 ∧ headerN 0xFFFFFFFF ≠ 0 ∧
    headerOp 0x80000001 = 0b10#2 ∧ ([0x80000001, 0] : List Word).length < commandLength 0x80000001 ∧
    headerN 0x00000000 = 0 ∧ ([0x00000000, 4] : List Word).length < commandLength 0x00000000 := by decide

theorem witness_EncodeIsInjectiveAndNeverAGap : encodeBytes 0x12 = encodeBytes 0x12 ∧ 0xD2 ∈ encodeBytes 0x80 := by
  decide +kernel

theorem witness_LaneSwapIsAnInvolutionOfTheFrame :
    ((vectorParams 2 1).laneSwap = true → 20 % 2 = 0) ∧ 19 < 20 ∧ (vectorParams 2 1).laneSwap = true ∧
    ((plainParams 2).laneSwap = true → 11 % 2 = 0) ∧ 10 < 11 ∧ (plainParams 2).laneSwap = false := by decide

theorem witness_StoredByteSetsOfPixels :
    (0 : Nat) ≠ 1 ∧ 9 ∈ storedSet (vectorParams 2 1) 0 ∧ (vectorParams 2 1).laneSwap = true ∧ 0 % 2 = 0 ∧ 1 % 2 = 1 ∧
    (plainParams 2).laneSwap = false := by decide

/-- The hypotheses of the statements on batches, in `two` and in a context of 3 pixels with the batch of V34: a pixel of
the batch and one outside it, the last one, and a byte outside the stored byte sets. -/
theorem witness_CommitAppliesTheBatch :
    two.life = .running ∧ two.lock = false ∧ evenFrame two.params two.pixcnt ∧
    (fresh (vectorParams 1 1) 3).life = .running ∧ (fresh (vectorParams 1 1) 3).lock = false ∧
    evenFrame (vectorParams 1 1) 3 ∧ lastColour v34Batch 1 = some 0x00FF00 ∧ lastColour v34Batch 0 = none ∧
    lastColour v34Batch 2 = some 0x80017F ∧
    ∀ u ∈ v34Batch, u.index.toNat < 3 → 26 ∉ storedSet (vectorParams 1 1) u.index.toNat := by decide

/-- The smallest invalid index, and the context without pixels. -/
theorem witness_InvalidRecordsAreSkipped :
    (fresh (vectorParams 1 1) 3).life = .running ∧ (fresh (vectorParams 1 1) 3).lock = false ∧
    evenFrame (fresh (vectorParams 1 1) 3).params (fresh (vectorParams 1 1) 3).pixcnt ∧
    (∃ r ∈ v34Batch, (fresh (vectorParams 1 1) 3).pixcnt.toNat ≤ r.index.toNat) ∧
    (fresh (vectorParams 2 1) 0).pixcnt = 0 := by decide

/-- Each clause: a call in its own context, one outside RUNNING, a late one in a later context. -/
theorem witness_SignalStepPostsOnceAndAnswers :
    ({ two with calls := [⟨true, true⟩, ⟨false, false⟩] } : State).calls[1]? = some ⟨false, false⟩ ∧
    ({ two with calls := [⟨true, true⟩, ⟨false, false⟩] } : State).life = .running ∧ (tearing 0).life ≠ .running ∧
    ({ tearing 0 with calls := [⟨true, false⟩] } : State).calls[0]? = some ⟨true, false⟩ ∧
    ({ two with calls := [⟨true, true⟩, ⟨false, false⟩] } : State).calls[0]? = some ⟨true, true⟩ := by decide

theorem witness_BatchIsIdempotent :
    two.life = .running ∧ two.lock = false ∧ evenFrame two.params two.pixcnt := by decide

theorem witness_DisjointBatchesCommute :
    two.life = .running ∧ two.lock = false ∧ evenFrame two.params two.pixcnt ∧ Memory.wf two.fb ∧
    (∀ u ∈ [(⟨0, 0x00FF00⟩ : PixelUpdate)], ∀ v ∈ [(⟨1, 0x0000FF⟩ : PixelUpdate)], u.index ≠ v.index) ∧
    lastColour [⟨0, 0x00FF00⟩] 0 = some 0x00FF00 ∧ lastColour [⟨1, 0x0000FF⟩] 1 = some 0x0000FF := by decide +kernel

theorem witness_CommandsRefusedOutsideTheirLifecycle :
    two.life ≠ .absent ∧ two.life ≠ .destroyed ∧ (tearing 0).life ≠ .running ∧
    ({ tearing 0 with calls := [⟨true, true⟩] } : State).calls[0]? = some ⟨true, true⟩ ∧
    (powerOn (vectorParams 2 1) []).life ≠ .running := by decide

theorem witness_WakeConsumesTheSignal :
    two.life.live = true ∧ two.phase = .tIdle ∧ ({ two with sig := true } : State).sig = true ∧
    (tearing 0).life.live = true ∧ (tearing 0).phase = .tIdle ∧ (tearing 0).term = true := by decide

theorem witness_CheckExitsOnTermination :
    ({ two with phase := .tCheck } : State).life.live = true ∧ ({ two with phase := .tCheck } : State).phase = .tCheck ∧
    ({ two with phase := .tCheck } : State).term = false ∧ ({ tearing 0 with phase := .tCheck } : State).term = true := by
  decide

theorem witness_SnapshotCopiesTheFrame :
    ({ two with phase := .tSnap } : State).life.live = true ∧ ({ two with phase := .tSnap } : State).phase = .tSnap ∧
    ({ two with phase := .tSnap } : State).lock = false ∧ 19 < ({ two with phase := .tSnap } : State).frameLen := by
  decide

theorem witness_EnableStartsATransfer :
    ({ two with phase := .tEnable } : State).life.live = true ∧
    ({ two with phase := .tEnable } : State).phase = .tEnable := by decide

/-- Each clause: no answer fixed, the answer `L`, and the longest short answer. -/
theorem witness_StreamHandsOverTheBuffer :
    streaming.life.live = true ∧ streaming.phase = .tStream ∧ streaming.writeTakes = [] ∧
    streaming.frameLen ≤ 20 ∧ 19 < streaming.frameLen ∧
    ({ streaming with writeTakes := [20] } : State).writeTakes = 20 :: [] ∧
    ({ streaming with writeTakes := [19] } : State).writeTakes = 19 :: [] := by decide

theorem witness_DrainEndsTheWait :
    drained.life.live = true ∧ drained.phase = .tDrain ∧ drained.params.txStrategy = .completionWait ∧
    ({ drained with done := true } : State).done = true := by decide

/-- FreeRun between two transmissions. -/
def resending : State := { fresh (freeRunParams 2) 2 with phase := .tResend, perEn := true, txidx := 20 }

theorem witness_ResendRepeatsUntilSignalled :
    resending.life.live = true ∧ resending.phase = .tResend ∧ resending.params.txStrategy = .freeRun ∧
    resending.perQ = [] ∧ resending.sig = false ∧ resending.term = false ∧
    ({ resending with sig := true } : State).sig = true := by decide

theorem witness_DisableEndsTheTransfer :
    ({ two with phase := .tDisable } : State).life.live = true ∧
    ({ two with phase := .tDisable } : State).phase = .tDisable := by decide

/-- An engine's turn on an exited engine, and the INIT after a released DEINIT. -/
theorem witness_ExitedEngineNeverReturns :
    ({ tearing 0 with phase := .tExited, turns := [.engine] } : State).phase = .tExited ∧
    ∃ s t : State, s.phase = .tExited ∧ s.life ≠ .absent ∧ step s = .next t ∧ t.phase ≠ .tExited := by
  refine ⟨rfl, commandTurn { powerOn (vectorParams 2 1) [true, true, false] with phase := .tExited, life := .destroyed }
    [0, 2, 0], _, rfl, by decide, rfl, by decide +kernel⟩

theorem witness_PhaseMovesOnlyAlongTheTable :
    ∃ s t : State, step s = .next t ∧ t.phase ≠ s.phase :=
  ⟨{ two with sig := true, turns := [.engine] }, _, rfl, by decide +kernel⟩

theorem witness_TerminationBeatsAPendingUpdate :
    ({ tearing 0 with turns := [.engine, .engine] } : State).turns = .engine :: .engine :: [] ∧
    (tearing 0).life.live = true ∧ (tearing 0).phase = .tIdle ∧ (tearing 0).sig = true ∧ (tearing 0).term = true := by
  decide

/-- The engine's clauses: without a context, idle, locked out, waiting and resending, each also under the other strategy,
and exited. -/
theorem witness_BlockedTurnsChangeNothing :
    (powerOn (vectorParams 2 1) []).life.live = false ∧ (two.phase = .tIdle ∧ two.sig = false ∧ two.term = false) ∧
    (({ two with phase := .tSnap, lock := true } : State).phase = .tSnap ∧
      ({ two with phase := .tSnap, lock := true } : State).lock = true) ∧
    (drained.phase = .tDrain ∧ drained.done = false) ∧
    (({ resending with phase := .tDrain } : State).phase = .tDrain ∧ resending.params.txStrategy = .freeRun) ∧
    (({ resending with perQ := [1] } : State).phase = .tResend ∧ ({ resending with perQ := [1] } : State).perQ ≠ []) ∧
    (({ two with phase := .tResend } : State).phase = .tResend ∧ two.params.txStrategy = .completionWait) ∧
    ({ tearing 0 with phase := .tExited } : State).phase = .tExited := by decide

/-- The peripheral's clauses: without a context, disabled, with one byte of a pair in every phase, drained and reported,
before the end of the buffer, under FreeRun. The producer's: locked out, without words, without a call, outside TEARDOWN. -/
theorem witness_BlockedTurnsChangeNothing_peripheral_and_producer :
    (powerOn (vectorParams 2 1) []).life.live = false ∧ two.perEn = false ∧
    (({ streaming with perQ := [1] } : State).perQ.length < emitUnit (vectorParams 2 1) ∧ streaming.phase ≠ .tDrain) ∧
    (drained.perQ.length < emitUnit drained.params ∧ ({ drained with done := true } : State).done = true) ∧
    (({ drained with perQ := [1] } : State).perQ.length < emitUnit drained.params ∧
      ({ drained with perQ := [1] } : State).perQ ≠ []) ∧
    ({ drained with txidx := 19 } : State).txidx ≠ ({ drained with txidx := 19 } : State).frameLen ∧
    (resending.perQ.length < emitUnit resending.params ∧ resending.params.txStrategy = .freeRun) ∧
    ({ two with lock := true } : State).lock = true ∧ two.cmds = [] ∧ two.calls[0]? = none ∧ two.life ≠ .teardown := by
  decide

theorem witness_EmitPutsAUnitOnTheWire :
    ({ streaming with perQ := [0x49, 0x92] } : State).perQ = 0x49 :: 0x92 :: [] ∧ streaming.life.live = true ∧
    streaming.perEn = true ∧ streaming.params.laneSwap = true ∧
    ({ fresh (plainParams 2) 1 with perEn := true, perQ := [0x92] } : State).perQ = 0x92 :: [] ∧
    (fresh (plainParams 2) 1).life.live = true ∧ (fresh (plainParams 2) 1).params.laneSwap = false := by decide

theorem witness_CompletionOnlyPostsDone :
    drained.life.live = true ∧ drained.params.txStrategy = .completionWait ∧ drained.perEn = true ∧
    drained.phase = .tDrain ∧ drained.txidx = drained.frameLen ∧ drained.perQ = [] ∧ drained.done = false := by decide

theorem witness_InitCreatesAFreshContext :
    (powerOn (vectorParams 2 1) [true, true]).life = .absent ∧
    ((vectorParams 2 1).laneSwap = true → (9 * (2 : Word).toNat + (vectorParams 2 1).resetBytes) % 2 = 0) ∧
    (drawBit (powerOn (vectorParams 2 1) [true, true])).1 = true ∧
    (drawBit (drawBit (powerOn (vectorParams 2 1) [true, true])).2).1 = true ∧
    ({ vectorParams 2 1 with initSignal := .one } : Params).initSignal = .one := by decide +kernel

theorem witness_FailedInitChangesNothingElse :
    (powerOn (vectorParams 2 1) [false]).life = .absent ∧
    ((vectorParams 2 1).laneSwap = true → (9 * (2 : Word).toNat + (vectorParams 2 1).resetBytes) % 2 = 0) ∧
    (drawBit (powerOn (vectorParams 2 1) [false])).1 = false ∧
    (drawBit (powerOn (vectorParams 2 1) [true, false])).1 = true ∧
    (drawBit (drawBit (powerOn (vectorParams 2 1) [true, false])).2).1 = false := by decide +kernel

theorem witness_InitRefusesAnOddFrame :
    (powerOn (vectorParams 2 1) []).life = .absent ∧ (vectorParams 2 1).laneSwap = true ∧
    (9 * (1 : Word).toNat + (vectorParams 2 1).resetBytes) % 2 = 1 := by decide

theorem witness_RefreshRateIsTheTruncatedQuotient :
    two.life = .running ∧ 9 * two.pixcnt.toNat + two.params.resetBytes ≠ 0 ∧ two.params.wf ∧ (tearing 0).life ≠ .running ∧
    (fresh (vectorParams 0 1) 0).life = .running ∧
    9 * (fresh (vectorParams 0 1) 0).pixcnt.toNat + (fresh (vectorParams 0 1) 0).params.resetBytes = 0 := by decide

theorem witness_TerminationIsRequestedInOneStep : two.life = .running := rfl

/-- Each clause: acknowledged; one more examination allowed; the last one. -/
theorem witness_PollExaminesTheAcknowledgement :
    (tearing 1).life = .teardown ∧ ({ tearing 1 with exited := true } : State).exited = true ∧
    (tearing 1).exited = false ∧ (tearing 1).dpoll + 1 < (tearing 1).params.deinitRetryBound ∧
    (tearing 2).exited = false ∧ (tearing 2).params.deinitRetryBound ≤ (tearing 2).dpoll + 1 := by decide

theorem witness_ReleaseDestroysTheContext :
    ({ tearing 1 with exited := true } : State).life = .teardown ∧
    ({ tearing 1 with exited := true } : State).exited = true := by decide

theorem witness_TimeoutLeaksTheContext :
    (tearing 2).life = .teardown ∧ (tearing 2).exited = false ∧
    (tearing 2).params.deinitRetryBound ≤ (tearing 2).dpoll + 1 := by decide

theorem witness_StalledTeardownEndsInATimeout :
    (tearing 0).life = .teardown ∧ (tearing 0).exited = false ∧ (tearing 0).dpoll = 0 ∧ (tearing 0).params.wf ∧
    ({ tearing 0 with turns := [.poll, .poll, .poll] } : State).turns =
      List.replicate (tearing 0).params.deinitRetryBound .poll ++ [] := by decide

theorem witness_LeakedIsForGood :
    ∃ s t : State, s.life = .leaked ∧ step s = .next t :=
  ⟨{ tearing 2 with life := .leaked, turns := [.engine] }, _, rfl, rfl⟩

/-- A step that sets a STATUS bit, under one that is set. -/
theorem witness_StatusIsSticky :
    ∃ s t : State, step s = .next t ∧ s.status.getLsbD 0 = true ∧ t.status ≠ s.status :=
  ⟨{ tearing 2 with status := 1, turns := [.poll] }, _, rfl, by decide, by decide +kernel⟩

theorem witness_LengthIsFixedForAContext :
    ∃ s t : State, step s = .next t ∧ s.life.live = true :=
  ⟨{ two with turns := [.engine] }, _, rfl, rfl⟩

theorem witness_OnlyThePeripheralAppendsToTheWire :
    ∃ s t : State, step s = .next t ∧ t.wire ≠ s.wire :=
  ⟨{ streaming with perQ := [0x49, 0x92], turns := [.peripheral] }, _, rfl, by decide +kernel⟩

theorem witness_EngineTouchesOnlyItsOwnState :
    ∃ s t : State, (nextTurn s).1 = .engine ∧ step s = .next t ∧ t.perQ ≠ s.perQ :=
  ⟨{ streaming with turns := [.engine] }, _, rfl, rfl, by decide +kernel⟩

theorem witness_PeripheralTouchesOnlyItsOwnState :
    ∃ s t : State, (nextTurn s).1 = .peripheral ∧ step s = .next t ∧ t.wire ≠ s.wire :=
  ⟨{ streaming with perQ := [0x49, 0x92], turns := [.peripheral] }, _, rfl, rfl, by decide +kernel⟩

theorem witness_ProducersNeverTouchATransfer :
    ∃ s t : State, s.life.live = true ∧ t.life.live = true ∧ step s = .next t ∧ (nextTurn s).1 = .command ∧ t.fb ≠ s.fb :=
  ⟨commandTurn drained [0x80000001, 0, 0xFF0000], _, rfl, rfl, rfl, rfl, by decide +kernel⟩

/-- A failed allocation before any INIT has succeeded. -/
theorem witness_NothingMovesBeforeInit :
    ∃ s t : State, s.life = .absent ∧ step s = .next t ∧ t.life ≠ .running ∧ t.status ≠ s.status :=
  ⟨commandTurn (powerOn (vectorParams 2 1) [false]) [0, 2, 0], _, rfl, rfl, by decide +kernel, by decide +kernel⟩

theorem witness_DebugPortReadsTheState :
    two.life.live = true ∧ 19 < two.frameLen ∧ ¬ (two.life.live = true ∧ 20 < two.frameLen) ∧
    ¬ ((powerOn (vectorParams 2 1) []).life.live = true ∧ 0 < (powerOn (vectorParams 2 1) []).frameLen) := by decide

theorem witness_StepRunsTheDecodedCommand :
    (commandTurn two [0x40000000, 7]).turns = .command :: [] ∧ (commandTurn two [0x40000000, 7]).lock = false ∧
    decodeCommand (commandTurn two [0x40000000, 7]).cmds = .ok (.deinit, [7]) := ⟨rfl, rfl, rfl⟩

theorem witness_StepRunsTheAgentsStep :
    ({ two with turns := [.signal 0] } : State).turns = .signal 0 :: [] ∧
    ({ two with turns := [.poll] } : State).turns = .poll :: [] ∧
    ({ two with turns := [.engine] } : State).turns = .engine :: [] ∧
    decodePhase ({ two with turns := [.engine] } : State).phase.code = .ok .txWake ∧
    ({ two with turns := [.peripheral] } : State).turns = .peripheral :: [] ∧
    ({ streaming with perQ := [1, 2] } : State).emitEnabled ∧ ¬ two.emitEnabled ∧
    ({ two with turns := [.lookup 9] } : State).turns = .lookup 9 :: [] ∧
    ({ two with turns := [.makeColour 1 2 3] } : State).turns = .makeColour 1 2 3 :: [] ∧
    ({ two with turns := [.takeRed 7] } : State).turns = .takeRed 7 :: [] ∧
    ({ two with turns := [.takeGreen 7] } : State).turns = .takeGreen 7 :: [] ∧
    ({ two with turns := [.takeBlue 7] } : State).turns = .takeBlue 7 :: [] :=
  ⟨rfl, rfl, rfl, rfl, rfl, by decide, by decide, rfl, rfl, rfl, rfl, rfl⟩

/-- A transfer of V30's buffer after its first pair: two bytes on the wire, eighteen in the queue. -/
def midTransfer : State :=
  { two with
    fb := bufferOf v30Bytes
    wb := bufferOf v30Bytes
    phase := .tDrain
    perEn := true
    txidx := 20
    perQ := (v30Bytes.drop 2).map (BitVec.ofNat 8)
    wire := bitsOf [0x92, 0x49]
    turns := [.peripheral] }

theorem midTransfer_frame (m : Memory) (hm : m = bufferOf v30Bytes) : encodesFrame midTransfer.params 2 m := by
  subst hm
  refine ⟨fun i hi => ⟨if i = 0 then 0xFF0000 else 0, ?_⟩, fun o h1 h2 => ?_⟩
  · revert i; decide +kernel
  · have : o = 18 ∨ o = 19 := by
      have : frameLength midTransfer.params 2 = 20 := rfl
      have : (2 : Word).toNat = 2 := rfl
      omega
    rcases this with rfl | rfl <;> decide +kernel

theorem witness_EveryStepKeepsTheFrame : FrameInv midTransfer ∧ ∃ t, step midTransfer = .next t :=
  ⟨⟨by decide +kernel, by decide +kernel, fun _ => by decide, fun _ => midTransfer_frame _ rfl,
    fun _ => by decide +kernel, fun _ => by decide +kernel, fun h => absurd rfl h⟩, _, rfl⟩

theorem midTransfer_engine : EngineInv midTransfer where
  lockFree := rfl
  enabledIff := fun _ => by decide
  queueEmpty := fun _ h => absurd (by decide) h
  wholeUnits := fun _ => by decide
  streamedAll := fun _ _ => by decide
  drainStrategy := fun _ _ => rfl
  resendStrategy := fun _ h => by cases h
  doneOnlyDrained := fun _ h => by cases h
  exitedIff := fun _ => by decide
  exitedOnRequest := fun _ h => by cases h
  termIff := fun _ => by decide
  rateConfigured := fun _ => rfl
  pollsBounded := fun _ h => by cases h
  released := fun h => by cases h
  noQueue := fun h => absurd rfl h
  statusReserved := by decide

theorem witness_EveryStepKeepsTheEngineConsistent :
    FrameInv midTransfer ∧ EngineInv midTransfer ∧ ∃ t, step midTransfer = .next t :=
  ⟨witness_EveryStepKeepsTheFrame.1, midTransfer_engine, _, rfl⟩

/-- The one snapshot taken: the frame of V30's buffer (R163). -/
def v30Frame : List Bool :=
  bitsOf [0x92, 0x49, 0x24, 0xDB, 0x6D, 0xB6, 0x92, 0x49, 0x24, 0x92, 0x49, 0x24, 0x92, 0x49, 0x24, 0x92, 0x49, 0x24, 0, 0]

theorem midTransfer_wire : WireInv (fun f => f = v30Frame) midTransfer where
  wbEncodes := fun _ _ => midTransfer_frame _ rfl
  wbSnapshot := fun _ _ => by decide +kernel
  lastFrame := fun _ h => absurd h (by decide)
  frames := ⟨[], bitsOf [0x92, 0x49], rfl, by simp, fun _ => by decide +kernel, fun h => absurd (by decide) h⟩

theorem witness_EveryStepKeepsTheWireWhole :
    FrameInv midTransfer ∧ EngineInv midTransfer ∧ WireInv (fun f => f = v30Frame) midTransfer ∧
    ∃ t, step midTransfer = .next t :=
  ⟨witness_EveryStepKeepsTheFrame.1, midTransfer_engine, midTransfer_wire, _, rfl⟩

theorem witness_EveryStepKeepsUpdatesFromBeingLost :
    FrameInv midTransfer ∧ EngineInv midTransfer ∧ NoUpdateLost midTransfer ∧ ∃ t, step midTransfer = .next t :=
  ⟨witness_EveryStepKeepsTheFrame.1, midTransfer_engine, fun _ => .inr (.inl ⟨fun _ _ => rfl, .inr rfl⟩), _, rfl⟩

/-- The state before the snapshot of V30's buffer, with the turns of one transfer. -/
def beforeSnapshot : State :=
  { two with
    fb := bufferOf v30Bytes
    phase := .tSnap
    turns := [.engine, .engine, .engine] ++ List.replicate 10 .peripheral ++ [.peripheral, .engine, .engine] }

/-- The snapshot step of that transfer adds V30's frame to the snapshots taken. -/
theorem test_snapshotsAfter :
    snapshotsAfter (fun _ => False) beforeSnapshot (andThen (step beforeSnapshot) beforeSnapshot) v30Frame :=
  .inr ⟨rfl, by decide +kernel, by decide +kernel⟩

/-- V30's buffer transmitted, the engine idle, a poller's turn with nothing to poll. -/
def transmitted : State :=
  { two with fb := bufferOf v30Bytes, wb := bufferOf v30Bytes, txidx := 20, wire := v30Frame, turns := [.poll] }

theorem transmitted_engine : EngineInv transmitted where
  lockFree := rfl
  enabledIff := fun _ => by decide
  queueEmpty := fun _ _ => rfl
  wholeUnits := fun _ => rfl
  streamedAll := fun _ _ => rfl
  drainStrategy := fun _ _ => rfl
  resendStrategy := fun _ h => by cases h
  doneOnlyDrained := fun _ h => by cases h
  exitedIff := fun _ => by decide
  exitedOnRequest := fun _ h => by cases h
  termIff := fun _ => by decide
  rateConfigured := fun _ => rfl
  pollsBounded := fun _ h => by cases h
  released := fun h => by cases h
  noQueue := fun h => absurd rfl h
  statusReserved := by decide

theorem transmitted_frame : FrameInv transmitted :=
  ⟨by decide +kernel, by decide +kernel, fun _ => by decide, fun _ => midTransfer_frame _ rfl,
    fun _ => by decide +kernel, fun _ => by decide +kernel, fun h => absurd rfl h⟩

theorem v30Frame_of_colours : v30Frame = wireFrame transmitted.params [0xFF0000, 0] := by decide +kernel

theorem transmitted_wire : WireInv (fun f => f = v30Frame) transmitted where
  wbEncodes := fun _ h => absurd h (by decide)
  wbSnapshot := fun _ h => absurd h (by decide)
  lastFrame := fun _ _ _ => ⟨[], by decide +kernel⟩
  frames := ⟨[v30Frame], [], by simp [transmitted], fun f h => by
    rw [List.mem_singleton.1 h]
    exact ⟨rfl, _, v30Frame_of_colours⟩, fun h => absurd h (by decide), fun _ => rfl⟩

theorem witness_QuiescentStatesAreFinal :
    transmitted.quiescent ∧ transmitted.turns = .poll :: [] ∧ FrameInv transmitted ∧ EngineInv transmitted ∧
    WireInv (fun f => f = v30Frame) transmitted ∧ NoUpdateLost transmitted ∧ transmitted.cleanEnd ∧
    transmitted.life = .running :=
  ⟨by decide, rfl, transmitted_frame, transmitted_engine, transmitted_wire,
    fun _ => .inr (.inl ⟨fun _ _ => rfl, .inr rfl⟩), by decide, rfl⟩

/-- The fresh context of INIT, before any update: the exception in NoUpdateLost. -/
theorem two_noUpdateLost : NoUpdateLost { two with txidx := 0 } :=
  fun _ => .inr (.inr ⟨rfl, rfl, by decide +kernel⟩)

theorem witness_OneTransferEmitsTheFrame :
    beforeSnapshot.life.live = true ∧ beforeSnapshot.phase = .tSnap ∧ beforeSnapshot.lock = false ∧
    beforeSnapshot.params.txStrategy = .completionWait ∧ evenFrame beforeSnapshot.params beforeSnapshot.pixcnt ∧
    beforeSnapshot.perQ = [] ∧ beforeSnapshot.writeTakes = [] ∧
    beforeSnapshot.turns = [.engine, .engine, .engine] ++
      List.replicate (beforeSnapshot.frameLen / emitUnit beforeSnapshot.params) .peripheral ++
      [.peripheral, .engine, .engine] ++ [] := by decide

/-- A context with V30's buffer committed and signalled, and the turns of its transmission. -/
def signalled : State :=
  { two with
    fb := bufferOf v30Bytes
    sig := true
    turns := List.replicate 5 .engine ++ List.replicate 11 .peripheral ++ [.engine, .engine] }

/-- The run from it, free turns after the transmission. -/
def transmission : Nat → State
  | 0 => signalled
  | n + 1 => andThen (step (transmission n)) (transmission n)

/-- Nothing left to do in RUNNING, and no turn, word or call given. -/
abbrev resting (s : State) : Prop :=
  s.quiescent ∧ s.life = .running ∧ s.phase = .tIdle ∧ s.perEn = false ∧ s.turns = [] ∧ s.cmds = []

theorem resting_step {s : State} (h : resting s) : ∃ t, step s = .next t ∧ resting t := by
  obtain ⟨⟨h1, h2, h3, h4⟩, h5, h6, h7, h8, h9⟩ := h
  have h4' : s.sig = false ∧ s.term = false := by simpa [h6] using h4
  cases ht : Config.freeTurn s.tick <;>
    simp [step, fetch, nextTurn, operationOf, h8, ht, takeCommand, h9, exec, execSpSignal, h1, execDiPoll, h5,
      engineStep, h6, Phase.code, decodePhase, execTxWake, State.wakeEnabled, h4', peripheralStep, State.emitEnabled, h7,
      execPerComplete, State.completeEnabled, execEncode, execRgb, execRed, execGreen, execBlue] <;>
    exact ⟨⟨rfl, nofun, h3, .inl ⟨rfl, rfl, rfl⟩⟩, rfl, rfl, rfl, rfl, rfl⟩

theorem transmission_first :
    (∀ n < 18, (after id (step (transmission n))).isSome = true) ∧ resting (transmission 18) := by decide +kernel

theorem transmission_resting (n : Nat) : resting (transmission (18 + n)) := by
  induction n with
  | zero => exact transmission_first.2
  | succ n ih =>
    obtain ⟨t, h, ht⟩ := resting_step ih
    show resting (andThen (step (transmission (18 + n))) (transmission (18 + n)))
    rw [h]
    exact ht

theorem transmission_isRun : IsRun transmission := by
  intro n
  have h : (after id (step (transmission n))).isSome = true := by
    by_cases hn : n < 18
    · exact transmission_first.1 n hn
    · obtain ⟨t, h, -⟩ := resting_step (transmission_resting (n - 18))
      rw [show 18 + (n - 18) = n by omega] at h
      rw [h]
      rfl
  show step (transmission n) = .next (andThen (step (transmission n)) (transmission n))
  cases hs : step (transmission n) <;> rw [hs] at h
  · rfl
  · cases h
  · cases h

theorem transmission_fair : WeaklyFair transmission := by
  refine ⟨fun n h => ?_, fun n h => ?_⟩ <;>
    (have he := h (18 + n) (by omega); obtain ⟨⟨-, -, h3, h4⟩, -, h6, h7, -, -⟩ := transmission_resting n)
  · exfalso
    simp_all [State.engineEnabled, State.wakeEnabled, State.snapshotEnabled, State.drainEnabled, State.resendEnabled,
      State.engineAt]
  · exfalso
    simp_all [State.peripheralEnabled, State.emitEnabled, State.completeEnabled]

theorem signalled_engine : EngineInv signalled where
  lockFree := rfl
  enabledIff := fun _ => by decide
  queueEmpty := fun _ _ => rfl
  wholeUnits := fun _ => rfl
  streamedAll := fun _ h => absurd h (by decide)
  drainStrategy := fun _ _ => rfl
  resendStrategy := fun _ h => by cases h
  doneOnlyDrained := fun _ h => by cases h
  exitedIff := fun _ => by decide
  exitedOnRequest := fun _ h => by cases h
  termIff := fun _ => by decide
  rateConfigured := fun _ => rfl
  pollsBounded := fun _ h => by cases h
  released := fun h => by cases h
  noQueue := fun h => absurd rfl h
  statusReserved := by decide

/-- Both clauses: before the transmission, and within it, with V30's buffer in the queue. -/
theorem witness_FairRunsTransmitEveryUpdate :
    IsRun transmission ∧ WeaklyFair transmission ∧ FrameInv (transmission 0) ∧ EngineInv (transmission 0) ∧
    (transmission 0).life = .running ∧ (transmission 0).sig = true ∧ (transmission 0).term = false ∧
    (transmission 5).perQ.map BitVec.toNat = v30Bytes :=
  ⟨transmission_isRun, transmission_fair,
    ⟨by decide +kernel, by decide +kernel, fun _ => by decide, fun _ => midTransfer_frame _ rfl,
      fun _ => by decide +kernel, fun _ => by decide +kernel, fun h => absurd rfl h⟩,
    signalled_engine, rfl, rfl, rfl, by decide +kernel⟩

end Sys2Proof.Tests
end

section
/-! The memory's lane swap (R68). -/

namespace Sys2Proof.Machine

theorem phys_eq_xor_one {p : Params} (h : p.laneSwap = true) (o : Nat) : phys p o = o ^^^ 1 := by simp [phys, h]

theorem phys_involutive (p : Params) : Function.Involutive (phys p) := by
  intro o
  cases h : p.laneSwap
  · rw [phys_off h, phys_off h]
  · rw [phys_eq_xor_one h, phys_eq_xor_one h, Nat.xor_xor_cancel_right]

/-- Settles O10: `phys` stays within an even frame (`phys_lt`) and undoes itself, with the lane swap since XOR 1 twice
cancels (R68). -/
theorem laneSwapIsAnInvolutionOfTheFrame : Obligations.LaneSwapIsAnInvolutionOfTheFrame :=
  fun p _ o he ho => ⟨phys_lt he ho, phys_involutive p o, fun h => phys_eq_xor_one h o, fun h => phys_off h o⟩

end Sys2Proof.Machine
end

section
/-! The words a command takes from the port (R104). -/

namespace Sys2Proof

theorem takeRecords_takes {n : Nat} {ws rest : List Word} {us : List PixelUpdate}
    (h : takeRecords n ws = some (us, rest)) : ∃ taken, ws = taken ++ rest ∧ taken.length = 2 * n := by
  induction n, ws using takeRecords.induct generalizing us rest with
  | case1 ws =>
    simp only [takeRecords, Option.some.injEq, Prod.mk.injEq] at h
    exact ⟨[], h.2, rfl⟩
  | case2 n i c ws us' rest' e ih =>
    simp only [takeRecords, e, Option.some.injEq, Prod.mk.injEq] at h
    obtain ⟨-, rfl⟩ := h
    obtain ⟨taken, rfl, hl⟩ := ih e
    exact ⟨i :: c :: taken, rfl, by simp only [List.length_cons, hl]; omega⟩
  | case3 n i c ws e => simp [takeRecords, e] at h
  | case4 | case5 => simp [takeRecords] at h

/-- What a decoded command can be: one case for each value of `op` (R100 to R103). -/
theorem decodeCommand_cases {h : Word} {ws rest : List Word} {i : Instr} (e : decodeCommand (h :: ws) = .ok (i, rest)) :
    (headerOp h = 0b10#2 ∧ ∃ us, takeRecords (headerN h) ws = some (us, rest) ∧ i = .setPixel us) ∨
    (headerOp h = 0b00#2 ∧ headerN h = 0 ∧ ∃ n d, ws = n :: d :: rest ∧ i = .init n d) ∨
    (headerOp h = 0b01#2 ∧ headerN h = 0 ∧ ws = rest ∧ i = .deinit) ∨
    (headerOp h = 0b11#2 ∧ headerN h = 0 ∧ ws = rest ∧ i = .getRefreshRate) := by
  simp only [decodeCommand] at e
  split at e
  next hop =>
    split at e
    next us _ hus =>
      cases e
      exact .inl ⟨hop, us, hus, rfl⟩
    next => cases e
  next hop =>
    split at e
    next hn =>
      split at e
      next n d _ =>
        cases e
        exact .inr (.inl ⟨hop, hn, n, d, rfl, rfl⟩)
      all_goals cases e
    next => cases e
  next hop =>
    split at e
    next hn =>
      cases e
      exact .inr (.inr (.inl ⟨hop, hn, rfl, rfl⟩))
    next => cases e
  next h10 h00 h01 =>
    split at e
    next hn =>
      cases e
      have hop : headerOp h = 0b11#2 := by
        generalize headerOp h = op at h10 h00 h01 ⊢
        revert op
        decide
      exact .inr (.inr (.inr ⟨hop, hn, rfl, rfl⟩))
    next => cases e

/-- The words taken are the header and its operands: the records of SETPIXEL, the two words of INIT, or none (R104). -/
theorem decodeCommand_takes {h : Word} {ws rest : List Word} {i : Instr} (e : decodeCommand (h :: ws) = .ok (i, rest)) :
    ∃ taken, h :: ws = taken ++ rest ∧ taken.length = commandLength h := by
  obtain ⟨hop, us, hus, -⟩ | ⟨hop, -, n, d, rfl, -⟩ | ⟨hop, -, rfl, -⟩ | ⟨hop, -, rfl, -⟩ := decodeCommand_cases e
  · obtain ⟨taken, rfl, hl⟩ := takeRecords_takes hus
    exact ⟨h :: taken, rfl, by simp only [commandLength, hop, List.length_cons, hl]; omega⟩
  · exact ⟨[h, n, d], rfl, by simp [commandLength, hop]⟩
  · exact ⟨[h], rfl, by simp [commandLength, hop]⟩
  · exact ⟨[h], rfl, by simp [commandLength, hop]⟩

theorem commandLength_eq_ite (h : Word) :
    commandLength h = if headerOp h = 0b10#2 then 1 + 2 * headerN h else if headerOp h = 0b00#2 then 3 else 1 := by
  unfold commandLength
  split
  next hop => simp [hop]
  next hop => simp [hop]
  next h00 h10 => rw [if_neg h10, if_neg h00]

/-- Settles O3: for each value of `op` the decoder takes `commandLength` words of the port (`decodeCommand_takes`), for
SETPIXEL by induction on the records (R104). -/
theorem headerGivesTheCommandLength : Obligations.HeaderGivesTheCommandLength := by
  intro h ws rest i e
  obtain ⟨taken, hw, hl⟩ := decodeCommand_takes e
  exact ⟨taken, hw, hl.trans (commandLength_eq_ite h)⟩

end Sys2Proof
end

section
/-! The batch of SETPIXEL and its invalid records (R131, R132). -/

namespace Sys2Proof.Machine

/-- SETPIXEL's first step, in RUNNING with LOCK free, applies the batch inside the critical section; the call then waits
for its signal step. -/
theorem exec_setPixel_of_applyRecords {us : List PixelUpdate} {s t : State} {ok : Bool} (hrun : s.life = .running)
    (hlock : s.lock = false) (h : applyRecords us true (enterLock s) = .ok (ok, t)) :
    exec (.setPixel us) s = .next { exitLock t with calls := t.calls ++ [⟨ok, false⟩] } := by
  show commitBatch us s = _
  simp [commitBatch, hrun, hlock, h]

theorem applyRecords_cons_invalid {u : PixelUpdate} {s : State} (hu : validRecord s u = false) (us : List PixelUpdate)
    (ok : Bool) : applyRecords (u :: us) ok s = applyRecords us false (raiseError .invalidIndex s) :=
  if_pos (by simpa [validRecord] using hu)

theorem applyRecords_cons_valid {u : PixelUpdate} {s : State} (hu : validRecord s u = true) (us : List PixelUpdate)
    (ok : Bool) :
    applyRecords (u :: us) ok s =
      (writePixel s.params s.frameLen u.index.toNat u.colour s.fb).bind fun m => applyRecords us ok { s with fb := m } := by
  have hlt : ¬ s.pixcnt.toNat ≤ u.index.toNat := by simpa [validRecord] using hu
  rw [applyRecords, if_neg hlt]
  cases writePixel s.params s.frameLen u.index.toNat u.colour s.fb <;> rfl

/-- Without its invalid records a batch leaves the same frame buffer, whatever STATUS was, and neither changes `ok` nor
raises an error (R132). -/
theorem applyRecords_filter_valid {us : List PixelUpdate} {s t : State} {ok ok' : Bool}
    (h : applyRecords us ok s = .ok (ok', t)) (fok : Bool) (status : BitVec 8) :
    applyRecords (us.filter (validRecord s)) fok { s with status := status } =
      .ok (fok, { s with status := status, fb := t.fb }) := by
  induction us generalizing ok s with
  | nil =>
    cases h
    rfl
  | cons u us ih =>
    cases hu : validRecord s u with
    | false =>
      rw [applyRecords_cons_invalid hu] at h
      rw [List.filter_cons_of_neg (by simp [hu])]
      exact ih (s := raiseError .invalidIndex s) h
    | true =>
      rw [applyRecords_cons_valid hu] at h
      rw [List.filter_cons_of_pos hu, applyRecords_cons_valid (s := { s with status := status }) hu]
      cases hm : writePixel s.params s.frameLen u.index.toNat u.colour s.fb with
      | ok m =>
        rw [hm] at h
        exact (congrArg (Except.bind · _) hm).trans (ih (s := { s with fb := m }) h)
      | error f =>
        rw [hm] at h
        cases h

theorem batchOk_eq_false {s : State} {us : List PixelUpdate} :
    batchOk s us = false ↔ ∃ u ∈ us, s.pixcnt.toNat ≤ u.index.toNat := by
  simp [batchOk, validRecord]

theorem validRecord_of_pixcnt_zero {s : State} (h : s.pixcnt = 0) (u : PixelUpdate) : validRecord s u = false := by
  simp [validRecord, h]

/-- No PIXCNT is above the greatest index, so a record with it is never valid. -/
theorem validRecord_max_index (s : State) (c : Colour) : validRecord s ⟨0xFFFFFFFF, c⟩ = false := by
  have hmax : s.pixcnt.toNat ≤ 0xFFFFFFFF := Nat.le_of_lt_succ s.pixcnt.isLt
  simpa [validRecord] using hmax

/-- Settles O13: the batch and its valid records alone write the same pixels in the same order
(`applyRecords_filter_valid`, by induction on the records); an invalid record only sets its STATUS bit (R132). -/
theorem invalidRecordsAreSkipped : Obligations.InvalidRecordsAreSkipped := by
  refine ⟨fun s records hrun hlock heven => ?_, fun _ u h => validRecord_of_pixcnt_zero h u, validRecord_max_index⟩
  obtain ⟨⟨ok, t⟩, ht⟩ := applyRecords_ends (s := enterLock s) heven records true
  have hvalid := applyRecords_filter_valid ht true s.status
  refine ⟨_, _, exec_setPixel_of_applyRecords hrun hlock ht, exec_setPixel_of_applyRecords hrun hlock hvalid,
    rfl, rfl, fun hinv => ?_⟩
  have hstatus : t.status = _ := congrArg State.status (applyRecords_ok ht).1
  have hbad : batchOk (enterLock s) records = false := batchOk_eq_false.2 hinv
  simpa [hbad] using hstatus

end Sys2Proof.Machine
end

section
/-! The snapshot of the frame buffer and the peripheral's completion (R148, R156). -/

namespace Sys2Proof.Machine

theorem exec_txSnapshot_of_enabled {s : State} (h : s.snapshotEnabled) :
    exec .txSnapshot s = .next { s with wb := Memory.below s.fb s.frameLen, phase := .tEnable } :=
  if_pos h

/-- The one effect of an enabled PER_COMPLETE is the post of DONE (R156). -/
theorem exec_perComplete_of_enabled {s : State} (h : s.completeEnabled) :
    exec .perComplete s = .next (signalDone s) :=
  if_pos h

/-- Inside the frame WB holds after the copy what FB holds, at the same physical position (R148). -/
theorem Memory.read_below_of_lt (m : Memory) {n a : Nat} (ha : a < n) :
    Memory.read (Memory.below m n) a = Memory.read m a :=
  (Memory.read_below m n a).trans (if_pos ha)

/-- Settles O20: the snapshot's WB is FB cut to the frame (`exec_txSnapshot_of_enabled`), and the cut reads as FB at
every position below the frame's length (R148). -/
theorem snapshotCopiesTheFrame : Obligations.SnapshotCopiesTheFrame := by
  intro s hlive hphase hlock
  exact ⟨Memory.below s.fb s.frameLen, exec_txSnapshot_of_enabled ⟨⟨hlive, hphase⟩, hlock⟩,
    fun _ ha => Memory.read_below_of_lt s.fb ha⟩

/-- Settles O32: the premises are PER_COMPLETE's enabling condition, and its effect is the post of DONE (R156). -/
theorem completionOnlyPostsDone : Obligations.CompletionOnlyPostsDone := by
  intro s hlive hstrategy hen hphase hidx hqueue hdone
  exact exec_perComplete_of_enabled ⟨hlive, hstrategy, hen, hphase, hidx, hqueue, hdone⟩

end Sys2Proof.Machine
end

section
/-! The LIFE values of the commands (R181), and the answer of GETREFRESHRATE (R176). -/

namespace Sys2Proof.Machine

/-! ### Refusal outside the LIFE values -/

theorem execInit_refused {s : State} (ha : s.life ≠ .absent) (hd : s.life ≠ .destroyed) (n d : Word) :
    execInit n d s = .refused .outsideLifecycle :=
  if_neg (not_or.2 ⟨ha, hd⟩)

theorem commitBatch_refused {s : State} (h : s.life ≠ .running) (us : List PixelUpdate) :
    commitBatch us s = .refused .outsideLifecycle :=
  if_pos h

theorem execSpSignal_refused {s : State} {k : Nat} {c : PendingCall} (h : s.life ≠ .running)
    (hc : s.calls[k]? = some c) : execSpSignal k s = .refused .outsideLifecycle := by
  simp only [execSpSignal, hc]
  exact if_pos (.inl h)

theorem execGetRefreshRate_refused {s : State} (h : s.life ≠ .running) :
    execGetRefreshRate s = .refused .outsideLifecycle :=
  if_pos h

theorem requestTermination_refused {s : State} (h : s.life ≠ .running) :
    requestTermination s = .refused .outsideLifecycle :=
  if_pos h

/-- Settles O17: each operation of the table tests LIFE before it does anything else; SETPIXEL and SP_COMMIT are one
operation (`commitBatch_refused`), and so are DEINIT and DI_REQUEST (`requestTermination_refused`) (R181). -/
theorem commandsRefusedOutsideTheirLifecycle : Obligations.CommandsRefusedOutsideTheirLifecycle := by
  intro s n d records
  refine ⟨fun ha hd => execInit_refused ha hd n d, fun h => ?_⟩
  exact ⟨commitBatch_refused h records, commitBatch_refused h records, fun _ _ hc => execSpSignal_refused h hc,
    execGetRefreshRate_refused h, requestTermination_refused h, requestTermination_refused h⟩

/-! ### The refresh rate -/

/-- The quotient is at most `ProtocolBitRate`, so it fits the response word (R7, R176). -/
theorem refreshRate_lt {p : Params} (h : p.wf) (len : Nat) : refreshRate p len < 2 ^ 32 := by
  obtain ⟨-, hrate, -⟩ := h
  exact (Nat.div_le_self _ _).trans_lt hrate

theorem execGetRefreshRate_answers {s : State} (h : s.life = .running) (hl : s.frameLen ≠ 0) :
    execGetRefreshRate s = .next (respond (BitVec.ofNat 32 (refreshRate s.params s.frameLen)) s) := by
  rw [execGetRefreshRate, if_neg (not_not.2 h), if_neg hl]

theorem execGetRefreshRate_zeroFrameLength {s : State} (h : s.life = .running) (hl : s.frameLen = 0) :
    execGetRefreshRate s = .refused .zeroFrameLength := by
  rw [execGetRefreshRate, if_neg (not_not.2 h), if_pos hl]

/-- Settles O36: the response word is the quotient, which the word holds without loss (`refreshRate_lt`), and the only
change of state is its delivery (R176). -/
theorem refreshRateIsTheTruncatedQuotient : Obligations.RefreshRateIsTheTruncatedQuotient := by
  intro s
  refine ⟨fun h hl hwf => ?_, execGetRefreshRate_zeroFrameLength, execGetRefreshRate_refused⟩
  refine ⟨_, execGetRefreshRate_answers h hl, ?_⟩
  rw [BitVec.toNat_ofNat, Nat.mod_eq_of_lt (refreshRate_lt hwf s.frameLen)]
  rfl

end Sys2Proof.Machine
end

section
/-! Termination against a pending update (R217): the engine's turn at a wake and at a check that finds TERM = 1. -/

namespace Sys2Proof.Machine

theorem exec_txWake_of_enabled {s : State} (h : s.wakeEnabled) :
    exec .txWake s = .next { s with sig := false, phase := .tCheck } :=
  if_pos h

theorem exec_txCheck_of_term {s : State} (h : s.exitEnabled) :
    exec .txCheck s = .next { s with exited := true, phase := .tExited } :=
  (if_pos h.1).trans (if_pos h.2)

/-- An engine's turn at a wake consumes SIG and goes on to the check (R146). -/
theorem step_wake {s : State} {ts : List Turn} (ht : s.turns = .engine :: ts) (h : s.wakeEnabled) :
    step s = .next { s with sig := false, phase := .tCheck, turns := ts } := by
  have hturn := nextTurn_of_turns ht
  rw [step_engine (congrArg Prod.fst hturn), h.1.2, hturn]
  exact exec_txWake_of_enabled (s := { s with turns := ts }) h

/-- An engine's turn at a check that finds TERM = 1 leaves the loop (R147). -/
theorem step_exit {s : State} {ts : List Turn} (ht : s.turns = .engine :: ts) (h : s.exitEnabled) :
    step s = .next { s with exited := true, phase := .tExited, turns := ts } := by
  have hturn := nextTurn_of_turns ht
  rw [step_engine (congrArg Prod.fst hturn), h.1.2, hturn]
  exact exec_txCheck_of_term (s := { s with turns := ts }) h

/-- Settles O28: the wake consumes SIG and leaves TERM as it was (`step_wake`), so the check that follows exits before
any snapshot (`step_exit`) (R217). -/
theorem terminationBeatsAPendingUpdate : Obligations.TerminationBeatsAPendingUpdate := by
  intro s ts hlive hphase hsig hterm hturns
  have hwake : step s = .next { s with sig := false, phase := .tCheck, turns := .engine :: ts } :=
    step_wake hturns ⟨⟨hlive, hphase⟩, .inl hsig⟩
  have hexit : step { s with sig := false, phase := .tCheck, turns := .engine :: ts } =
      .next { s with sig := false, exited := true, phase := .tExited, turns := ts } :=
    step_exit rfl ⟨⟨hlive, rfl⟩, hterm⟩
  rw [core_run_of_next hwake, core_run_of_next hexit, core_run_zero]

end Sys2Proof.Machine
end

section
/-! The decoder of the command port undoes the encoder, and refuses what is no command (R100 to R105, R110). -/

namespace Sys2Proof

/-! ### Decoding what was encoded -/

/-- The carrier's low 24 bits are the colour that was widened into it (R103). -/
theorem recordOfWords_words (u : PixelUpdate) : recordOfWords u.index (u.colour.setWidth 32) = u := by
  have h : (u.colour.setWidth 32).extractLsb' 0 24 = u.colour := by
    ext i hi
    simp [BitVec.getLsbD_eq_getElem hi]
    omega
  rw [recordOfWords, h]

theorem takeRecords_words (us : List PixelUpdate) (rest : List Word) :
    takeRecords us.length (us.flatMap wordsOfRecord ++ rest) = some (us, rest) := by
  induction us with
  | nil => rfl
  | cons u us ih => simp [wordsOfRecord, takeRecords, ih, recordOfWords_words]

/-- The header of a command without operands in `n` says `n = 0`. -/
theorem headerN_headerWord_zero (op : BitVec 2) : headerN (headerWord op 0) = 0 :=
  headerN_headerWord op (by decide)

/-- The four commands decode from their words, whatever follows on the port. -/
theorem decodeCommand_encode_append {i : Instr} (hwf : i.wf = true) {ws : List Word} (he : encode i = .command ws)
    (rest : List Word) : decodeCommand (ws ++ rest) = .ok (i, rest) := by
  cases i with
  | init n d =>
    cases he
    simp [decodeCommand, headerOp_headerWord, headerN_headerWord_zero]
  | deinit =>
    cases he
    simp [decodeCommand, headerOp_headerWord, headerN_headerWord_zero]
  | getRefreshRate =>
    cases he
    simp [decodeCommand, headerOp_headerWord, headerN_headerWord_zero]
  | setPixel us =>
    cases he
    have hn : us.length < 2 ^ 30 := by simpa [Instr.wf, recordsFit] using hwf
    simp [decodeCommand, headerOp_headerWord, headerN_headerWord _ hn, takeRecords_words]
  | _ => cases he

/-- Settles O1: a command decodes from its words by `decodeCommand_encode_append` (induction on the records of SETPIXEL);
an index into LUT and a code of PHASE decode by their tables, TX_EXIT's code being left out by `hasOwnEncoding`. -/
theorem decodeInvertsEncode : Obligations.DecodeInvertsEncode := by
  intro i hwf hown
  refine ⟨?_, fun ws he rest => decodeCommand_encode_append hwf he rest⟩
  cases he : encode i with
  | command ws =>
    show decodeCommand ws = _
    simpa using decodeCommand_encode_append hwf he []
  | unencoded => simp [hasOwnEncoding, he] at hown
  | lutIndex v => cases i <;> cases he; rfl
  | phaseCode c =>
    cases i with
    | txExit => simp [hasOwnEncoding] at hown
    | _ => cases he <;> rfl

/-- Settles O2: the decoders evaluate on fixed words. -/
theorem specWordsDecode : Obligations.SpecWordsDecode := by
  refine ⟨?_, ?_, ?_, ?_, ?_, ?_, ?_, ?_, ?_⟩ <;> rfl

/-! ### Words that are no command -/

theorem takeRecords_eq_none {n : Nat} {ws : List Word} (h : ws.length < 2 * n) : takeRecords n ws = none := by
  induction n, ws using takeRecords.induct with
  | case1 ws => simp at h
  | case2 n i c ws us rest e ih | case3 n i c ws e ih =>
    simp only [List.length_cons] at h
    rw [takeRecords, ih (by omega)]
  | case4 | case5 => rfl

theorem decodeCommand_reserved {h : Word} (hop : headerOp h ≠ 0b10#2) (hn : headerN h ≠ 0) (ws : List Word) :
    decodeCommand (h :: ws) = .error .reservedHeader := by
  simp only [decodeCommand]
  split
  next hop' => exact absurd hop' hop
  all_goals simp [hn]

theorem decodeCommand_truncated {h : Word} {ws : List Word} (hhead : headerOp h = 0b10#2 ∨ headerN h = 0)
    (hlen : (h :: ws).length < commandLength h) : decodeCommand (h :: ws) = .error .truncatedCommand := by
  rw [commandLength_eq_ite, List.length_cons] at hlen
  by_cases h10 : headerOp h = 0b10#2
  · rw [if_pos h10] at hlen
    have hnone : takeRecords (headerN h) ws = none := takeRecords_eq_none (by omega)
    simp [decodeCommand, h10, hnone]
  · have hn : headerN h = 0 := hhead.resolve_left h10
    rw [if_neg h10] at hlen
    by_cases h00 : headerOp h = 0b00#2
    · rw [if_pos h00] at hlen
      match ws, hlen with
      | [], _ => simp [decodeCommand, h00, hn]
      | [_], _ => simp [decodeCommand, h00, hn]
      | _ :: _ :: _, hlen => simp only [List.length_cons] at hlen; omega
    · rw [if_neg h00] at hlen
      omega

end Sys2Proof

namespace Sys2Proof.Machine

/-! ### A producer's turn -/

theorem step_command {s : State} {ts : List Turn} (ht : s.turns = .command :: ts) (hl : s.lock = false)
    {i : Instr} {rest : List Word} (hd : decodeCommand s.cmds = .ok (i, rest)) :
    step s = exec i { s with turns := ts, cmds := rest } := by
  have hne : s.cmds ≠ [] := by
    intro h
    rw [h] at hd
    cases hd
  simp [step, fetch, nextTurn_of_turns ht, operationOf, takeCommand, hl, hne, hd]

theorem step_command_refused {s : State} {ts : List Turn} (ht : s.turns = .command :: ts) (hl : s.lock = false)
    (hne : s.cmds ≠ []) {e : DecodeError} (hd : decodeCommand s.cmds = .error e) :
    step s = .refused (refusalOfWords e) := by
  simp [step, fetch, nextTurn_of_turns ht, operationOf, takeCommand, hl, hne, hd]

/-- Settles O52: LOCK is free and the port holds a command, so the producer's turn takes it (`step_command`). -/
theorem stepRunsTheDecodedCommand : Obligations.StepRunsTheDecodedCommand :=
  fun _ _ _ _ ht hl hd => step_command ht hl hd

/-- Settles O4: the decoder's two errors (`decodeCommand_reserved`, and `decodeCommand_truncated` by induction on the
records asked for) are the two refusals of the port (R105). -/
theorem portRefusesReservedAndTruncated : Obligations.PortRefusesReservedAndTruncated := by
  intro s ts h ws ht hl hc
  have hne : s.cmds ≠ [] := by simp [hc]
  refine ⟨fun hop hn => ?_, fun hhead hlen => ?_⟩
  · exact step_command_refused ht hl hne (hc ▸ decodeCommand_reserved hop hn ws)
  · exact step_command_refused ht hl hne (hc ▸ decodeCommand_truncated hhead hlen)

end Sys2Proof.Machine
end

section
/-! The lookup table, the colours and the decoding of a wire stream (R95, R107, R108, R120 to R122). -/

namespace Sys2Proof.Machine

/-! ### Entries of LUT -/

theorem encodeBytes_eq (v : Byte) : encodeBytes v = [lut v 0, lut v 1, lut v 2] :=
  List.map_congr_left fun _ hj => lutRead_entry v (List.mem_range.1 hj)

/-- Settles O7: ENCODE reads the three bytes of the entry (`encodeBytes_eq`) and writes `value` alone. -/
theorem encodeAnswersTheEntry : Obligations.EncodeAnswersTheEntry := by
  intro v s
  rw [← encodeBytes_eq]
  rfl

theorem shiftInTemplate_getLsbD (v : Byte) (w : BitVec 24) (n i : Nat) :
    (shiftInTemplate v w n).getLsbD i =
      (decide (i = 2) || (decide (i = 1) && v.getLsbD n) || (decide (3 ≤ i ∧ i < 24) && w.getLsbD (i - 3))) := by
  match i with
  | 0 | 1 | 2 => simp [shiftInTemplate]
  | i + 3 =>
    have h4 : (4#24).getLsbD (i + 3) = false := by
      rw [BitVec.getLsbD_ofNat, Nat.testBit_lt_two_pow, Bool.and_false]
      exact lt_of_lt_of_le (by decide : 4 < 2 ^ 3) (Nat.pow_le_pow_right (by decide) (by omega))
    simp [shiftInTemplate, h4]

/-- Slot by slot: the template `1, v[i], 0` in bits `3i+2`, `3i+1`, `3i` (R93, R94). -/
theorem lutSlots_getElem (v : Byte) {i : Nat} (hi : i < 24) :
    (lutSlots v)[i] = (decide (i % 3 = 2) || (decide (i % 3 = 1) && v.getLsbD (i / 3))) := by
  simp only [← BitVec.getLsbD_eq_getElem, lutSlots, List.foldl, shiftInTemplate_getLsbD]
  interval_cases i <;> simp

theorem lut_getElem (v : Byte) {j k : Nat} (hj : j < 3) (hk : k < 8) :
    (lut v j)[k] = (lutSlots v)[16 - 8 * j + k]'(by omega) := by
  rw [lut, BitVec.getElem_extractLsb', BitVec.getLsbD_eq_getElem (by omega)]

/-- Settles O5: the three ways to fill the table agree in each of the 24 slots, whose bits `lutSlots_getElem` gives. -/
theorem tableHasItsClosedForm : Obligations.TableHasItsClosedForm := by
  intro v
  refine ⟨?_, ?_, ?_, ?scan⟩
  case scan =>
    ext i hi
    rw [lutSlots_getElem]
    interval_cases i <;> simp [List.range, List.range.loop]
  all_goals
    ext k hk
    rw [lut_getElem v (by decide) hk, lutSlots_getElem]
    interval_cases k <;> simp

/-- The three pulse slots of one LED bit (R93). -/
def ledSlots (x : Bool) : List Bool := [true, x, false]

/-- An entry on the wire is the eight LED bits of its value, bit 7 first (R93, R94, R121). -/
theorem encodeBytes_slots (v : Byte) : (encodeBytes v).flatMap msbFirst = (msbFirst v).flatMap ledSlots := by
  simp [encodeBytes_eq, msbFirst, ledSlots, lut, lutSlots_getElem]

/-! ### Decoding a wire stream (R108) -/

/-- One received bit is shifted into the channel value. -/
def shiftInBit (v : Byte) (x : Bool) : Byte := (v <<< 1) ||| (BitVec.ofBool x).setWidth 8

theorem takeLedBits_slots (xs : List Bool) (v : Byte) (rest : List Bool) :
    takeLedBits xs.length v (xs.flatMap ledSlots ++ rest) = some (xs.foldl shiftInBit v, rest) := by
  induction xs generalizing v with
  | nil => rfl
  | cons x xs ih =>
    have hsym : symbolOf true x false = some (.bit x) := by cases x <;> rfl
    simp only [List.flatMap_cons, ledSlots, List.cons_append, List.nil_append, List.length_cons, takeLedBits, hsym]
    exact ih (shiftInBit v x)

theorem shiftInBit_getLsbD (v : Byte) (x : Bool) (i : Nat) :
    (shiftInBit v x).getLsbD i = (decide (i < 8) && if i = 0 then x else v.getLsbD (i - 1)) := by
  cases i <;> simp [shiftInBit]

theorem foldl_shiftInBit_msbFirst (v : Byte) : (msbFirst v).foldl shiftInBit 0 = v := by
  ext i hi
  simp only [← BitVec.getLsbD_eq_getElem hi, msbFirst, List.foldl, shiftInBit_getLsbD]
  interval_cases i <;> rfl

/-- A channel value is received from the slots of its entry. -/
theorem takeChannel_entry (v : Byte) (rest : List Bool) :
    takeChannel ((encodeBytes v).flatMap msbFirst ++ rest) = some (v, rest) := by
  have h := takeLedBits_slots (msbFirst v) 0 rest
  rwa [foldl_shiftInBit_msbFirst, ← encodeBytes_slots] at h

theorem count_ledSlots (xs : List Bool) :
    ((xs.flatMap ledSlots).filter id).length = xs.length + (xs.filter id).length := by
  induction xs with
  | nil => rfl
  | cons x xs ih =>
    cases x <;> simp [ledSlots, ih] <;> omega

/-- The first slot of an LED bit is high, its last one low, and every byte of an entry has one of each (R93, R122). -/
theorem lut_ne_gap (v : Byte) {j : Nat} (hj : j < 3) : lut v j ≠ 0x00 ∧ lut v j ≠ 0xFF := by
  have hhigh : (lut v j)[(4 - j) % 3] = true := by
    rw [lut_getElem v hj (by omega), lutSlots_getElem]
    interval_cases j <;> rfl
  have hlow : (lut v j)[(5 - j) % 3] = false := by
    rw [lut_getElem v hj (by omega), lutSlots_getElem]
    interval_cases j <;> rfl
  constructor <;> (intro h; rw [h] at hhigh hlow)
  · simp at hhigh
  · exact Bool.noConfusion ((BitVec.getElem_allOnes (v := 8) _ _).symm.trans hlow)

/-- Settles O6: an entry is injective since its value is received from its slots (`takeChannel_entry`); the slots give the
count of bits (`count_ledSlots`), and each byte of an entry has a high and a low one (`lut_ne_gap`). -/
theorem encodeIsInjectiveAndNeverAGap : Obligations.EncodeIsInjectiveAndNeverAGap := by
  refine ⟨fun u v h => ?_, fun v => ⟨by rw [encodeBytes_eq]; rfl, fun b hb => ?_, ?_⟩⟩
  · have hu := takeChannel_entry u []
    rw [h, takeChannel_entry] at hu
    simpa using hu.symm
  · obtain ⟨j, hj, rfl⟩ : ∃ j < 3, b = lut v j := by
      rw [encodeBytes_eq] at hb
      obtain rfl | rfl | rfl : b = lut v 0 ∨ b = lut v 1 ∨ b = lut v 2 := by simpa using hb
      exacts [⟨0, by decide, rfl⟩, ⟨1, by decide, rfl⟩, ⟨2, by decide, rfl⟩]
    exact lut_ne_gap v hj
  · rw [encodeBytes_slots, count_ledSlots, msbFirst_length]

/-! ### Colours (R90, R107) -/

/-- `RGB` puts its operands side by side. -/
theorem rgbOf_eq_append (r g b : Byte) : rgbOf r g b = r ++ (g ++ b) := by
  ext i hi
  rw [← BitVec.getLsbD_eq_getElem hi, ← BitVec.getLsbD_eq_getElem hi, BitVec.getLsbD_append, BitVec.getLsbD_append]
  by_cases h8 : i < 8
  · have h16 : i < 16 := by omega
    simp [rgbOf, hi, h8, h16]
  · by_cases h16 : i < 16
    · simp [rgbOf, hi, h8, h16, BitVec.getLsbD_of_ge b i (by omega)]
    · simp [rgbOf, hi, h8, h16, BitVec.getLsbD_of_ge b i (by omega), BitVec.getLsbD_of_ge g (i - 8) (by omega)]

theorem redOf_rgbOf (r g b : Byte) : redOf (rgbOf r g b) = r := by
  rw [rgbOf_eq_append, redOf]
  exact BitVec.extractLsb'_append_eq_left

theorem greenOf_rgbOf (r g b : Byte) : greenOf (rgbOf r g b) = g := by
  rw [rgbOf_eq_append, greenOf, BitVec.extractLsb'_append_eq_of_add_le (by decide)]
  exact BitVec.extractLsb'_append_eq_left

theorem blueOf_rgbOf (r g b : Byte) : blueOf (rgbOf r g b) = b := by
  rw [rgbOf_eq_append, blueOf, BitVec.extractLsb'_append_eq_of_add_le (by decide)]
  exact BitVec.extractLsb'_append_eq_right

theorem rgbOf_channels (c : Colour) : rgbOf (redOf c) (greenOf c) (blueOf c) = c := by
  rw [rgbOf_eq_append, redOf, greenOf, blueOf, 
    BitVec.extractLsb'_append_extractLsb'_eq_extractLsb' (start₂ := 8) (start₁ := 0) (len₁ := 8) rfl,
    BitVec.extractLsb'_append_extractLsb'_eq_extractLsb' (start₂ := 16) (start₁ := 0) (len₁ := 16) rfl]
  exact BitVec.extractLsb'_eq_self

/-! ### Pixels -/

/-- An encoded pixel is the entries of green, red and blue (R91, R96). -/
theorem pixelBytes_eq (c : Colour) :
    pixelBytes c = encodeBytes (greenOf c) ++ encodeBytes (redOf c) ++ encodeBytes (blueOf c) := by
  simp only [encodeBytes_eq]
  rfl

/-- Settles O8: `RGB` is the concatenation of its operands (`rgbOf_eq_append`), of which the other three are slices; a
pixel's nine bytes are three entries (`pixelBytes_eq`). -/
theorem colourOperationsPackAndUnpack : Obligations.ColourOperationsPackAndUnpack :=
  ⟨fun r g b _ => ⟨rfl, redOf_rgbOf r g b, greenOf_rgbOf r g b, blueOf_rgbOf r g b⟩,
    fun c _ => ⟨rfl, rfl, rfl, rfl, rfl, rfl, rgbOf_channels c, pixelBytes_eq c⟩⟩

theorem takePixel_pixelBytes (c : Colour) (rest : List Bool) :
    takePixel ((pixelBytes c).flatMap msbFirst ++ rest) = some (c, rest) := by
  simp only [pixelBytes_eq, List.flatMap_append, List.append_assoc, takePixel, takeChannel_entry, rgbOf_channels]

theorem takePixels_append (cs : List Colour) (rest : List Bool) :
    takePixels cs.length (cs.flatMap (fun c => (pixelBytes c).flatMap msbFirst) ++ rest) = some (cs, rest) := by
  induction cs with
  | nil => rfl
  | cons c cs ih =>
    simp only [List.flatMap_cons, List.append_assoc, List.length_cons, takePixels, takePixel_pixelBytes, ih]

/-- Settles O9: by induction on the colours (`takePixels_append`), each received from its three entries, themselves eight
LED bits each (`takeLedBits_slots`). -/
theorem wireDecodesToTheColours : Obligations.WireDecodesToTheColours :=
  fun p cs => takePixels_append cs (List.replicate (8 * p.resetBytes) false)

end Sys2Proof.Machine
end

section
/-! The stored byte sets of the pixels (R99), and what a batch leaves in the frame buffer (R131 to R138). -/

namespace Sys2Proof.Machine

/-! ### Stored byte sets -/

theorem storedSet_disjoint {p : Params} {i j a : Nat} (hij : i ≠ j) (ha : a ∈ storedSet p i) : a ∉ storedSet p j := by
  intro hb
  obtain ⟨k, hk, rfl⟩ := mem_storedSet.1 ha
  obtain ⟨l, hl, h⟩ := mem_storedSet.1 hb
  exact hij (pixelOffset_inj hk hl (phys_inj h.symm)).1

/-- The lane swap stays within aligned pairs, so it commutes with an even offset. -/
theorem phys_add_even {p : Params} (h : p.laneSwap = true) {n : Nat} (hn : n % 2 = 0) (k : Nat) :
    phys p (n + k) = n + phys p k := by
  rw [phys_on h, phys_on h]
  split <;> split <;> omega

theorem storedSet_even {p : Params} (h : p.laneSwap = true) {i : Nat} (hi : i % 2 = 0) :
    storedSet p i =
      [9 * i + 1, 9 * i, 9 * i + 3, 9 * i + 2, 9 * i + 5, 9 * i + 4, 9 * i + 7, 9 * i + 6, 9 * i + 9] := by
  have hmap : storedSet p i = (List.range 9).map fun k => 9 * i + phys p k :=
    List.map_congr_left fun k _ => phys_add_even h (by omega) k
  rw [hmap]
  simp [List.range, List.range.loop, phys_on h]

theorem storedSet_odd {p : Params} (h : p.laneSwap = true) {i : Nat} (hi : i % 2 = 1) :
    storedSet p i =
      [9 * i - 1, 9 * i + 2, 9 * i + 1, 9 * i + 4, 9 * i + 3, 9 * i + 6, 9 * i + 5, 9 * i + 8, 9 * i + 7] := by
  have hmap : storedSet p i = (List.range 9).map fun k => (9 * i - 1) + phys p (k + 1) :=
    List.map_congr_left fun k _ => by
      rw [pixelOffset, show 9 * i + k = (9 * i - 1) + (k + 1) by omega]
      exact phys_add_even h (by omega) (k + 1)
  rw [hmap]
  simp [List.range, List.range.loop, phys_on h]
  omega

/-- Settles O11: the positions of a pixel are the images of its offsets under the injection `phys` (`storedSet_disjoint`);
the lists follow from the swap's commuting with even offsets (`phys_add_even`). -/
theorem storedByteSetsOfPixels : Obligations.StoredByteSetsOfPixels :=
  fun _ _ => ⟨fun _ hij _ ha => storedSet_disjoint hij ha, fun h => storedSet_even h, fun h => storedSet_odd h,
    fun h => List.map_congr_left fun _ _ => phys_off h _⟩

/-! ### The batch -/

/-- What SETPIXEL's first step on the batch `us` leaves (R131 to R134). -/
structure Committed (us : List PixelUpdate) (s t : State) : Prop where
  state : t = { s with
    fb := t.fb
    status := if batchOk s us then s.status else s.status ||| 0x04#8
    calls := s.calls ++ [⟨batchOk s us, false⟩] }
  canonical : Memory.wf s.fb → Memory.wf t.fb
  pixel : ∀ i < s.pixcnt.toNat, ∀ k < 9, Memory.read t.fb (phys s.params (pixelOffset i k)) =
    match lastColour us i with
    | some c => pixelByte c k
    | none => Memory.read s.fb (phys s.params (pixelOffset i k))
  other : ∀ a, (∀ u ∈ us, u.index.toNat < s.pixcnt.toNat → a ∉ storedSet s.params u.index.toNat) →
    Memory.read t.fb a = Memory.read s.fb a

/-- SETPIXEL and SP_COMMIT complete in RUNNING with LOCK free, on every batch. -/
theorem commitBatch_committed {s : State} (hrun : s.life = .running) (hlock : s.lock = false)
    (heven : evenFrame s.params s.pixcnt) (us : List PixelUpdate) :
    ∃ t, commitBatch us s = .next t ∧ Committed us s t := by
  obtain ⟨⟨ok, u⟩, hu⟩ := applyRecords_ends (s := enterLock s) heven us true
  obtain ⟨-, hok, hwf, hpix, hother, -⟩ := applyRecords_ok hu
  obtain rfl : ok = batchOk s us := hok
  refine ⟨_, exec_setPixel_of_applyRecords hrun hlock hu, ?_, hwf, hpix, fun a ha => hother a fun v hv hvalid => ?_⟩
  · exact commit_state hu hlock
  · exact ha v hv (of_decide_eq_true hvalid)

namespace Committed

section
variable {us : List PixelUpdate} {s t : State} (h : Committed us s t)
include h

theorem params : t.params = s.params := by rw [h.state]
theorem pixcnt : t.pixcnt = s.pixcnt := by rw [h.state]
theorem life : t.life = s.life := by rw [h.state]
theorem lock : t.lock = s.lock := by rw [h.state]
theorem status : t.status = if batchOk s us then s.status else s.status ||| 0x04#8 := by rw [h.state]

theorem lb_of_lastColour {i k : Nat} (hi : i < s.pixcnt.toNat) (hk : k < 9) {c : Colour}
    (hc : lastColour us i = some c) : t.lb (pixelOffset i k) = pixelByte c k := by
  rw [State.lb, h.params, h.pixel i hi k hk, hc]

theorem lb_of_unnamed {i k : Nat} (hi : i < s.pixcnt.toNat) (hk : k < 9) (hc : lastColour us i = none) :
    t.lb (pixelOffset i k) = s.lb (pixelOffset i k) := by
  rw [State.lb, h.params, h.pixel i hi k hk, hc, State.lb]

/-- No batch touches a byte that belongs to no pixel. -/
theorem outside {a : Nat} (ha : ∀ i < s.pixcnt.toNat, a ∉ storedSet s.params i) :
    Memory.read t.fb a = Memory.read s.fb a :=
  h.other a fun _ _ hu => ha _ hu

end

end Committed

/-- Settles O12: both rows are one operation, which completes on every batch (`commitBatch_committed`, by induction on the
records). -/
theorem commitAppliesTheBatch : Obligations.CommitAppliesTheBatch := by
  intro s us hrun hlock heven
  obtain ⟨t, ht, hc⟩ := commitBatch_committed hrun hlock heven us
  exact ⟨t, ht, ht, hc.state, hc.pixel, hc.other⟩

/-- Every position is a byte of some pixel, or of none. -/
theorem position_cases (p : Params) (n a : Nat) :
    (∃ i < n, ∃ k < 9, a = phys p (pixelOffset i k)) ∨ ∀ i < n, a ∉ storedSet p i := by
  by_cases h : ∃ i < n, a ∈ storedSet p i
  · obtain ⟨i, hi, ha⟩ := h
    obtain ⟨k, hk, rfl⟩ := mem_storedSet.1 ha
    exact .inl ⟨i, hi, k, hk, rfl⟩
  · exact .inr fun i hi ha => h ⟨i, hi, ha⟩

/-- Frame buffers that agree on the bytes of each pixel, and on those of none, read alike. -/
theorem read_eq_of_lb_eq {t u : State} (hp : u.params = t.params)
    (hpix : ∀ i < t.pixcnt.toNat, ∀ k < 9, u.lb (pixelOffset i k) = t.lb (pixelOffset i k))
    (hother : ∀ a, (∀ i < t.pixcnt.toNat, a ∉ storedSet t.params i) → Memory.read u.fb a = Memory.read t.fb a) (a : Nat) :
    Memory.read u.fb a = Memory.read t.fb a := by
  rcases position_cases t.params t.pixcnt.toNat a with ⟨i, hi, k, hk, rfl⟩ | ha
  · have h := hpix i hi k hk
    rwa [State.lb, hp] at h
  · exact hother a ha

/-- Settles O15: a pixel that the batch names holds its last colour after either run, and every other byte is as before
(R74, R138). -/
theorem batchIsIdempotent : Obligations.BatchIsIdempotent := by
  intro s us hrun hlock heven
  obtain ⟨t, ht, hst⟩ := commitBatch_committed hrun hlock heven us
  obtain ⟨u, hu, htu⟩ := commitBatch_committed (hst.life.trans hrun) (hst.lock.trans hlock)
    (by rw [hst.params, hst.pixcnt]; exact heven) us
  refine ⟨t, u, ht, hu, read_eq_of_lb_eq htu.params (fun i hi k hk => ?_) fun _ => htu.outside⟩
  cases hc : lastColour us i with
  | none => exact htu.lb_of_unnamed hi hk hc
  | some c => rw [htu.lb_of_lastColour hi hk hc, hst.lb_of_lastColour (hst.pixcnt ▸ hi) hk hc]

theorem lastColour_disjoint {us vs : List PixelUpdate} (h : ∀ u ∈ us, ∀ v ∈ vs, u.index ≠ v.index) {i : Nat} {c : Colour}
    (hc : lastColour us i = some c) : lastColour vs i = none := by
  obtain ⟨u, hu, hui⟩ : ∃ u ∈ us, u.index.toNat = i := by
    by_contra hn
    push Not at hn
    rw [lastColour_none.2 hn] at hc
    cases hc
  exact lastColour_none.2 fun v hv hvi => h u hu v hv (BitVec.eq_of_toNat_eq (hui.trans hvi.symm))

/-- After two batches on disjoint pixels, whichever came first: the colours of both are in the frame, and a pixel that
neither names is as before. -/
theorem lb_after_disjoint {us vs : List PixelUpdate} {s t u : State} (h : ∀ u ∈ us, ∀ v ∈ vs, u.index ≠ v.index)
    (hst : Committed us s t) (htu : Committed vs t u) {i k : Nat} (hi : i < s.pixcnt.toNat) (hk : k < 9) :
    (∀ c, lastColour us i = some c → u.lb (pixelOffset i k) = pixelByte c k) ∧
      (∀ c, lastColour vs i = some c → u.lb (pixelOffset i k) = pixelByte c k) ∧
      (lastColour us i = none → lastColour vs i = none → u.lb (pixelOffset i k) = s.lb (pixelOffset i k)) := by
  have hi' : i < t.pixcnt.toNat := hst.pixcnt ▸ hi
  refine ⟨fun c hc => ?_, fun c hc => htu.lb_of_lastColour hi' hk hc, fun hu hv => ?_⟩
  · rw [htu.lb_of_unnamed hi' hk (lastColour_disjoint h hc), hst.lb_of_lastColour hi hk hc]
  · rw [htu.lb_of_unnamed hi' hk hv, hst.lb_of_unnamed hi hk hu]

/-- The InvalidIndex bit of two batches, in either order. -/
theorem status_after_two {us vs : List PixelUpdate} {s t u : State} (hst : Committed us s t) (htu : Committed vs t u) :
    u.status = if batchOk s us && batchOk s vs then s.status else s.status ||| 0x04#8 := by
  have hvs : batchOk t vs = batchOk s vs := by
    have hvalid : validRecord t = validRecord s := funext fun v => by rw [validRecord, hst.pixcnt, validRecord]
    rw [batchOk, hvalid, batchOk]
  rw [htu.status, hst.status, hvs]
  cases batchOk s us <;> cases batchOk s vs <;> simp [BitVec.or_assoc]

/-- Settles O16: no pixel is named by both batches, so in either order each holds the colour of the batch that names it
(`lb_after_disjoint`); canonical buffers that read alike are equal (R77). -/
theorem disjointBatchesCommute : Obligations.DisjointBatchesCommute := by
  intro s us vs hrun hlock heven hcanon hdis
  have second : ∀ {ws t} (_ : Committed ws s t) (xs : List PixelUpdate),
      ∃ u, commitBatch xs t = .next u ∧ Committed xs t u := fun h =>
    commitBatch_committed (h.life.trans hrun) (h.lock.trans hlock) (by rw [h.params, h.pixcnt]; exact heven)
  obtain ⟨t1, ht1, hst1⟩ := commitBatch_committed hrun hlock heven us
  obtain ⟨u1, hu1, hsu1⟩ := commitBatch_committed hrun hlock heven vs
  obtain ⟨t2, ht2, ht12⟩ := second hst1 vs
  obtain ⟨u2, hu2, hu12⟩ := second hsu1 us
  have hdis' : ∀ v ∈ vs, ∀ u ∈ us, v.index ≠ u.index := fun v hv u hu => (hdis u hu v hv).symm
  have ht {i k : Nat} (hi : i < s.pixcnt.toNat) (hk : k < 9) := lb_after_disjoint hdis hst1 ht12 hi hk
  have hu {i k : Nat} (hi : i < s.pixcnt.toNat) (hk : k < 9) := lb_after_disjoint hdis' hsu1 hu12 hi hk
  have hread : ∀ a, Memory.read t2.fb a = Memory.read u2.fb a := by
    have hp : u2.params = s.params := hu12.params.trans hsu1.params
    have hn : u2.pixcnt = s.pixcnt := hu12.pixcnt.trans hsu1.pixcnt
    refine read_eq_of_lb_eq ((ht12.params.trans hst1.params).trans hp.symm) (fun i hi k hk => ?_) fun a ha => ?_
    · rw [hn] at hi
      obtain ⟨tus, tvs, tnone⟩ := ht hi hk
      obtain ⟨uvs, uus, unone⟩ := hu hi hk
      cases hcu : lastColour us i with
      | some c => rw [tus c hcu, uus c hcu]
      | none =>
        cases hcv : lastColour vs i with
        | some c => rw [tvs c hcv, uvs c hcv]
        | none => rw [tnone hcu hcv, unone hcv hcu]
    · rw [hp, hn] at ha
      rw [ht12.outside (by rwa [hst1.params, hst1.pixcnt]), hst1.outside ha,
        hu12.outside (by rwa [hsu1.params, hsu1.pixcnt]), hsu1.outside ha]
  refine ⟨t1, t2, u1, u2, ht1, ht2, hu1, hu2, ?_, ?_, fun i hi k hk => ⟨(ht hi hk).1, (ht hi hk).2.1⟩⟩
  · exact Memory.ext (ht12.canonical (hst1.canonical hcanon)) (hu12.canonical (hsu1.canonical hcanon)) hread
  · rw [status_after_two hst1 ht12, status_after_two hsu1 hu12, Bool.and_comm]

/-- SP_SIGNAL of a call in progress that no DEINIT has overtaken. -/
theorem execSpSignal_answers {s : State} {k : Nat} {ok : Bool} (hk : s.calls[k]? = some ⟨ok, false⟩)
    (hrun : s.life = .running) :
    execSpSignal k s = .next (respond (okWord ok) { signalUpdate s with calls := s.calls.eraseIdx k }) := by
  simp [execSpSignal, hk, hrun]

theorem execSpSignal_late {s : State} {k : Nat} {ok : Bool} (hk : s.calls[k]? = some ⟨ok, true⟩) :
    execSpSignal k s = .refused .outsideLifecycle := by
  simp [execSpSignal, hk]

/-- Settles O14: `execSpSignal_answers` in RUNNING; elsewhere `execSpSignal_refused`, and `execSpSignal_late` for the call
that a DEINIT has overtaken. -/
theorem signalStepPostsOnceAndAnswers : Obligations.SignalStepPostsOnceAndAnswers := by
  intro s k ok late hk
  constructor
  · rintro hrun rfl
    exact execSpSignal_answers hk hrun
  · rintro (hlife | rfl)
    · exact execSpSignal_refused hlife hk
    · exact execSpSignal_late hk

end Sys2Proof.Machine
end

section
/-! The engine's steps and the peripheral's emission, each under its enabling condition (R146 to R155). -/

namespace Sys2Proof.Machine

/-! ### The engine -/

/-- Settles O18: the premises are TX_WAKE's enabling condition (R146). -/
theorem wakeConsumesTheSignal : Obligations.WakeConsumesTheSignal :=
  fun _ hlive hphase hpending => exec_txWake_of_enabled ⟨⟨hlive, hphase⟩, hpending⟩

theorem exec_txExit_of_enabled {s : State} (h : s.exitEnabled) :
    exec .txExit s = .next { s with exited := true, phase := .tExited } :=
  if_pos h

theorem exec_txCheck_of_not_term {s : State} (h : s.engineAt .tCheck) (hterm : s.term = false) :
    exec .txCheck s = .next { s with phase := .tSnap } :=
  (if_pos h).trans (if_neg (by simp [hterm]))

/-- Settles O19: the two branches of TX_CHECK on TERM, of which TX_EXIT is the first (R147). -/
theorem checkExitsOnTermination : Obligations.CheckExitsOnTermination := fun _ hlive hphase =>
  ⟨fun hterm => ⟨exec_txCheck_of_term ⟨⟨hlive, hphase⟩, hterm⟩, exec_txExit_of_enabled ⟨⟨hlive, hphase⟩, hterm⟩⟩,
    exec_txCheck_of_not_term ⟨hlive, hphase⟩⟩

theorem exec_txEnable_of_enabled {s : State} (h : s.engineAt .tEnable) :
    exec .txEnable s = .next { s with perEn := true, done := false, txidx := 0, phase := .tStream } :=
  if_pos h

/-- Settles O21: the premises are TX_ENABLE's enabling condition (R149). -/
theorem enableStartsATransfer : Obligations.EnableStartsATransfer :=
  fun _ hlive hphase => exec_txEnable_of_enabled ⟨hlive, hphase⟩

/-- The bytes that TX_STREAM hands over: WB in physical order (R150). -/
def State.streamBytes (s : State) : List Byte := (List.range s.frameLen).map fun a => Memory.read s.wb a

@[simp] theorem State.streamBytes_length (s : State) : s.streamBytes.length = s.frameLen := by simp [State.streamBytes]

theorem perWrite_accepts {bytes : List Byte} {s : State} {ns : List Nat}
    (h : s.writeTakes = [] ∧ ns = [] ∨ ∃ n, s.writeTakes = n :: ns ∧ bytes.length ≤ n) :
    perWrite bytes s = .ok { s with perQ := s.perQ ++ bytes, writeTakes := ns } := by
  obtain ⟨hw, rfl⟩ | ⟨n, hw, hn⟩ := h
  · simp [perWrite, hw]
  · simp [perWrite, hw, not_lt.2 hn]

theorem perWrite_short {bytes : List Byte} {s : State} {n : Nat} {ns : List Nat} (hw : s.writeTakes = n :: ns)
    (hn : n < bytes.length) : perWrite bytes s = .error .shortWrite := by
  simp [perWrite, hw, hn]

theorem execTxStream_eq {s : State} (h : s.engineAt .tStream) :
    execTxStream s =
      match perWrite s.streamBytes s with
      | .error f => .fault f
      | .ok t => .next { t with txidx := s.frameLen, phase := phaseAfterStream s.params } := by
  rw [execTxStream, if_pos h, memRead_all]
  rfl

theorem exec_txStream_accepted {s : State} {ns : List Nat} (h : s.engineAt .tStream)
    (hw : s.writeTakes = [] ∧ ns = [] ∨ ∃ n, s.writeTakes = n :: ns ∧ s.frameLen ≤ n) :
    exec .txStream s =
      .next { s with perQ := s.perQ ++ s.streamBytes, writeTakes := ns, txidx := s.frameLen,
                     phase := phaseAfterStream s.params } := by
  show execTxStream s = _
  rw [execTxStream_eq h, perWrite_accepts (by rwa [State.streamBytes_length])]

theorem phaseAfterStream_eq_ite (p : Params) :
    phaseAfterStream p = if p.txStrategy = .completionWait then .tDrain else .tResend := by
  unfold phaseAfterStream
  split
  next h => rw [h, if_pos rfl]
  next h => rw [h, if_neg TxStrategy.noConfusion]

/-- Settles O22: TX_STREAM ends as its Write does, which accepts the `L` bytes (`perWrite_accepts`) or falls short of them
(`perWrite_short`). -/
theorem streamHandsOverTheBuffer : Obligations.StreamHandsOverTheBuffer := by
  intro s hlive hphase
  constructor
  · intro ns hw
    rw [← phaseAfterStream_eq_ite]
    exact exec_txStream_accepted ⟨hlive, hphase⟩ hw
  · intro n ns hw hn
    show execTxStream s = _
    rw [execTxStream_eq ⟨hlive, hphase⟩, perWrite_short hw (by rwa [State.streamBytes_length])]

theorem exec_txDrain_of_enabled {s : State} (h : s.drainEnabled) :
    exec .txDrain s = .next { s with done := false, phase := .tDisable } :=
  if_pos h

/-- Settles O23: the premises are TX_DRAIN's enabling condition (R151). -/
theorem drainEndsTheWait : Obligations.DrainEndsTheWait :=
  fun _ hlive hphase hstrategy hdone => exec_txDrain_of_enabled ⟨⟨hlive, hphase⟩, hstrategy, hdone⟩

theorem exec_txResend_repeats {s : State} (h : s.resendEnabled) (hs : s.sig = false) (ht : s.term = false) :
    exec .txResend s = .next { s with txidx := 0, phase := .tStream } :=
  (if_pos h).trans (if_pos ⟨hs, ht⟩)

theorem exec_txResend_ends {s : State} (h : s.resendEnabled) (hp : s.sig = true ∨ s.term = true) :
    exec .txResend s = .next { s with phase := .tDisable } :=
  (if_pos h).trans (if_neg (by rcases hp with hp | hp <;> simp [hp]))

/-- Settles O24: the two branches of TX_RESEND, on whether SIG or TERM is pending (R154). -/
theorem resendRepeatsUntilSignalled : Obligations.ResendRepeatsUntilSignalled :=
  fun _ hlive hphase hstrategy hq =>
    ⟨exec_txResend_repeats ⟨⟨hlive, hphase⟩, hstrategy, hq⟩, exec_txResend_ends ⟨⟨hlive, hphase⟩, hstrategy, hq⟩⟩

theorem exec_txDisable_of_enabled {s : State} (h : s.engineAt .tDisable) :
    exec .txDisable s = .next { s with perEn := false, phase := .tIdle } :=
  if_pos h

/-- Settles O25: the premises are TX_DISABLE's enabling condition (R152). -/
theorem disableEndsTheTransfer : Obligations.DisableEndsTheTransfer :=
  fun _ hlive hphase => exec_txDisable_of_enabled ⟨hlive, hphase⟩

/-! ### The peripheral -/

theorem execPerEmit_emits {s : State} (h : s.emitEnabled) {bits : List Bool} {rest : List Byte}
    (he : emitFrom s.params s.perQ = some (bits, rest)) :
    execPerEmit s = .next { s with perQ := rest, wire := s.wire ++ bits } := by
  rw [execPerEmit, if_pos h, he]

theorem emitFrom_pair {p : Params} (h : p.laneSwap = true) (a b : Byte) (rest : List Byte) :
    emitFrom p (a :: b :: rest) = some (msbFirst b ++ msbFirst a, rest) := by
  simp [emitFrom, h]

theorem emitFrom_byte {p : Params} (h : p.laneSwap = false) (a : Byte) (rest : List Byte) :
    emitFrom p (a :: rest) = some (msbFirst a, rest) := by
  simp [emitFrom, h]

/-- Settles O31: the queue holds a whole unit, which `emitFrom_pair` or `emitFrom_byte` takes off it (R155). -/
theorem emitPutsAUnitOnTheWire : Obligations.EmitPutsAUnitOnTheWire := by
  intro s a b rest hlive hen
  constructor
  · intro hl hq
    have hunit : emitUnit s.params ≤ s.perQ.length := by simp [emitUnit_on hl, hq]
    rw [List.append_assoc]
    exact execPerEmit_emits ⟨hlive, hen, hunit⟩ (hq ▸ emitFrom_pair hl a b rest)
  · intro hl hq
    have hunit : emitUnit s.params ≤ s.perQ.length := by simp [emitUnit_off hl, hq]
    exact execPerEmit_emits ⟨hlive, hen, hunit⟩ (hq ▸ emitFrom_byte hl a rest)

end Sys2Proof.Machine
end

section
/-! The lifecycle: INIT, DEINIT and its steps (R170 to R180), power-on and the debug port (R41, R225). -/

namespace Sys2Proof.Machine

/-! ### INIT -/

theorem execInit_oddFrame {s : State} {n : Word} (hlife : s.life = .absent ∨ s.life = .destroyed)
    (hodd : ¬ evenFrame s.params n) (d : Word) : execInit n d s = .refused .oddFrameLength :=
  (if_pos hlife).trans (if_neg hodd)

/-- Settles O35: an odd frame length under the lane swap is what INIT's precondition excludes (R71, R170). -/
theorem initRefusesAnOddFrame : Obligations.InitRefusesAnOddFrame := by
  intro s n d hlife hl hodd
  refine execInit_oddFrame hlife (fun heven => ?_) d
  have h0 : (9 * n.toNat + s.params.resetBytes) % 2 = 0 := heven hl
  omega

section
variable {s : State} {n : Word} (hlife : s.life = .absent ∨ s.life = .destroyed) (heven : evenFrame s.params n)
include hlife heven

theorem execInit_eq (d : Word) : execInit n d s = createContext n d s :=
  (if_pos hlife).trans (if_pos heven)

theorem execInit_allocationFails (ha : (drawBit s).1 = false) (d : Word) :
    execInit n d s = .next (respond 1 (raiseError .allocationFailure (drawBit s).2)) := by
  simp [execInit_eq hlife heven, createContext, ha]

theorem execInit_configurationFails (ha : (drawBit s).1 = true) (hc : (drawBit (drawBit s).2).1 = false) (d : Word) :
    execInit n d s = .next (respond 2 (raiseError .configurationFailure (drawBit (drawBit s).2).2)) := by
  obtain ⟨fb, hfb⟩ := offFrame_ends heven
  simp [execInit_eq hlife heven, createContext, ha, hc, hfb]

theorem execInit_creates (ha : (drawBit s).1 = true) (hc : (drawBit (drawBit s).2).1 = true) (d : Word) :
    ∃ fb, offFrame s.params n = .ok fb ∧
      execInit n d s = .next (respond 0 (newContext n d fb (drawBit (drawBit s).2).2)) := by
  obtain ⟨fb, hfb⟩ := offFrame_ends heven
  exact ⟨fb, hfb, by simp [execInit_eq hlife heven, createContext, ha, hc, hfb]⟩

end

/-- Settles O34: the draws are tried in turn (`execInit_allocationFails`, `execInit_configurationFails`), and a draw moves
only the environment's answers (`drawBit_state`). -/
theorem failedInitChangesNothingElse : Obligations.FailedInitChangesNothingElse := by
  intro s n d hlife heven
  have h1 := drawBit_state s
  have h2 := drawBit_state (drawBit s).2
  refine ⟨fun ha => ⟨_, execInit_allocationFails hlife heven ha d, ?_⟩,
    fun ha hc => ⟨_, execInit_configurationFails hlife heven ha hc d, ?_⟩⟩
  · rw [h1]
    rfl
  · rw [h2, h1]
    rfl

/-- The off colour's entries are those of 0 in all three channels. -/
theorem pixelByte_off (k : Nat) : pixelByte 0 k = lut 0 (k % 3) := by
  have hch : channelOf 0 (k / 3) = 0 := by
    unfold channelOf
    split <;> rfl
  rw [pixelByte, hch]

/-- Settles O33: both draws hold, so `execInit_creates` applies; `newContext_state` gives the fields and `offFrame_ok` the
fresh frame buffer. -/
theorem initCreatesAFreshContext : Obligations.InitCreatesAFreshContext := by
  intro s n d hlife heven ha hc
  obtain ⟨fb, hfb, hexec⟩ := execInit_creates hlife heven ha hc d
  obtain ⟨-, hpix, hgap, -⟩ := offFrame_ok hfb
  obtain ⟨wb, sig, tick, draws, hstate, -, -⟩ := newContext_state n d fb s
  refine ⟨_, hexec, ?_, fun h0 => ?_, fun h1 => ?_, fun i hi k hk => ?_, fun o ho _ => ?_⟩
  · rw [hstate]
  · simp [newContext, drawInitSignal, h0]
  · simp [newContext, drawInitSignal, h1]
  · rw [hstate, State.lb]
    refine (hpix i hi k hk).trans ((pixelByte_off k).trans ?_)
    have : k % 3 < 3 := Nat.mod_lt _ (by decide)
    interval_cases k % 3 <;> rfl
  · rw [hstate, State.lb]
    exact hgap o ho

/-! ### DEINIT -/

theorem requestTermination_of_running {s : State} (h : s.life = .running) :
    requestTermination s =
      .next { s with
        life := .teardown, term := true, sig := true, dpoll := 0, calls := s.calls.map fun c => ⟨c.ok, true⟩ } :=
  if_neg (not_not.2 h)

/-- Settles O37: the request completes in RUNNING and leaves TEARDOWN, where O17 refuses the other commands (R177). -/
theorem terminationIsRequestedInOneStep : Obligations.TerminationIsRequestedInOneStep := by
  intro s h
  refine ⟨_, rfl, requestTermination_of_running h, requestTermination_of_running h, fun us => ?_, ?_⟩
  · exact ((commandsRefusedOutsideTheirLifecycle _ 0 0 us).2 (by simp)).1
  · exact ((commandsRefusedOutsideTheirLifecycle _ 0 0 []).2 (by simp)).2.2.2.1

theorem execDiPoll_releases {s : State} (h : s.releaseEnabled) : execDiPoll s = .next (releaseContext s) :=
  (if_pos h.1).trans (if_pos h.2)

theorem execDiPoll_counts {s : State} (hl : s.life = .teardown) (he : s.exited = false)
    (hb : s.dpoll + 1 < s.params.deinitRetryBound) : execDiPoll s = .next { s with dpoll := s.dpoll + 1 } :=
  (if_pos hl).trans ((if_neg (by simp [he])).trans (if_pos hb))

theorem execDiPoll_timesOut {s : State} (h : s.timeoutEnabled) :
    execDiPoll s = .next { s with life := .leaked, status := s.status ||| 0x08#8 } :=
  (if_pos h.1).trans ((if_neg (by simp [h.2.1])).trans (if_neg (not_lt.2 h.2.2)))

theorem execDiRelease_releases {s : State} (h : s.releaseEnabled) : execDiRelease s = .next (releaseContext s) :=
  if_pos h

theorem execDiTimeout_timesOut {s : State} (h : s.timeoutEnabled) :
    execDiTimeout s = .next { s with life := .leaked, status := s.status ||| 0x08#8 } :=
  if_pos h

/-- Settles O38: the three branches of DI_POLL, on EXITED and on the bound (R178). -/
theorem pollExaminesTheAcknowledgement : Obligations.PollExaminesTheAcknowledgement := fun _ hl =>
  ⟨fun he => ⟨_, execDiPoll_releases ⟨hl, he⟩, execDiRelease_releases ⟨hl, he⟩⟩, execDiPoll_counts hl,
    fun he hb => execDiPoll_timesOut ⟨hl, he, hb⟩⟩

/-- Settles O39: the release's state, field by field, is `releaseContext_state` (R179). -/
theorem releaseDestroysTheContext : Obligations.ReleaseDestroysTheContext :=
  fun s hl he => ⟨_, execDiRelease_releases ⟨hl, he⟩, releaseContext_state s⟩

/-- Settles O40: the premises are DI_TIMEOUT's enabling condition (R180). -/
theorem timeoutLeaksTheContext : Obligations.TimeoutLeaksTheContext :=
  fun _ hl he hb => execDiTimeout_timesOut ⟨hl, he, hb⟩

/-! ### Power-on and the debug port -/

/-- Settles O49: each is a field of the power-on state. -/
theorem powerOnStateIsAsGiven : Obligations.PowerOnStateIsAsGiven := ⟨rfl, rfl, rfl, rfl, rfl, rfl⟩

theorem debugByte_inside {s : State} {a : Nat} (hl : s.live) (ha : a < s.frameLen) (m : Memory) :
    debugByte s m a = .ok (.byte (Memory.read m a)) := by
  simp [debugByte, hl, memRead, Nat.succ_le_of_lt ha]

theorem debugByte_outside {s : State} {a : Nat} (h : ¬ (s.live ∧ a < s.frameLen)) (m : Memory) :
    debugByte s m a = .error .bufferBounds := by
  by_cases hl : s.live
  · have ha : ¬ a + 1 ≤ s.frameLen := fun ha => h ⟨hl, ha⟩
    simp [debugByte, memRead, ha]
  · exact if_neg hl

/-- Settles O51: the flags and counters are read as they are; a byte is read inside an existing buffer and nowhere else. -/
theorem debugPortReadsTheState : Obligations.DebugPortReadsTheState := fun s =>
  ⟨rfl, rfl, rfl, rfl, rfl, rfl, rfl, fun _ =>
    ⟨fun h => ⟨debugByte_inside h.1 h.2 s.fb, debugByte_inside h.1 h.2 s.wb⟩,
      fun h => ⟨debugByte_outside h s.fb, debugByte_outside h s.wb⟩⟩⟩

end Sys2Proof.Machine
end

section
/-! Turns: the operation each agent takes, the turns that pass (R145 to R156, R178), and the polls of a stalled
teardown (R180). -/

namespace Sys2Proof.Machine

/-! ### The turn's operation -/

theorem step_of_operation {s : State} {t : Turn} {ts : List Turn} (ht : s.turns = t :: ts) {i : Instr} {u : State}
    (ho : operationOf t { s with turns := ts } = .ok (some i, u)) : step s = exec i u := by
  simp only [step, fetch, nextTurn_of_turns ht, ho]

theorem step_of_no_operation {s : State} {t : Turn} {ts : List Turn} (ht : s.turns = t :: ts) {u : State}
    (ho : operationOf t { s with turns := ts } = .ok (none, u)) : step s = .next u := by
  simp only [step, fetch, nextTurn_of_turns ht, ho]

theorem operationOf_engine {s : State} {i : Instr} (h : decodePhase s.phase.code = .ok i) :
    operationOf .engine s = .ok (some i, s) := by
  rw [operationOf, engineStep, h]

theorem operationOf_peripheral_emit {s : State} (h : s.emitEnabled) :
    operationOf .peripheral s = .ok (some .perEmit, s) := by
  rw [operationOf, peripheralStep, if_pos h]

theorem operationOf_peripheral_complete {s : State} (h : ¬ s.emitEnabled) :
    operationOf .peripheral s = .ok (some .perComplete, s) := by
  rw [operationOf, peripheralStep, if_neg h]

/-- Settles O53: each agent's operation is the one `operationOf` names (`step_of_operation`). -/
theorem stepRunsTheAgentsStep : Obligations.StepRunsTheAgentsStep := by
  intro s ts
  refine ⟨fun _ h => step_of_operation h rfl, fun h => step_of_operation h rfl, fun h i hi => ?_, fun h => ⟨fun he => ?_,
    fun he => ?_⟩, fun _ h => step_of_operation h rfl, fun _ _ _ h => step_of_operation h rfl,
    fun _ h => step_of_operation h rfl, fun _ h => step_of_operation h rfl, fun _ h => step_of_operation h rfl⟩
  · exact step_of_operation h (operationOf_engine (s := { s with turns := ts }) hi)
  · exact step_of_operation h (operationOf_peripheral_emit (s := { s with turns := ts }) he)
  · exact step_of_operation h (operationOf_peripheral_complete (s := { s with turns := ts }) he)

/-! ### Turns that pass -/

/-- What the engine waits for in a phase (R146 to R154). -/
def State.ready (s : State) : Phase → Prop
  | .tIdle => s.sig = true ∨ s.term = true
  | .tSnap => s.lock = false
  | .tDrain => s.params.txStrategy = .completionWait ∧ s.done = true
  | .tResend => s.params.txStrategy = .freeRun ∧ s.perQ = []
  | .tExited => False
  | .tCheck => True
  | .tEnable => True
  | .tStream => True
  | .tDisable => True

theorem State.engineEnabled_iff (s : State) : s.engineEnabled ↔ s.live ∧ s.ready s.phase := by
  unfold State.engineEnabled State.wakeEnabled State.snapshotEnabled State.drainEnabled State.resendEnabled State.engineAt
  cases s.phase <;> simp [State.ready]

theorem decodePhase_code (p : Phase) : ∃ i, decodePhase p.code = .ok i := by
  cases p <;> exact ⟨_, rfl⟩

/-- Each engine step, where it is not enabled, answers the state it was given (log 3). -/
theorem exec_engine_blocked {s : State} (hn : ¬ s.engineEnabled) {i : Instr} (hi : decodePhase s.phase.code = .ok i) :
    exec i s = .next s := by
  simp only [State.engineEnabled, not_or] at hn
  obtain ⟨hwake, hcheck, hsnap, henable, hstream, hdrain, hresend, hdisable⟩ := hn
  cases hp : s.phase <;> rw [hp] at hi <;> cases hi
  exacts [if_neg hwake, if_neg hcheck, if_neg hsnap, if_neg henable, if_neg hstream, if_neg hdrain, if_neg hresend,
    if_neg hdisable, rfl]

theorem step_engine_blocked {s : State} {ts : List Turn} (ht : s.turns = .engine :: ts) (hn : ¬ s.engineEnabled) :
    step s = .next { s with turns := ts } := by
  obtain ⟨i, hi⟩ := decodePhase_code s.phase
  rw [step_of_operation ht (operationOf_engine (s := { s with turns := ts }) hi)]
  exact exec_engine_blocked (s := { s with turns := ts }) hn hi

/-- The peripheral's turn passes where neither of its steps is enabled (log 3). -/
theorem step_peripheral_blocked {s : State} {ts : List Turn} (ht : s.turns = .peripheral :: ts)
    (hn : ¬ s.peripheralEnabled) : step s = .next { s with turns := ts } := by
  obtain ⟨he, hc⟩ := not_or.1 hn
  exact (step_of_operation ht (operationOf_peripheral_complete (s := { s with turns := ts }) he)).trans (if_neg hc)

theorem takeCommand_none {s : State} (h : s.lock = true ∨ s.cmds = []) : takeCommand s = .ok (none, s) :=
  if_pos h

theorem step_command_blocked {s : State} {ts : List Turn} (ht : s.turns = .command :: ts)
    (h : s.lock = true ∨ s.cmds = []) : step s = .next { s with turns := ts } :=
  step_of_no_operation ht (takeCommand_none (s := { s with turns := ts }) h)

theorem step_signal_blocked {s : State} {ts : List Turn} {k : Nat} (ht : s.turns = .signal k :: ts)
    (h : s.calls[k]? = none) : step s = .next { s with turns := ts } := by
  rw [step_of_operation ht rfl]
  simp [exec, execSpSignal, h]

theorem step_poll_blocked {s : State} {ts : List Turn} (ht : s.turns = .poll :: ts) (h : s.life ≠ .teardown) :
    step s = .next { s with turns := ts } :=
  (step_of_operation ht rfl).trans (if_neg h)

/-- Settles O29: each case is the failure of the enabling condition that `State.engineEnabled_iff`, the peripheral's two
conditions or the producer's operation states. -/
theorem blockedTurnsChangeNothing : Obligations.BlockedTurnsChangeNothing := by
  intro s ts
  refine ⟨fun ht h => step_engine_blocked ht ?_, fun ht h => step_peripheral_blocked ht ?_, step_command_blocked,
    fun _ => step_signal_blocked, step_poll_blocked⟩
  · rw [State.engineEnabled_iff]
    rintro ⟨hlive, hen⟩
    rcases h with h | ⟨hp, hs, hterm⟩ | ⟨hp, hl⟩ | ⟨hp, h⟩ | ⟨hp, h⟩ | hp
    · simp [State.live, h] at hlive
    · simp [State.ready, hp, hs, hterm] at hen
    · simp [State.ready, hp, hl] at hen
    · rcases h with h | h <;> simp [State.ready, hp, h] at hen
    · rcases h with h | h <;> simp [State.ready, hp, h] at hen
    · simp [State.ready, hp] at hen
  · rintro (⟨hlive, hen, hunit⟩ | ⟨hlive, hstrategy, hen, hp, hidx, hq, hdone⟩)
    · rcases h with h | h | ⟨h, -⟩
      · simp [State.live, h] at hlive
      · simp [h] at hen
      · omega
    · rcases h with h | h | ⟨-, h | h | h | h | h⟩
      · simp [State.live, h] at hlive
      · simp [h] at hen
      · exact h hp
      · simp [h] at hdone
      · exact h hq
      · exact h hidx
      · simp [h] at hstrategy

/-! ### Polls of a stalled teardown -/

theorem step_poll {s : State} {ts : List Turn} (ht : s.turns = .poll :: ts) :
    step s = execDiPoll { s with turns := ts } :=
  step_of_operation ht rfl

/-- Polls without the acknowledgement, as many as the bound still allows: all but the last are counted, the last one times
out (R178, R180). -/
theorem run_stalled_polls (n : Nat) (s : State) (ts : List Turn) (hl : s.life = .teardown) (he : s.exited = false)
    (hb : s.dpoll + (n + 1) = s.params.deinitRetryBound) (ht : s.turns = List.replicate (n + 1) .poll ++ ts) :
    Host.Core.run Sys2Proof.core (n + 1) s =
      .next { s with life := .leaked, status := s.status ||| 0x08#8, dpoll := s.params.deinitRetryBound - 1,
                     turns := ts } := by
  induction n generalizing s with
  | zero =>
    have htimeout : State.timeoutEnabled { s with turns := ts } := ⟨hl, he, hb.ge⟩
    rw [core_run_of_next ((step_poll ht).trans (execDiPoll_timesOut htimeout)), core_run_zero]
    simp [← hb]
  | succ n ih =>
    have hcount : step s = .next { s with turns := List.replicate (n + 1) .poll ++ ts, dpoll := s.dpoll + 1 } :=
      (step_poll ht).trans (execDiPoll_counts (s := { s with turns := List.replicate (n + 1) .poll ++ ts }) hl he
        (show s.dpoll + 1 < s.params.deinitRetryBound by omega))
    rw [core_run_of_next hcount]
    exact ih _ hl he (show s.dpoll + 1 + (n + 1) = s.params.deinitRetryBound by omega) rfl

/-- Settles O41: by induction on the polls that the bound still allows (`run_stalled_polls`). -/
theorem stalledTeardownEndsInATimeout : Obligations.StalledTeardownEndsInATimeout := by
  rintro s ts hl he hd ⟨-, -, hbound⟩ ht
  obtain ⟨n, hn⟩ : ∃ n, s.params.deinitRetryBound = n + 1 := ⟨s.params.deinitRetryBound - 1, by omega⟩
  rw [hn] at ht
  have h := run_stalled_polls n s ts hl he (by omega) ht
  rwa [← hn] at h

end Sys2Proof.Machine
end

section
/-! Rules of the whole machine, by a case analysis over `Effect` (R6, R40, R44, R153, R158, R240 to R243). -/

namespace Sys2Proof.Machine

/-! ### What an effect leaves -/

theorem Effect.params {s t : State} (h : Effect s t) : t.params = s.params := by
  cases h
  case initCreates => simp [newContext]
  case release => simp [releaseContext]
  case commit us ok u _ hl hu => rw [commit_state hu hl]
  all_goals simp

/-- No effect changes PIXCNT of a context that exists (R21); the release keeps it too (log 11). -/
theorem Effect.pixcnt {s t : State} (h : Effect s t) (hlive : s.live) : t.pixcnt = s.pixcnt := by
  cases h
  case initCreates hlife _ _ => rcases hlife with hl | hl <;> simp [State.live, hl, Life.live] at hlive
  case release => simp [releaseContext]
  case commit us ok u _ hl hu => rw [commit_state hu hl]
  all_goals simp

/-- An effect changes STATUS, if at all, by the bit of one error (R40, R210). -/
theorem Effect.status {s t : State} (h : Effect s t) : t.status = s.status ∨ ∃ e, t.status = statusWith e s.status := by
  cases h
  case initAllocation => exact .inr ⟨.allocationFailure, by simp⟩
  case initConfiguration => exact .inr ⟨.configurationFailure, by simp⟩
  case timeout => exact .inr ⟨.terminationTimeout, rfl⟩
  case commit us ok u _ hl hu =>
    rw [commit_state hu hl]
    show (if batchOk s us then s.status else statusWith .invalidIndex s.status) = _ ∨ _
    split
    · exact .inl rfl
    · exact .inr ⟨.invalidIndex, rfl⟩
  case initCreates => exact .inl (by simp [newContext])
  case release => exact .inl (by simp [releaseContext])
  all_goals exact .inl rfl

/-- Only PER_EMIT changes WIRE, and it appends (R34, R155). -/
theorem Effect.wire {s t : State} (h : Effect s t) :
    t.wire = s.wire ∨ (s.emitEnabled ∧ ∃ bits, t.wire = s.wire ++ bits) := by
  cases h
  case emit bits rest he _ => exact .inr ⟨he, bits, rfl⟩
  case initCreates => exact .inl (by simp [newContext])
  case release => exact .inl (by simp [releaseContext])
  case commit us ok u _ hl hu => exact .inl (by rw [commit_state hu hl])
  all_goals exact .inl (by simp)

/-! ### STATUS, the length, LEAKED, and before INIT -/

theorem statusWith_getLsbD (e : Err) (status : BitVec 8) (i : Nat) :
    (statusWith e status).getLsbD i = (status.getLsbD i || e.statusBit.getLsbD i) := by
  rw [statusWith, BitVec.getLsbD_or]

theorem Err.statusBit_reserved (e : Err) {i : Nat} (hi : 4 ≤ i) : e.statusBit.getLsbD i = false := by
  have h : ∀ e : Err, e.statusBit.toNat < 2 ^ 4 := by intro e; cases e <;> decide
  exact Nat.testBit_lt_two_pow ((h e).trans_le (Nat.pow_le_pow_right (by decide) hi))

/-- Settles O43: an error's bit is added to STATUS (`statusWith_getLsbD`), and none is above bit 3
(`Err.statusBit_reserved`) (R40). -/
theorem statusIsSticky : Obligations.StatusIsSticky := by
  intro s t h
  obtain ⟨turns, tick, cmds, he⟩ := step_effect h
  rcases he.status with hs | ⟨e, hs⟩
  · rw [hs]
    exact ⟨fun _ => id, fun _ _ => rfl⟩
  · rw [hs]
    exact ⟨fun i hi => by rw [statusWith_getLsbD, Bool.or_eq_true]; exact .inl hi,
      fun i hi => by rw [statusWith_getLsbD, Err.statusBit_reserved e hi, Bool.or_false]⟩

/-- Settles O44: `Effect.params` and `Effect.pixcnt`, on which alone the frame length depends. -/
theorem lengthIsFixedForAContext : Obligations.LengthIsFixedForAContext := by
  intro s t h
  obtain ⟨turns, tick, cmds, he⟩ := step_effect h
  have hp : t.params = s.params := he.params
  refine ⟨hp, fun hlive => ?_⟩
  have hn : t.pixcnt = s.pixcnt := he.pixcnt hlive
  exact ⟨hn, State.frameLen_congr hp hn⟩

/-- In LEAKED no producer's operation has an effect; the engine and the peripheral may go on (R44, R243). -/
theorem Effect.leaked {s t : State} (h : Effect s t) (hl : s.life = .leaked) :
    t.life = .leaked ∧ t.fb = s.fb ∧ t.pixcnt = s.pixcnt ∧ t.term = s.term ∧ t.responses = s.responses ∧
      t.status = s.status := by
  have absurd_life : ∀ {l : Life} {p : Prop}, l ≠ .leaked → s.life = l → p := fun hne h => absurd (h.symm.trans hl) hne
  cases h
  case initAllocation hlife _ | initConfiguration hlife _ | initCreates hlife _ _ =>
    rcases hlife with h | h <;> exact absurd_life (by decide) h
  case request h | commit h _ _ | signal h _ | rate h | poll h _ _ => exact absurd_life (by decide) h
  case release h | timeout h => exact absurd_life (by decide) h.1
  all_goals exact ⟨hl, rfl, rfl, rfl, rfl, rfl⟩

/-- Settles O42: the commands and the teardown's steps ask for another LIFE (`Effect.leaked`). -/
theorem leakedIsForGood : Obligations.LeakedIsForGood := by
  intro s t hl h
  obtain ⟨turns, tick, cmds, he⟩ := step_effect h
  exact he.leaked hl

/-- Without a context the engine and the peripheral have no step, and of the commands only INIT has one (R41, R240). -/
theorem Effect.absent {s t : State} (h : Effect s t) (hl : s.life = .absent) (ht : t.life ≠ .running) :
    t = { s with status := t.status, responses := t.responses, value := t.value, draws := t.draws, tick := t.tick } := by
  have hdead : ¬ s.live := by simp [State.live, hl, Life.live]
  have absurd_life : ∀ {l : Life} {p : Prop}, l ≠ .absent → s.life = l → p := fun hne h => absurd (h.symm.trans hl) hne
  cases h
  case unchanged => rfl
  case answer => rfl
  case initAllocation =>
    rw [drawBit_state s]
    rfl
  case initConfiguration =>
    rw [drawBit_state (drawBit s).2, drawBit_state s]
    rfl
  case initCreates => exact absurd rfl ht
  case request h | commit h _ _ | signal h _ | rate h | poll h _ _ => exact absurd_life (by decide) h
  case release h | timeout h => exact absurd_life (by decide) h.1
  case check h _ | enable h | stream h | disable h | emit h _ | complete h => exact absurd h.1 hdead
  case wake h | exit h | snapshot h | drain h | resend h _ _ | resendEnd h _ => exact absurd h.1.1 hdead

/-- Settles O50: `Effect.absent`, the schedule and the command port moving as in every step. -/
theorem nothingMovesBeforeInit : Obligations.NothingMovesBeforeInit := by
  intro s t hl h ht
  obtain ⟨turns, tick, cmds, he⟩ := step_effect h
  have heq := he.absent hl ht
  have hturns : t.turns = turns := congrArg State.turns heq
  have hcmds : t.cmds = cmds := congrArg State.cmds heq
  rw [hturns, hcmds]
  exact heq

/-! ### PHASE -/

/-- The moves of PHASE that an effect can make (R158). -/
theorem Effect.phase {s t : State} (h : Effect s t) (hne : t.phase ≠ s.phase) :
    (s.life.live = false ∧ t.life = .running ∧ t.phase = .tIdle) ∨
    (s.life.live = true ∧
      ((s.phase = .tIdle ∧ t.phase = .tCheck ∧ (s.sig = true ∨ s.term = true)) ∨
       (s.phase = .tCheck ∧ t.phase = .tExited ∧ s.term = true) ∨
       (s.phase = .tCheck ∧ t.phase = .tSnap ∧ s.term = false) ∨
       (s.phase = .tSnap ∧ t.phase = .tEnable) ∨
       (s.phase = .tEnable ∧ t.phase = .tStream) ∨
       (s.phase = .tStream ∧ t.phase = .tDrain ∧ s.params.txStrategy = .completionWait) ∨
       (s.phase = .tStream ∧ t.phase = .tResend ∧ s.params.txStrategy = .freeRun) ∨
       (s.phase = .tDrain ∧ t.phase = .tDisable ∧ s.done = true) ∨
       (s.phase = .tResend ∧ t.phase = .tStream ∧ s.perQ = [] ∧ s.sig = false ∧ s.term = false) ∨
       (s.phase = .tResend ∧ t.phase = .tDisable ∧ s.perQ = [] ∧ (s.sig = true ∨ s.term = true)) ∨
       (s.phase = .tDisable ∧ t.phase = .tIdle))) := by
  cases h
  case initCreates hlife _ _ =>
    refine .inl ⟨?_, rfl, rfl⟩
    rcases hlife with hl | hl <;> simp [hl, Life.live]
  case wake h => exact .inr ⟨h.1.1, by simp [h.1.2, h.2]⟩
  case exit h => exact .inr ⟨h.1.1, by simp [h.1.2, h.2]⟩
  case check h ht => exact .inr ⟨h.1, by simp [h.2, ht]⟩
  case snapshot h => exact .inr ⟨h.1.1, by simp [h.1.2]⟩
  case enable h => exact .inr ⟨h.1, by simp [h.2]⟩
  case stream h =>
    refine .inr ⟨h.1, ?_⟩
    cases hst : s.params.txStrategy <;> simp [h.2, phaseAfterStream, hst]
  case drain h => exact .inr ⟨h.1.1, by simp [h.1.2, h.2.2]⟩
  case resend h hs ht => exact .inr ⟨h.1.1, by simp [h.1.2, h.2.2, hs, ht]⟩
  case resendEnd h hp =>
    have hp' : s.sig = true ∨ s.term = true := by
      simpa [or_iff_not_imp_left] using hp
    exact .inr ⟨h.1.1, by simp [h.1.2, h.2.2, hp']⟩
  case disable h => exact .inr ⟨h.1, by simp [h.2]⟩
  case release => exact absurd (by simp [releaseContext]) hne
  case commit us ok u _ hl hu => exact absurd (by rw [commit_state hu hl]) hne
  all_goals exact absurd (by simp) hne

/-- Settles O27: each effect that moves PHASE has a row's condition (`Effect.phase`). -/
theorem phaseMovesOnlyAlongTheTable : Obligations.PhaseMovesOnlyAlongTheTable := by
  intro s t h hne
  obtain ⟨turns, tick, cmds, he⟩ := step_effect h
  exact he.phase hne

/-- Settles O26: the engine's turn in T_EXITED is blocked, and the only row of R158 out of it is INIT's. -/
theorem exitedEngineNeverReturns : Obligations.ExitedEngineNeverReturns := by
  refine ⟨fun _ _ => rfl, fun s ts hp ht => ?_, fun s t hp hl h hne => ?_⟩
  · exact (blockedTurnsChangeNothing s ts).1 ht (by simp [hp])
  · rcases phaseMovesOnlyAlongTheTable s t h (hp ▸ hne) with ⟨hdead, hrun, hidle⟩ | ⟨-, hrow⟩
    · refine ⟨?_, hrun, hidle⟩
      cases hlife : s.life <;> simp_all [Life.live]
    · simp [hp] at hrow

end Sys2Proof.Machine
end

section
/-! What each agent's turn leaves alone (R34, R80, R221). -/

namespace Sys2Proof.Machine

theorem step_of_nextTurn {s u : State} {t : Turn} (ht : (nextTurn s).1 = t) {i : Instr}
    (ho : operationOf t (nextTurn s).2 = .ok (some i, u)) : step s = exec i u := by
  simp only [step, fetch, ht, ho]

/-! ### The engine -/

/-- What an engine step changes, and in which direction the flags move (R221). -/
structure EngineFrame (s t : State) : Prop where
  state : t = { s with
    wb := t.wb
    sig := t.sig
    exited := t.exited
    done := t.done
    phase := t.phase
    txidx := t.txidx
    perEn := t.perEn
    perQ := t.perQ
    writeTakes := t.writeTakes }
  sigDown : t.sig = true → s.sig = true
  exitedUp : s.exited = true → t.exited = true
  doneDown : t.done = true → s.done = true

theorem EngineFrame.refl (s : State) : EngineFrame s s := ⟨rfl, id, id, id⟩

theorem exec_engine_frame {s t : State} {i : Instr} (hi : decodePhase s.phase.code = .ok i) (h : exec i s = .next t) :
    EngineFrame s t := by
  cases hp : s.phase <;> rw [hp] at hi <;> cases hi
  case tIdle =>
    obtain rfl | ⟨-, rfl⟩ := execTxWake_next h
    · exact .refl _
    · exact ⟨rfl, (fun h => by cases h), id, id⟩
  case tCheck =>
    obtain rfl | ⟨-, -, rfl⟩ | ⟨-, -, rfl⟩ := execTxCheck_next h
    · exact .refl _
    · exact ⟨rfl, id, fun _ => rfl, id⟩
    · exact ⟨rfl, id, id, id⟩
  case tSnap =>
    obtain rfl | ⟨-, rfl⟩ := execTxSnapshot_next h
    · exact .refl _
    · exact ⟨rfl, id, id, id⟩
  case tEnable =>
    obtain rfl | ⟨-, rfl⟩ := execTxEnable_next h
    · exact .refl _
    · exact ⟨rfl, id, id, fun h => by cases h⟩
  case tStream =>
    obtain rfl | ⟨-, ns, rfl⟩ := execTxStream_next h
    · exact .refl _
    · exact ⟨rfl, id, id, id⟩
  case tDrain =>
    obtain rfl | ⟨-, rfl⟩ := execTxDrain_next h
    · exact .refl _
    · exact ⟨rfl, id, id, fun h => by cases h⟩
  case tResend =>
    obtain rfl | ⟨-, -, -, rfl⟩ | ⟨-, -, rfl⟩ := execTxResend_next h
    · exact .refl _
    · exact ⟨rfl, id, id, id⟩
    · exact ⟨rfl, id, id, id⟩
  case tDisable =>
    obtain rfl | ⟨-, rfl⟩ := execTxDisable_next h
    · exact .refl _
    · exact ⟨rfl, id, id, id⟩
  case tExited =>
    cases h
    exact .refl _

theorem step_engine_frame {s t : State} (ht : (nextTurn s).1 = .engine) (h : step s = .next t) :
    EngineFrame (nextTurn s).2 t := by
  obtain ⟨i, hi⟩ := decodePhase_code (nextTurn s).2.phase
  rw [step_of_nextTurn ht (operationOf_engine hi)] at h
  exact exec_engine_frame hi h

/-- Settles O46: one case for each phase (`exec_engine_frame`); the turn itself moves only the schedule. -/
theorem engineTouchesOnlyItsOwnState : Obligations.EngineTouchesOnlyItsOwnState := by
  intro s t ht h
  obtain ⟨hstate, hsig, hexited, hdone⟩ := step_engine_frame ht h
  rw [nextTurn_state] at hstate hsig hexited hdone
  refine ⟨?_, hsig, hexited, hdone⟩
  have hturns := congrArg State.turns hstate
  have htick := congrArg State.tick hstate
  rw [hturns, htick]
  exact hstate

/-! ### The peripheral -/

/-- An emission takes from the queue what it puts on the wire (R67, R155). -/
theorem emitFrom_popped {p : Params} {q rest : List Byte} {bits : List Bool} (h : emitUnit p ≤ q.length)
    (he : emitFrom p q = some (bits, rest)) : ∃ popped, q = popped ++ rest ∧ bits = queueBits p popped := by
  rcases emitFrom_cases p q h with ⟨hl, a, b, r, rfl, e⟩ | ⟨hl, a, r, rfl, e⟩ <;> rw [e] at he <;> cases he
  · exact ⟨[a, b], rfl, by simp [queueBits_pair hl]⟩
  · exact ⟨[a], rfl, by simp [queueBits_off hl]⟩

/-- What a peripheral step changes (R198, R221). -/
structure PeripheralFrame (s t : State) : Prop where
  state : t = { s with done := t.done, perQ := t.perQ, wire := t.wire }
  doneUp : s.done = true → t.done = true
  emits : ∃ popped, s.perQ = popped ++ t.perQ ∧ t.wire = s.wire ++ queueBits s.params popped

theorem PeripheralFrame.ofSame {s t : State} (hs : t = { s with done := t.done }) (hd : s.done = true → t.done = true) :
    PeripheralFrame s t := by
  have hq : t.perQ = s.perQ := by rw [hs]
  have hw : t.wire = s.wire := by rw [hs]
  exact ⟨by rw [hq, hw]; exact hs, hd, [], by simp [hq], by simp [hw]⟩

theorem execPerEmit_frame {s t : State} (h : execPerEmit s = .next t) : PeripheralFrame s t := by
  obtain rfl | ⟨he, bits, rest, hb, rfl⟩ := execPerEmit_next h
  · exact .ofSame rfl id
  · obtain ⟨popped, hq, rfl⟩ := emitFrom_popped he.2.2 hb
    exact ⟨rfl, id, popped, hq, rfl⟩

theorem execPerComplete_frame {s t : State} (h : execPerComplete s = .next t) : PeripheralFrame s t := by
  obtain rfl | ⟨-, rfl⟩ := execPerComplete_next h
  · exact .ofSame rfl id
  · exact .ofSame rfl fun _ => rfl

theorem step_peripheral_frame {s t : State} (ht : (nextTurn s).1 = .peripheral) (h : step s = .next t) :
    PeripheralFrame (nextTurn s).2 t := by
  by_cases he : (nextTurn s).2.emitEnabled
  · rw [step_of_nextTurn ht (operationOf_peripheral_emit he)] at h
    exact execPerEmit_frame h
  · rw [step_of_nextTurn ht (operationOf_peripheral_complete he)] at h
    exact execPerComplete_frame h

/-- Settles O47: PER_EMIT pops what it appends (`emitFrom_popped`), PER_COMPLETE posts DONE alone. -/
theorem peripheralTouchesOnlyItsOwnState : Obligations.PeripheralTouchesOnlyItsOwnState := by
  intro s t ht h
  obtain ⟨hstate, hdone, hemits⟩ := step_peripheral_frame ht h
  rw [nextTurn_state] at hstate hdone hemits
  refine ⟨?_, hdone, hemits⟩
  have hturns := congrArg State.turns hstate
  have htick := congrArg State.tick hstate
  rw [hturns, htick]
  exact hstate

/-! ### The producers -/

/-- The operations that producers take on their turns: the four commands, the signal step and the poll (R110, R130,
R178). -/
def producerTakes : Instr → Bool
  | .init _ _ => true
  | .deinit => true
  | .setPixel _ => true
  | .getRefreshRate => true
  | .spSignal _ => true
  | .diPoll => true
  | _ => false

/-- The turns of producers. -/
def isProducerTurn (t : Turn) : Prop := t = .command ∨ (∃ k, t = .signal k) ∨ t = .poll

theorem producerTakes_of_decodeCommand {ws rest : List Word} {i : Instr} (h : decodeCommand ws = .ok (i, rest)) :
    producerTakes i = true := by
  cases ws with
  | nil => cases h
  | cons w ws =>
    obtain ⟨-, us, -, rfl⟩ | ⟨-, -, n, d, -, rfl⟩ | ⟨-, -, -, rfl⟩ | ⟨-, -, -, rfl⟩ := decodeCommand_cases h <;> rfl

theorem producerTakes_of_operationOf {t : Turn} (ht : isProducerTurn t) {s u : State} {i : Instr}
    (h : operationOf t s = .ok (some i, u)) : producerTakes i = true := by
  rcases ht with rfl | ⟨k, rfl⟩ | rfl
  · obtain ⟨hn, -⟩ | ⟨-, j, rest, hj, hd, -⟩ := takeCommand_ok h
    · cases hn
    · cases hj
      exact producerTakes_of_decodeCommand hd
  · cases h
    rfl
  · cases h
    rfl

/-- What a producer's step leaves of a context that exists before and after it (R80, R221). -/
structure ProducerFrame (s t : State) : Prop where
  wb : t.wb = s.wb
  perQ : t.perQ = s.perQ
  txidx : t.txidx = s.txidx
  perEn : t.perEn = s.perEn
  done : t.done = s.done
  phase : t.phase = s.phase
  exited : t.exited = s.exited
  sigUp : s.sig = true → t.sig = true
  termUp : s.term = true → t.term = true

theorem ProducerFrame.refl (s : State) : ProducerFrame s s := ⟨rfl, rfl, rfl, rfl, rfl, rfl, rfl, id, id⟩

theorem exec_producer_frame {i : Instr} (hi : producerTakes i = true) {s t : State} (h : exec i s = .next t)
    (hs : s.live) (ht : t.live) : ProducerFrame s t := by
  cases i
  case init n d =>
    obtain ⟨hl | hl, -⟩ := execInit_next h <;> simp [State.live, hl, Life.live] at hs
  case deinit =>
    obtain ⟨-, rfl⟩ := requestTermination_next h
    exact ⟨rfl, rfl, rfl, rfl, rfl, rfl, rfl, fun _ => rfl, fun _ => rfl⟩
  case setPixel us =>
    obtain ⟨-, ⟨-, rfl⟩ | ⟨hl, ok, u, hu, rfl⟩⟩ := commitBatch_next h
    · exact .refl _
    · rw [commit_state hu hl]
      exact ⟨rfl, rfl, rfl, rfl, rfl, rfl, rfl, id, id⟩
  case getRefreshRate =>
    obtain ⟨-, -, rfl⟩ := execGetRefreshRate_next h
    exact ⟨rfl, rfl, rfl, rfl, rfl, rfl, rfl, id, id⟩
  case spSignal k =>
    obtain ⟨-, rfl⟩ | ⟨-, ok, -, rfl⟩ := execSpSignal_next h
    · exact .refl _
    · exact ⟨rfl, rfl, rfl, rfl, rfl, rfl, rfl, fun _ => rfl, id⟩
  case diPoll =>
    obtain rfl | ⟨-, rfl⟩ | ⟨-, -, -, rfl⟩ | ⟨-, rfl⟩ := execDiPoll_next h
    · exact .refl _
    · cases ht
    · exact ⟨rfl, rfl, rfl, rfl, rfl, rfl, rfl, id, id⟩
    · exact ⟨rfl, rfl, rfl, rfl, rfl, rfl, rfl, id, id⟩
  all_goals cases hi

/-- A producer's operation is no emission, so WIRE stays. -/
theorem exec_producer_wire {i : Instr} (hi : producerTakes i = true) {s t : State} (h : exec i s = .next t) :
    t.wire = s.wire := by
  cases i
  case init n d =>
    obtain ⟨-, -, ⟨-, rfl⟩ | ⟨-, -, rfl⟩ | ⟨-, -, fb, -, rfl⟩⟩ := execInit_next h
    · simp
    · simp
    · simp [newContext]
  case deinit =>
    obtain ⟨-, rfl⟩ := requestTermination_next h
    rfl
  case setPixel us =>
    obtain ⟨-, ⟨-, rfl⟩ | ⟨hl, ok, u, hu, rfl⟩⟩ := commitBatch_next h
    · rfl
    · rw [commit_state hu hl]
  case getRefreshRate =>
    obtain ⟨-, -, rfl⟩ := execGetRefreshRate_next h
    rfl
  case spSignal k =>
    obtain ⟨-, rfl⟩ | ⟨-, ok, -, rfl⟩ := execSpSignal_next h <;> rfl
  case diPoll =>
    obtain rfl | ⟨-, rfl⟩ | ⟨-, -, -, rfl⟩ | ⟨-, rfl⟩ := execDiPoll_next h
    · rfl
    · simp [releaseContext]
    · rfl
    · rfl
  all_goals cases hi

/-- A producer's turn passes, or runs one of its operations. -/
theorem step_producer {s t : State} (ht : isProducerTurn (nextTurn s).1) (h : step s = .next t) :
    ∃ turns tick cmds, t = { s with turns := turns, tick := tick, cmds := cmds } ∨
      ∃ i, producerTakes i = true ∧ exec i { s with turns := turns, tick := tick, cmds := cmds } = .next t := by
  obtain hf | ⟨i, u, hf, he⟩ := step_next h
  · exact ⟨_, _, _, .inl (fetch_state hf)⟩
  · rw [fetch_state hf] at he
    exact ⟨_, _, _, .inr ⟨i, producerTakes_of_operationOf ht hf, he⟩⟩

/-- Settles O48: one case for each operation a producer takes (`exec_producer_frame`, `exec_producer_wire`). -/
theorem producersNeverTouchATransfer : Obligations.ProducersNeverTouchATransfer := by
  intro s t hs ht h hturn
  obtain ⟨turns, tick, cmds, rfl | ⟨i, hi, he⟩⟩ := step_producer hturn h
  · exact ⟨rfl, rfl, rfl, rfl, rfl, rfl, rfl, rfl, id, id⟩
  · have f := exec_producer_frame hi he hs ht
    have hw := exec_producer_wire hi he
    exact ⟨f.wb, f.perQ, hw, f.txidx, f.perEn, f.done, f.phase, f.exited, f.sigUp, f.termUp⟩

/-! ### WIRE -/

/-- No agent but the peripheral changes WIRE. -/
theorem step_wire_of_not_peripheral {s t : State} (hn : (nextTurn s).1 ≠ .peripheral) (h : step s = .next t) :
    t.wire = s.wire := by
  have hproducer (hp : isProducerTurn (nextTurn s).1) : t.wire = s.wire := by
    obtain ⟨turns, tick, cmds, rfl | ⟨i, hi, he⟩⟩ := step_producer hp h
    · rfl
    · have hw := exec_producer_wire hi he
      exact hw
  cases ht : (nextTurn s).1 with
  | command => exact hproducer (.inl ht)
  | signal k => exact hproducer (.inr (.inl ⟨k, ht⟩))
  | poll => exact hproducer (.inr (.inr ht))
  | engine => rw [(engineTouchesOnlyItsOwnState s t ht h).1]
  | peripheral => exact absurd ht hn
  | lookup | makeColour | takeRed | takeGreen | takeBlue =>
    rw [step_of_nextTurn ht rfl] at h
    cases h
    show (nextTurn s).2.wire = s.wire
    rw [nextTurn_state]

/-- Settles O45: only PER_EMIT appends (`Effect.wire`), under its enabling condition, and only the peripheral's turn runs
it (`step_wire_of_not_peripheral`). -/
theorem onlyThePeripheralAppendsToTheWire : Obligations.OnlyThePeripheralAppendsToTheWire := by
  intro s t h
  obtain ⟨turns, tick, cmds, he⟩ := step_effect h
  obtain hw | ⟨⟨hlive, hen, -⟩, bits, hw⟩ := he.wire
  · exact ⟨[], by simpa using hw, fun hne => absurd rfl hne⟩
  · refine ⟨bits, hw, fun hne => ⟨by_contra fun hn => hne ?_, hlive, hen⟩⟩
    have hsame := step_wire_of_not_peripheral hn h
    rw [hw] at hsame
    simpa using hsame

end Sys2Proof.Machine
end

section
/-! The invariants at power-on, and the frame and engine invariants under every step (R24 to R36, R41, R61, R71, R158). -/

namespace Sys2Proof.Machine

/-! ### Contexts -/

theorem not_live_of_destroyed {s : State} (h : s.life = .destroyed) : ¬ s.live := by simp [State.live, h, Life.live]

theorem live_of_running {s : State} (h : s.life = .running) : s.live := by simp [State.live, h, Life.live]

theorem live_of_teardown {s : State} (h : s.life = .teardown) : s.live := by simp [State.live, h, Life.live]

/-- Without a context the engine invariant is about LOCK, the queue, STATUS and what a release leaves. -/
theorem EngineInv.of_not_live {s : State} (hd : ¬ s.live) (lockFree : s.lock = false)
    (released : s.life = .destroyed → s.phase = .tExited ∧ s.exited = true ∧ s.term = true ∧ s.perEn = false)
    (noQueue : s.perQ = []) (statusReserved : s.status.extractLsb' 4 4 = 0#4) : EngineInv s where
  lockFree := lockFree
  enabledIff h := absurd h hd
  queueEmpty h := absurd h hd
  wholeUnits h := absurd h hd
  streamedAll h := absurd h hd
  drainStrategy h := absurd h hd
  resendStrategy h := absurd h hd
  doneOnlyDrained h := absurd h hd
  exitedIff h := absurd h hd
  exitedOnRequest h := absurd h hd
  termIff h := absurd h hd
  rateConfigured h := absurd h hd
  pollsBounded _ h := absurd (live_of_teardown h) hd
  released := released
  noQueue _ := noQueue
  statusReserved := statusReserved

/-! ### Power-on -/

theorem Config.params_wf : Config.params.wf := by
  have h := Nat.mod_lt Config.bitRateSource (show 0 < 2 ^ 32 - 1 by decide)
  refine ⟨Nat.le_add_right _ _, ?_, Nat.le_add_right _ _⟩
  show 1 + Config.bitRateSource % (2 ^ 32 - 1) < 2 ^ 32
  omega

theorem reset_not_live : ¬ State.reset.live := Bool.false_ne_true

theorem reset_frameInv : FrameInv State.reset where
  fbCanonical := Memory.wf_nil
  wbCanonical := Memory.wf_nil
  evenLength h := absurd h reset_not_live
  fbFrame h := absurd h reset_not_live
  fbInside h := absurd h reset_not_live
  wbInside h := absurd h reset_not_live
  noBuffers _ := ⟨rfl, rfl⟩

theorem reset_engineInv : EngineInv State.reset :=
  .of_not_live reset_not_live rfl (fun h => Life.noConfusion h) rfl rfl

theorem reset_wireInv : WireInv (fun _ => False) State.reset where
  wbEncodes h := absurd h reset_not_live
  wbSnapshot h := absurd h reset_not_live
  lastFrame h := absurd h reset_not_live
  frames := ⟨[], [], rfl, fun _ h => absurd h List.not_mem_nil, fun h => absurd h.1 reset_not_live, fun _ => rfl⟩

/-- Settles O54: without a context every clause about one is empty, and the opaque parameters are within R7's limits
(`Config.params_wf`). -/
theorem invariantsHoldAtPowerOn : Obligations.InvariantsHoldAtPowerOn :=
  ⟨reset_frameInv, reset_engineInv, reset_wireInv, fun h => Life.noConfusion h, Config.params_wf⟩

/-! ### The frame -/

/-- The frame invariant is about the parameters, PIXCNT, the buffers and whether a context exists. -/
theorem FrameInv.congr {s t : State} (h : FrameInv s) (hp : t.params = s.params) (hn : t.pixcnt = s.pixcnt)
    (hlive : t.live ↔ s.live) (hfb : t.fb = s.fb) (hwb : t.wb = s.wb) : FrameInv t := by
  have hlen : t.frameLen = s.frameLen := State.frameLen_congr hp hn
  constructor <;> simp only [hp, hn, hlive, hfb, hwb, hlen]
  exacts [h.fbCanonical, h.wbCanonical, h.evenLength, h.fbFrame, h.fbInside, h.wbInside, h.noBuffers]

/-- A batch leaves a frame: a pixel it names holds that colour, the others and the gap are as before (R24, R133). -/
theorem encodesFrame_applyRecords {us : List PixelUpdate} {ok ok' : Bool} {s t : State}
    (h : applyRecords us ok s = .ok (ok', t)) (hs : encodesFrame s.params s.pixcnt s.fb) :
    encodesFrame s.params s.pixcnt t.fb := by
  obtain ⟨-, -, -, hpix, hother, -⟩ := applyRecords_ok h
  obtain ⟨hcolours, hgap⟩ := hs
  refine ⟨fun i hi => ?_, fun o ho hlt => ?_⟩
  · cases hc : lastColour us i with
    | some c => exact ⟨c, fun k hk => by rw [hpix i hi k hk, hc]⟩
    | none =>
      obtain ⟨c, hsc⟩ := hcolours i hi
      exact ⟨c, fun k hk => by rw [hpix i hi k hk, hc]; exact hsc k hk⟩
  · rw [hother _ fun u _ hu hmem => ?_, hgap o ho hlt]
    obtain ⟨k, hk, he⟩ := mem_storedSet.1 hmem
    have hou : pixelOffset u.index.toNat k = o := phys_inj he
    have hidx : u.index.toNat < s.pixcnt.toNat := of_decide_eq_true hu
    unfold pixelOffset at hou
    omega

theorem encodesFrame_offFrame {p : Params} {n : Word} {m : Memory} (h : offFrame p n = .ok m) : encodesFrame p n m := by
  obtain ⟨-, hpix, hgap, -⟩ := offFrame_ok h
  exact ⟨fun i hi => ⟨0, hpix i hi⟩, fun o ho _ => hgap o ho⟩

theorem Effect.frameInv {s t : State} (he : Effect s t) (h : FrameInv s) : FrameInv t := by
  cases he
  case initCreates n d fb _ heven hfb =>
    obtain ⟨hwf, -, -, hin⟩ := offFrame_ok hfb
    obtain ⟨wb, sig, tick, draws, hstate, hwb, hwbin⟩ := newContext_state n d fb s
    rw [hstate]
    exact ⟨hwf, hwb, fun _ => heven, fun _ => encodesFrame_offFrame hfb, fun _ => hin, fun _ => hwbin,
      fun hn => absurd rfl hn⟩
  case commit us ok u hrun hl hu =>
    have hlive : s.live := live_of_running hrun
    obtain ⟨-, -, hwf, -, -, hin⟩ := applyRecords_ok hu
    have hframe := encodesFrame_applyRecords hu (h.fbFrame hlive)
    rw [commit_state hu hl]
    exact ⟨hwf h.fbCanonical, h.wbCanonical, h.evenLength, fun _ => hframe,
      fun _ => hin (h.fbInside hlive), h.wbInside, fun hn => absurd hlive hn⟩
  case release =>
    have hdead : ¬ (releaseContext s).live := Bool.false_ne_true
    exact ⟨Memory.wf_nil, Memory.wf_nil, fun hl => absurd hl hdead, fun hl => absurd hl hdead, fun hl => absurd hl hdead,
      fun hl => absurd hl hdead, fun _ => ⟨rfl, rfl⟩⟩
  case snapshot hs =>
    exact ⟨h.fbCanonical, Memory.wf_below _ _ h.fbCanonical, h.evenLength, h.fbFrame, h.fbInside,
      fun _ _ hc => Memory.mem_below hc, fun hn => absurd hs.1.1 hn⟩
  case request hrun => exact h.congr rfl rfl (by simp [State.live, hrun, Life.live]) rfl rfl
  case timeout hs => exact h.congr rfl rfl (by simp [State.live, hs.1, Life.live]) rfl rfl
  case initAllocation => exact h.congr (by simp) (by simp) (by simp [State.live]) (by simp) (by simp)
  case initConfiguration => exact h.congr (by simp) (by simp) (by simp [State.live]) (by simp) (by simp)
  all_goals exact h.congr rfl rfl Iff.rfl rfl rfl

/-- Settles O55: one case for each effect that touches a buffer or ends or begins a context (`Effect.frameInv`). -/
theorem everyStepKeepsTheFrame : Obligations.EveryStepKeepsTheFrame := by
  intro s t h hstep
  obtain ⟨turns, tick, cmds, he⟩ := step_effect hstep
  exact he.frameInv (h.congr rfl rfl Iff.rfl rfl rfl)

/-! ### The engine -/

namespace EngineInv

section
variable {s : State} (h : EngineInv s) (hl : s.live)
include h hl

theorem queue_nil (hp : ¬ s.phase.draining) : s.perQ = [] := h.queueEmpty hl hp

theorem not_done (hp : s.phase ≠ .tDrain) : s.done = false := by
  by_contra hd
  exact hp (h.doneOnlyDrained hl (by simpa using hd)).1

theorem not_exited (hp : s.phase ≠ .tExited) : s.exited = false := by
  by_contra hx
  exact hp ((h.exitedIff hl).1 (by simpa using hx))

end

/-- The engine invariant is about the fields named here, and bits 7:4 of STATUS. -/
theorem congr {s t : State} (h : EngineInv s)
    (hst : t = { s with
      fb := t.fb, wb := t.wb, sig := t.sig, wire := t.wire, calls := t.calls, status := t.status, cmds := t.cmds
      responses := t.responses, value := t.value, turns := t.turns, draws := t.draws, writeTakes := t.writeTakes
      tick := t.tick })
    (hstatus : t.status.extractLsb' 4 4 = 0#4) : EngineInv t := by
  rw [hst]
  exact ⟨h.lockFree, h.enabledIff, h.queueEmpty, h.wholeUnits, h.streamedAll, h.drainStrategy, h.resendStrategy,
    h.doneOnlyDrained, h.exitedIff, h.exitedOnRequest, h.termIff, h.rateConfigured, h.pollsBounded, h.released, h.noQueue,
    hstatus⟩

/-- A step of the teardown of a context that stays (R44, R177, R178, R180). -/
theorem ofTeardown {s t : State} (h : EngineInv s) (hl : s.live)
    (hst : t = { s with
      life := t.life, sig := t.sig, term := t.term, dpoll := t.dpoll, calls := t.calls, status := t.status })
    (hlive : t.live) (termIff : t.term = true ↔ t.life ≠ .running) (termUp : s.term = true → t.term = true)
    (pollsBounded : s.params.wf → t.life = .teardown → t.dpoll < s.params.deinitRetryBound)
    (statusReserved : t.status.extractLsb' 4 4 = 0#4) : EngineInv t := by
  rw [hst] at hlive ⊢
  exact ⟨h.lockFree, fun _ => h.enabledIff hl, fun _ => h.queueEmpty hl, fun _ => h.wholeUnits hl,
    fun _ => h.streamedAll hl, fun _ => h.drainStrategy hl, fun _ => h.resendStrategy hl, fun _ => h.doneOnlyDrained hl,
    fun _ => h.exitedIff hl, fun _ hx => termUp (h.exitedOnRequest hl hx), fun _ => termIff, fun _ => h.rateConfigured hl,
    pollsBounded, fun hd => absurd hlive (not_live_of_destroyed hd), fun hn => absurd hlive hn, statusReserved⟩

/-- A step of the engine or the peripheral other than the exit: what is left to show of the next state. -/
theorem ofTransfer {s t : State} (h : EngineInv s) (hl : s.live)
    (hst : t = { s with
      wb := t.wb, sig := t.sig, done := t.done, phase := t.phase, txidx := t.txidx, perEn := t.perEn, perQ := t.perQ
      wire := t.wire, writeTakes := t.writeTakes })
    (hsx : s.phase ≠ .tExited) (htx : t.phase ≠ .tExited)
    (enabledIff : t.perEn = true ↔ t.phase.transferring)
    (queueEmpty : ¬ t.phase.draining → t.perQ = [])
    (wholeUnits : t.perQ.length % emitUnit s.params = 0)
    (streamedAll : t.phase.draining ∨ t.phase = .tDisable → t.txidx = s.frameLen)
    (drainStrategy : t.phase = .tDrain → s.params.txStrategy = .completionWait)
    (resendStrategy : t.phase = .tResend → s.params.txStrategy = .freeRun)
    (doneOnlyDrained : t.done = true → t.phase = .tDrain ∧ t.perQ = []) : EngineInv t := by
  have exitedIff : s.exited = true ↔ t.phase = .tExited :=
    iff_of_false (by simp [h.not_exited hl hsx]) htx
  rw [hst]
  exact ⟨h.lockFree, fun _ => enabledIff, fun _ => queueEmpty, fun _ => wholeUnits, fun _ => streamedAll,
    fun _ => drainStrategy, fun _ => resendStrategy, fun _ => doneOnlyDrained, fun _ => exitedIff, h.exitedOnRequest,
    h.termIff, h.rateConfigured, h.pollsBounded, fun hd => absurd hl (not_live_of_destroyed hd),
    fun hn => absurd hl hn, h.statusReserved⟩

/-- A step of the engine between two phases outside a transfer. -/
theorem ofIdleMove {s t : State} (h : EngineInv s) (hl : s.live)
    (hst : t = { s with wb := t.wb, sig := t.sig, phase := t.phase })
    (hs : ¬ s.phase.transferring) (hsx : s.phase ≠ .tExited) (ht : ¬ t.phase.transferring) (htx : t.phase ≠ .tExited) :
    EngineInv t := by
  have hen : t.perEn = s.perEn := by rw [hst]
  have hq : t.perQ = s.perQ := by rw [hst]
  have hd : t.done = s.done := by rw [hst]
  have hqn : s.perQ = [] := h.queue_nil hl fun hd => hs (by tauto)
  have hdn : s.done = false := h.not_done hl fun hd => hs (by tauto)
  refine h.ofTransfer hl (by rw [hst]) hsx htx ?_ (fun _ => hq.trans hqn) (by simp [hq, hqn]) (fun hp => ?_)
    (fun hp => ?_) (fun hp => ?_) (by simp [hd, hdn])
  · rw [hen, h.enabledIff hl]
    exact iff_of_false hs ht
  all_goals exact absurd (by tauto) ht

end EngineInv

theorem Effect.statusReserved {s t : State} (he : Effect s t) (h : s.status.extractLsb' 4 4 = 0#4) :
    t.status.extractLsb' 4 4 = 0#4 := by
  obtain hs | ⟨e, hs⟩ := he.status
  · rw [hs, h]
  · rw [hs, statusWith, BitVec.extractLsb'_or, h]
    cases e <;> rfl

theorem ne_tExited_of_draining {p : Phase} (h : p.draining) : p ≠ .tExited := by
  rcases h with rfl | rfl <;> decide

theorem phaseAfterStream_draining (p : Params) : (phaseAfterStream p).draining := by
  rw [phaseAfterStream_eq_ite]
  split
  · exact .inl rfl
  · exact .inr rfl

theorem phaseAfterStream_eq_tDrain {p : Params} (h : phaseAfterStream p = .tDrain) : p.txStrategy = .completionWait := by
  by_contra hs
  simp [phaseAfterStream_eq_ite, hs] at h

theorem phaseAfterStream_eq_tResend {p : Params} (h : phaseAfterStream p = .tResend) : p.txStrategy = .freeRun := by
  cases hs : p.txStrategy
  · simp [phaseAfterStream_eq_ite, hs] at h
  · rfl

theorem emitUnit_pos (p : Params) : 0 < emitUnit p := by
  unfold emitUnit
  split <;> decide

/-- A frame of even length is whole transfer units (R71, R155). -/
theorem frameLength_whole {p : Params} {n : Word} (h : evenFrame p n) : frameLength p n % emitUnit p = 0 := by
  cases hl : p.laneSwap
  · rw [emitUnit_off hl, Nat.mod_one]
  · rw [emitUnit_on hl, h hl]

/-- An emission leaves whole units. -/
theorem emitFrom_whole {p : Params} {q rest : List Byte} {bits : List Bool} (h : emitUnit p ≤ q.length)
    (he : emitFrom p q = some (bits, rest)) (hq : q.length % emitUnit p = 0) : rest.length % emitUnit p = 0 := by
  obtain ⟨hl, a, b, r, rfl, e⟩ | ⟨hl, a, r, rfl, e⟩ := emitFrom_cases p q h <;> rw [e] at he <;> cases he
  · rw [emitUnit_on hl] at hq ⊢
    simp only [List.length_cons] at hq
    omega
  · rw [emitUnit_off hl, Nat.mod_one]

/-- PER_EMIT is enabled only while bytes are on their way to the wire. -/
theorem EngineInv.draining_of_emitEnabled {s : State} (h : EngineInv s) (he : s.emitEnabled) : s.phase.draining := by
  by_contra hd
  have hunit := he.2.2
  rw [h.queue_nil he.1 hd] at hunit
  exact absurd hunit (not_le.2 (emitUnit_pos _))

theorem Effect.engineInv {s t : State} (he : Effect s t) (hf : FrameInv s) (h : EngineInv s) : EngineInv t := by
  have hreserved := he.statusReserved h.statusReserved
  cases he
  case unchanged | answer | rate | signal => exact h.congr rfl hreserved
  case initAllocation =>
    rw [drawBit_state s] at hreserved ⊢
    exact h.congr rfl hreserved
  case initConfiguration =>
    rw [drawBit_state (drawBit s).2, drawBit_state s] at hreserved ⊢
    exact h.congr rfl hreserved
  case commit us ok u _ hl hu =>
    rw [commit_state hu hl] at hreserved ⊢
    exact h.congr rfl hreserved
  case initCreates n d fb _ _ _ =>
    obtain ⟨wb, sig, tick, draws, hstate, -, -⟩ := newContext_state n d fb s
    rw [hstate] at hreserved ⊢
    exact ⟨rfl, fun _ => by simp, fun _ _ => rfl, fun _ => Nat.zero_mod _, by simp, by simp, by simp, by simp, by simp,
      by simp, fun _ => by simp, fun _ => rfl, fun _ hl => Life.noConfusion hl, fun hl => Life.noConfusion hl,
      fun _ => rfl, hreserved⟩
  case request hrun =>
    exact h.ofTeardown (live_of_running hrun) rfl rfl (by simp) (fun _ => rfl) (fun hwf _ => hwf.2.2) hreserved
  case poll hl hx hb =>
    have hlive : s.live := live_of_teardown hl
    exact h.ofTeardown hlive rfl hlive (h.termIff hlive) id (fun _ _ => hb) hreserved
  case timeout hto =>
    have hl : s.live := live_of_teardown hto.1
    have ht : s.term = true := (h.termIff hl).2 (by simp [hto.1])
    exact h.ofTeardown hl rfl rfl (by simp [ht]) id (fun _ hl => Life.noConfusion hl) hreserved
  case release hr =>
    have hl : s.live := live_of_teardown hr.1
    have hp : s.phase = .tExited := (h.exitedIff hl).1 hr.2
    have hen : s.perEn = false := by simpa [hp, Phase.transferring] using h.enabledIff hl
    have hdead : ¬ (releaseContext s).live := Bool.false_ne_true
    rw [releaseContext_state] at hdead hreserved ⊢
    exact .of_not_live hdead h.lockFree (fun _ => ⟨hp, hr.2, h.exitedOnRequest hl hr.2, hen⟩) rfl hreserved
  case wake hw =>
    obtain ⟨⟨hl, hp⟩, -⟩ := hw
    exact h.ofIdleMove hl rfl (by simp [hp]) (by simp [hp]) (by simp) (by simp)
  case check hc _ =>
    obtain ⟨hl, hp⟩ := hc
    exact h.ofIdleMove hl rfl (by simp [hp]) (by simp [hp]) (by simp) (by simp)
  case snapshot hs =>
    obtain ⟨⟨hl, hp⟩, -⟩ := hs
    exact h.ofIdleMove hl rfl (by simp [hp]) (by simp [hp]) (by simp) (by simp)
  case exit hx =>
    obtain ⟨⟨hl, hp⟩, ht⟩ := hx
    have hen : s.perEn = false := by simpa [hp, Phase.transferring] using h.enabledIff hl
    exact ⟨h.lockFree, fun _ => by simp [hen], fun _ _ => h.queue_nil hl (by simp [hp]), h.wholeUnits, by simp, by simp,
      by simp, by simp [h.not_done hl (by simp [hp])], by simp, fun _ _ => ht, h.termIff, h.rateConfigured, h.pollsBounded,
      fun hd => absurd hl (not_live_of_destroyed hd), h.noQueue, h.statusReserved⟩
  case enable he =>
    obtain ⟨hl, hp⟩ := he
    refine h.ofTransfer hl rfl (by simp [hp]) (by simp) ?_ (fun _ => ?_) ?_ (by simp) (by simp) (by simp)
      (by simp [perEnable])
    · simp [perEnable, Phase.transferring]
    · exact h.queue_nil hl (by simp [hp])
    · exact h.wholeUnits hl
  case stream ns hs =>
    obtain ⟨hl, hp⟩ := hs
    have hq : s.perQ = [] := h.queue_nil hl (by simp [hp])
    have hen : s.perEn = true := (h.enabledIff hl).2 (by simp [hp, Phase.transferring])
    have hdrains := phaseAfterStream_draining s.params
    refine h.ofTransfer hl rfl (by simp [hp]) (ne_tExited_of_draining hdrains) (iff_of_true hen (by tauto))
      (fun hn => absurd hdrains hn) ?_ (fun _ => rfl) phaseAfterStream_eq_tDrain phaseAfterStream_eq_tResend ?_
    · simpa [hq, State.frameLen] using frameLength_whole (hf.evenLength hl)
    · simp [h.not_done hl (by simp [hp])]
  case drain hd =>
    obtain ⟨⟨hl, hp⟩, -, hdone⟩ := hd
    obtain ⟨-, hq⟩ := h.doneOnlyDrained hl hdone
    refine h.ofTransfer hl rfl (by simp [hp]) (by simp) ?_ (fun _ => hq) (h.wholeUnits hl) (fun _ => ?_) (by simp)
      (by simp) (by simp [consumeDone])
    · simpa [hp, Phase.transferring] using h.enabledIff hl
    · exact h.streamedAll hl (by tauto)
  case resend hr _ _ =>
    obtain ⟨⟨hl, hp⟩, -, hq⟩ := hr
    refine h.ofTransfer hl rfl (by simp [hp]) (by simp) ?_ (fun _ => hq) (h.wholeUnits hl) (by simp) (by simp) (by simp) ?_
    · simpa [hp, Phase.transferring] using h.enabledIff hl
    · simp [h.not_done hl (by simp [hp])]
  case resendEnd hr _ =>
    obtain ⟨⟨hl, hp⟩, -, hq⟩ := hr
    refine h.ofTransfer hl rfl (by simp [hp]) (by simp) ?_ (fun _ => hq) (h.wholeUnits hl) (fun _ => ?_) (by simp)
      (by simp) ?_
    · simpa [hp, Phase.transferring] using h.enabledIff hl
    · exact h.streamedAll hl (by tauto)
    · simp [h.not_done hl (by simp [hp])]
  case disable hd =>
    obtain ⟨hl, hp⟩ := hd
    refine h.ofTransfer hl rfl (by simp [hp]) (by simp) ?_ (fun _ => ?_) (h.wholeUnits hl) (by simp) (by simp) (by simp) ?_
    · simp [perDisable, Phase.transferring]
    · exact h.queue_nil hl (by simp [hp])
    · simp [h.not_done hl (by simp [hp])]
  case emit bits rest he hb =>
    obtain ⟨hl, hen, hunit⟩ := id he
    have hdrains := h.draining_of_emitEnabled he
    have hqne : s.perQ ≠ [] := fun hq => absurd hunit (by simp [hq, (emitUnit_pos s.params).ne'])
    have hx := ne_tExited_of_draining hdrains
    exact h.ofTransfer hl rfl hx hx (h.enabledIff hl) (fun hn => absurd hdrains hn)
      (emitFrom_whole hunit hb (h.wholeUnits hl)) (h.streamedAll hl) (h.drainStrategy hl) (h.resendStrategy hl)
      (fun hd => absurd (h.doneOnlyDrained hl hd).2 hqne)
  case complete hc =>
    obtain ⟨hl, -, -, hp, -, hq, -⟩ := hc
    exact h.ofTransfer hl rfl (by simp [hp]) (by simp [hp]) (h.enabledIff hl) (h.queueEmpty hl) (h.wholeUnits hl)
      (h.streamedAll hl) (h.drainStrategy hl) (h.resendStrategy hl) (fun _ => ⟨hp, hq⟩)

/-- Settles O56: one case for each effect (`Effect.engineInv`), most by `EngineInv.congr` and `EngineInv.ofTransfer`. -/
theorem everyStepKeepsTheEngineConsistent : Obligations.EveryStepKeepsTheEngineConsistent := by
  intro s t hf h hstep
  obtain ⟨turns, tick, cmds, he⟩ := step_effect hstep
  exact he.engineInv (hf.congr rfl rfl Iff.rfl rfl rfl) (h.congr rfl h.statusReserved)

end Sys2Proof.Machine
end

section
/-! What a buffer puts on the wire, and the wire invariant under every step (R67, R155, R157). -/

namespace Sys2Proof.Machine

/-! ### A buffer's bits -/

/-- With the lane swap the queue emits each aligned pair in exchanged order, which is the logical order (R67, R68). -/
theorem queueBits_range' {p : Params} (hl : p.laneSwap = true) (f : Nat → Byte) (k a : Nat) (ha : a % 2 = 0) :
    queueBits p ((List.range' a (2 * k)).map f) = (List.range' a (2 * k)).flatMap fun o => msbFirst (f (phys p o)) := by
  induction k generalizing a with
  | zero => simp
  | succ k ih =>
    have hodd : (a + 1) % 2 ≠ 0 := by omega
    have hfirst : phys p a = a + 1 := by rw [phys_on hl, if_pos ha]
    have hsecond : phys p (a + 1) = a := by rw [phys_on hl, if_neg hodd, Nat.add_sub_cancel]
    rw [show 2 * (k + 1) = 2 * k + 1 + 1 by omega, List.range'_succ, List.range'_succ]
    simp only [List.map_cons, List.flatMap_cons, queueBits_pair hl, hfirst, hsecond, List.append_assoc]
    rw [ih (a + 1 + 1) (by omega)]

/-- A whole buffer, queued in physical order, is emitted in logical order (R155, R157). -/
theorem queueBits_buffer {p : Params} {len : Nat} (heven : p.laneSwap = true → len % 2 = 0) (m : Memory) :
    queueBits p ((List.range len).map fun a => Memory.read m a) = bufferBits p len m := by
  rw [bufferBits]
  cases hl : p.laneSwap
  · simp [queueBits_off hl, phys_off hl, List.flatMap_map]
  · obtain ⟨k, rfl⟩ : ∃ k, len = 2 * k := ⟨len / 2, by have := heven hl; omega⟩
    rw [List.range_eq_range']
    exact queueBits_range' hl _ k 0 rfl

theorem queueBits_streamBytes {s : State} (heven : evenFrame s.params s.pixcnt) :
    queueBits s.params s.streamBytes = bufferBits s.params s.frameLen s.wb :=
  queueBits_buffer heven s.wb

/-- The bytes of `n` encoded pixels in logical order are those of some `n` colours. -/
theorem pixels_bits {p : Params} {m : Memory} (n : Nat)
    (h : ∀ i < n, ∃ c : Colour, ∀ k < 9, Memory.read m (phys p (pixelOffset i k)) = pixelByte c k) :
    ∃ cs : List Colour, ((List.range (9 * n)).flatMap fun o => msbFirst (Memory.read m (phys p o))) =
      cs.flatMap fun c => (pixelBytes c).flatMap msbFirst := by
  induction n with
  | zero => exact ⟨[], rfl⟩
  | succ n ih =>
    obtain ⟨cs, hcs⟩ := ih fun i hi => h i (by omega)
    obtain ⟨c, hc⟩ := h n (by omega)
    have hpixel : ((List.range 9).flatMap fun k => msbFirst (Memory.read m (phys p (9 * n + k)))) =
        (pixelBytes c).flatMap msbFirst := by
      rw [pixelBytes, List.flatMap_map]
      exact List.flatMap_congr fun k hk => congrArg msbFirst (hc k (List.mem_range.1 hk))
    refine ⟨cs ++ [c], ?_⟩
    rw [show 9 * (n + 1) = 9 * n + 9 by omega, List.range_add, List.flatMap_append, hcs, List.flatMap_map, hpixel]
    simp

/-- A buffer that holds a frame puts the frame of its colours on the wire (R157). -/
theorem bufferBits_of_encodesFrame {p : Params} {n : Word} {m : Memory} (h : encodesFrame p n m) :
    ∃ cs : List Colour, bufferBits p (frameLength p n) m = wireFrame p cs := by
  obtain ⟨hpix, hgap⟩ := h
  obtain ⟨cs, hcs⟩ := pixels_bits n.toNat hpix
  have hzero : ((List.range p.resetBytes).flatMap fun r => msbFirst (Memory.read m (phys p (9 * n.toNat + r)))) =
      List.replicate (8 * p.resetBytes) false := by
    rw [List.flatMap_congr (g := fun _ => List.replicate 8 false) fun r hr => ?_]
    · rw [List.flatMap_def, List.map_const', List.length_range, List.flatten_replicate_replicate, Nat.mul_comm]
    · rw [hgap _ (by omega) (by have := List.mem_range.1 hr; unfold frameLength; omega)]
      rfl
  refine ⟨cs, ?_⟩
  rw [bufferBits, frameLength, List.range_add, List.flatMap_append, hcs, List.flatMap_map, hzero, wireFrame]

/-- Buffers that read alike inside the frame hold the same frame. -/
theorem encodesFrame_congr {p : Params} {n : Word} {m m' : Memory} (heven : evenFrame p n)
    (h : ∀ a < frameLength p n, Memory.read m a = Memory.read m' a) (hm : encodesFrame p n m') : encodesFrame p n m := by
  obtain ⟨hpix, hgap⟩ := hm
  refine ⟨fun i hi => ?_, fun o ho hlt => (h _ (phys_lt heven hlt)).trans (hgap o ho hlt)⟩
  obtain ⟨c, hc⟩ := hpix i hi
  exact ⟨c, fun k hk => (h _ (phys_lt heven (by unfold pixelOffset frameLength; omega))).trans (hc k hk)⟩

/-! ### Whole frames -/

theorem not_betweenFrames_of_draining {p : Phase} (h : p.draining) : ¬ p.betweenFrames := by
  rcases h with rfl | rfl <;> decide

/-- WIRE is whole frames, each of some colours and one of the snapshots taken (R157). -/
def wholeFrames (snapshots : List Bool → Prop) (p : Params) (wire : List Bool) : Prop :=
  ∃ frames : List (List Bool), wire = frames.flatten ∧ ∀ f ∈ frames, snapshots f ∧ ∃ cs : List Colour, f = wireFrame p cs

namespace WireInv

section
variable {snapshots : List Bool → Prop} {s t : State} (h : WireInv snapshots s)
include h

/-- Outside a transfer no frame is in progress. -/
theorem whole (hn : ¬ (s.live ∧ s.phase.draining)) : wholeFrames snapshots s.params s.wire := by
  obtain ⟨frames, part, hw, hf, -, hpart⟩ := h.frames
  exact ⟨frames, by simpa [hpart hn] using hw, hf⟩

/-- Once everything queued is emitted, the frame in progress is whole, and it is WB's. -/
theorem drained (hl : s.live) (hd : s.phase.draining) (hq : s.perQ = []) :
    wholeFrames snapshots s.params s.wire ∧ bufferBits s.params s.frameLen s.wb <:+ s.wire := by
  have htaken : s.phase.snapshotTaken := by tauto
  obtain ⟨frames, part, hw, hf, hpart, -⟩ := h.frames
  obtain rfl : part = bufferBits s.params s.frameLen s.wb := by simpa [hq] using hpart ⟨hl, hd⟩
  refine ⟨⟨frames ++ [bufferBits s.params s.frameLen s.wb], by simp [hw], fun f hm => ?_⟩, frames.flatten, hw.symm⟩
  rcases List.mem_append.1 hm with hm | hm
  · exact hf f hm
  · obtain rfl := List.mem_singleton.1 hm
    exact ⟨h.wbSnapshot hl htaken, bufferBits_of_encodesFrame (h.wbEncodes hl htaken)⟩

/-- The wire invariant is about the context, the phase, WB, TXIDX, PER_Q and WIRE. -/
theorem congr (hp : t.params = s.params) (hn : t.pixcnt = s.pixcnt) (hlive : t.live ↔ s.live) (hphase : t.phase = s.phase)
    (hwb : t.wb = s.wb) (hidx : t.txidx = s.txidx) (hq : t.perQ = s.perQ) (hw : t.wire = s.wire) :
    WireInv snapshots t := by
  have hlen : t.frameLen = s.frameLen := State.frameLen_congr hp hn
  constructor <;> simp only [hp, hn, hlive, hphase, hwb, hidx, hq, hw, hlen]
  exacts [h.wbEncodes, h.wbSnapshot, h.lastFrame, h.frames]

end

/-- With no frame in progress the wire invariant is about whole frames. -/
theorem ofWhole {snapshots : List Bool → Prop} {t : State} (hn : ¬ (t.live ∧ t.phase.draining))
    (whole : wholeFrames snapshots t.params t.wire)
    (wbEncodes : t.live → t.phase.snapshotTaken → encodesFrame t.params t.pixcnt t.wb)
    (wbSnapshot : t.live → t.phase.snapshotTaken → snapshots (bufferBits t.params t.frameLen t.wb))
    (lastFrame : t.live → t.phase.betweenFrames → t.txidx = t.frameLen →
      bufferBits t.params t.frameLen t.wb <:+ t.wire) : WireInv snapshots t := by
  obtain ⟨frames, hw, hf⟩ := whole
  exact ⟨wbEncodes, wbSnapshot, lastFrame, frames, [], by simpa using hw, hf, fun hd => absurd hd hn, fun _ => rfl⟩

/-- A step between two phases in which no frame is in progress, to one before the next snapshot. -/
theorem ofBetween {snapshots : List Bool → Prop} {s t : State} (h : WireInv snapshots s) (hl : s.live)
    (hst : t = { s with sig := t.sig, exited := t.exited, phase := t.phase, perEn := t.perEn })
    (hs : s.phase.betweenFrames) (ht : t.phase.betweenFrames) (htn : ¬ t.phase.snapshotTaken) : WireInv snapshots t := by
  have hsn : ¬ (s.live ∧ s.phase.draining) := fun hd => not_betweenFrames_of_draining hd.2 hs
  rw [hst]
  exact ofWhole (fun hd => htn (.inr (by tauto))) (h.whole hsn) (fun _ hx => absurd hx htn) (fun _ hx => absurd hx htn)
    fun _ _ => h.lastFrame hl hs

end WireInv

theorem Effect.wireInv {snapshots : List Bool → Prop} {s t : State} (he : Effect s t) (hf : FrameInv s) (hi : EngineInv s)
    (h : WireInv snapshots s) : WireInv (snapshotsAfter snapshots s t) t := by
  have mono : WireInv snapshots t → WireInv (snapshotsAfter snapshots s t) t := fun ht => ht.mono fun _ => .inl
  cases he
  case snapshot hs =>
    obtain ⟨⟨hl, hp⟩, -⟩ := hs
    have hread : ∀ a < s.frameLen, Memory.read (Memory.below s.fb s.frameLen) a = Memory.read s.fb a := fun _ ha =>
      Memory.read_below_of_lt s.fb ha
    obtain ⟨frames, hw, hfs⟩ := h.whole (by simp [hp])
    exact .ofWhole (by simp) ⟨frames, hw, fun f hm => ⟨.inl (hfs f hm).1, (hfs f hm).2⟩⟩
      (fun _ _ => encodesFrame_congr (hf.evenLength hl) hread (hf.fbFrame hl))
      (fun _ _ => .inr ⟨hp, rfl, bufferBits_congr (hf.evenLength hl) hread⟩) (by simp)
  all_goals
    refine mono ?_
    clear mono
  case initCreates n d fb hlife _ _ =>
    have hdead : ¬ s.live := by rcases hlife with hl | hl <;> simp [State.live, hl, Life.live]
    obtain ⟨wb, sig, tick, draws, hstate, -, -⟩ := newContext_state n d fb s
    rw [hstate]
    refine .ofWhole (by simp) (h.whole fun hl => hdead hl.1) (by simp) (by simp) fun _ _ hidx => ?_
    have hlen : frameLength s.params n = 0 := hidx.symm
    simp [State.frameLen, bufferBits, hlen]
  case release hr =>
    have hp : s.phase = .tExited := (hi.exitedIff (live_of_teardown hr.1)).1 hr.2
    have hdead : ¬ (releaseContext s).live := Bool.false_ne_true
    rw [releaseContext_state] at hdead ⊢
    exact .ofWhole (fun hl => hdead hl.1) (h.whole (by simp [hp])) (fun hl => absurd hl hdead) (fun hl => absurd hl hdead)
      (fun hl => absurd hl hdead)
  case wake hw =>
    obtain ⟨⟨hl, hp⟩, -⟩ := hw
    exact h.ofBetween hl rfl (by simp [hp, Phase.betweenFrames]) (by simp [Phase.betweenFrames]) (by simp)
  case check hc _ =>
    obtain ⟨hl, hp⟩ := hc
    exact h.ofBetween hl rfl (by simp [hp, Phase.betweenFrames]) (by simp [Phase.betweenFrames]) (by simp)
  case exit hx =>
    obtain ⟨⟨hl, hp⟩, -⟩ := hx
    exact h.ofBetween hl rfl (by simp [hp, Phase.betweenFrames]) (by simp [Phase.betweenFrames]) (by simp)
  case disable hd =>
    obtain ⟨hl, hp⟩ := hd
    exact h.ofBetween hl rfl (by simp [hp, Phase.betweenFrames]) (by simp [Phase.betweenFrames]) (by simp)
  case enable he =>
    obtain ⟨hl, hp⟩ := he
    have htaken : s.phase.snapshotTaken := .inl hp
    exact .ofWhole (by simp) (h.whole (by simp [hp])) (fun _ _ => h.wbEncodes hl htaken) (fun _ _ => h.wbSnapshot hl htaken)
      (by simp)
  case stream ns hs =>
    obtain ⟨hl, hp⟩ := hs
    have htaken : s.phase.snapshotTaken := by tauto
    have hdrains := phaseAfterStream_draining s.params
    obtain ⟨frames, hw, hfs⟩ := h.whole (by simp [hp])
    have hqueue : queueBits s.params (s.perQ ++ s.streamBytes) = bufferBits s.params s.frameLen s.wb := by
      rw [hi.queue_nil hl (by simp [hp]), List.nil_append, queueBits_streamBytes (hf.evenLength hl)]
    exact ⟨fun _ _ => h.wbEncodes hl htaken, fun _ _ => h.wbSnapshot hl htaken,
      fun _ hb => absurd hb (not_betweenFrames_of_draining hdrains), frames, [], by simpa using hw, hfs, fun _ => hqueue,
      fun hn => absurd ⟨hl, hdrains⟩ hn⟩
  case drain hd =>
    obtain ⟨⟨hl, hp⟩, -, hdone⟩ := hd
    obtain ⟨hw, hlast⟩ := h.drained hl (.inl hp) (hi.doneOnlyDrained hl hdone).2
    have htaken : s.phase.snapshotTaken := by tauto
    exact .ofWhole (by simp) hw (fun _ _ => h.wbEncodes hl htaken) (fun _ _ => h.wbSnapshot hl htaken) fun _ _ _ => hlast
  case resend hr _ _ =>
    obtain ⟨⟨hl, hp⟩, -, hq⟩ := hr
    obtain ⟨hw, hlast⟩ := h.drained hl (.inr hp) hq
    have htaken : s.phase.snapshotTaken := by tauto
    exact .ofWhole (by simp) hw (fun _ _ => h.wbEncodes hl htaken) (fun _ _ => h.wbSnapshot hl htaken) (by simp)
  case resendEnd hr _ =>
    obtain ⟨⟨hl, hp⟩, -, hq⟩ := hr
    obtain ⟨hw, hlast⟩ := h.drained hl (.inr hp) hq
    have htaken : s.phase.snapshotTaken := by tauto
    exact .ofWhole (by simp) hw (fun _ _ => h.wbEncodes hl htaken) (fun _ _ => h.wbSnapshot hl htaken) fun _ _ _ => hlast
  case emit bits rest he hb =>
    have hl : s.live := he.1
    have hdrains := hi.draining_of_emitEnabled he
    obtain ⟨frames, part, hw, hfs, hpart, -⟩ := h.frames
    have hqueue := hpart ⟨hl, hdrains⟩
    rw [queueBits_emitFrom he.2.2 hb, ← List.append_assoc] at hqueue
    exact ⟨h.wbEncodes, h.wbSnapshot, fun _ hb => absurd hb (not_betweenFrames_of_draining hdrains), frames, part ++ bits,
      by simp [hw], hfs, fun _ => hqueue, fun hn => absurd ⟨hl, hdrains⟩ hn⟩
  case request hrun => exact h.congr rfl rfl (iff_of_true rfl (live_of_running hrun)) rfl rfl rfl rfl rfl
  case timeout hs => exact h.congr rfl rfl (iff_of_true rfl (live_of_teardown hs.1)) rfl rfl rfl rfl rfl
  case commit us ok u _ hl hu =>
    rw [commit_state hu hl]
    exact h.congr rfl rfl Iff.rfl rfl rfl rfl rfl rfl
  case initAllocation =>
    rw [drawBit_state s]
    exact h.congr rfl rfl Iff.rfl rfl rfl rfl rfl rfl
  case initConfiguration =>
    rw [drawBit_state (drawBit s).2, drawBit_state s]
    exact h.congr rfl rfl Iff.rfl rfl rfl rfl rfl rfl
  all_goals exact h.congr rfl rfl Iff.rfl rfl rfl rfl rfl rfl

/-- Settles O57: a frame in progress is completed by the queue (`queueBits_emitFrom`, `queueBits_streamBytes`); when the
queue has run empty it is a whole frame (`WireInv.drained`), and WB's frame is the one of the snapshot (R157). -/
theorem everyStepKeepsTheWireWhole : Obligations.EveryStepKeepsTheWireWhole := by
  intro snapshots s t hf hi h hstep
  obtain ⟨turns, tick, cmds, he⟩ := step_effect hstep
  exact he.wireInv (hf.congr rfl rfl Iff.rfl rfl rfl) (hi.congr rfl hi.statusReserved)
    (h.congr rfl rfl Iff.rfl rfl rfl rfl rfl rfl)

/-! ### Updates -/

theorem lb_offFrame {p : Params} {n : Word} {m : Memory} (h : offFrame p n = .ok m) {o : Nat}
    (ho : o < frameLength p n) : Memory.read m (phys p o) = if o < 9 * n.toNat then lut 0 (o % 3) else 0 := by
  obtain ⟨-, hpix, hgap, -⟩ := offFrame_ok h
  split
  · next hlt =>
    obtain ⟨i, hi, k, hk, rfl⟩ := pixelOffset_cover hlt
    have hmod : pixelOffset i k % 3 = k % 3 := by
      unfold pixelOffset
      omega
    rw [hpix i hi k hk, pixelByte_off, hmod]
  · next hge => exact hgap o (not_lt.1 hge)

/-- The first disjunct of the invariant: it is what a step that begins an update or moves it on leaves. -/
theorem NoUpdateLost.of_pending {s : State} (h : s.updatePending) : NoUpdateLost s := fun _ => .inl h

theorem NoUpdateLost.of_not_running {s : State} (h : s.life ≠ .running) : NoUpdateLost s := fun hl => absurd hl h

/-- While a snapshot is in transfer and TERM is not set, only what is pending or that snapshot can keep the updates. -/
theorem NoUpdateLost.of_taken {s t : State} (h : NoUpdateLost s)
    (hst : t = { s with
      done := t.done, phase := t.phase, txidx := t.txidx, perEn := t.perEn, perQ := t.perQ, writeTakes := t.writeTakes })
    (hs : s.phase.snapshotTaken) (ht : t.phase.snapshotTaken ∨ t.txidx = s.frameLen) : NoUpdateLost t := by
  rw [hst]
  intro hrun
  rcases h hrun with hp | ⟨hsame, -⟩ | ⟨hidle, -⟩
  · refine .inl ?_
    rcases hp with hp | hp | hp | hp
    · exact .inl hp
    · exact .inr (.inl hp)
    all_goals
      rw [hp] at hs
      exact absurd hs (by decide)
  · exact .inr (.inl ⟨hsame, ht⟩)
  · rw [hidle] at hs
    exact absurd hs (by decide)

theorem Effect.noUpdateLost {s t : State} (he : Effect s t) (hi : EngineInv s) (h : NoUpdateLost s) : NoUpdateLost t := by
  cases he
  case initAllocation hlife _ => exact .of_not_running (by rcases hlife with hl | hl <;> simp [hl])
  case initConfiguration hlife _ => exact .of_not_running (by rcases hlife with hl | hl <;> simp [hl])
  case request => exact .of_not_running (by simp)
  case release => exact .of_not_running Life.noConfusion
  case poll hl _ _ => exact .of_not_running (by simp [hl])
  case timeout => exact .of_not_running (by simp)
  case initCreates n d fb _ _ hfb =>
    obtain ⟨wb, sig, tick, draws, hstate, -, -⟩ := newContext_state n d fb s
    rw [hstate]
    exact fun _ => .inr (.inr ⟨rfl, rfl, fun o ho => lb_offFrame hfb ho⟩)
  case commit us ok u _ hl hu =>
    rw [commit_state hu hl]
    exact .of_pending (.inl ⟨⟨ok, false⟩, by simp, rfl⟩)
  case signal => exact .of_pending (.inr (.inl rfl))
  case wake => exact .of_pending (.inr (.inr (.inl rfl)))
  case check => exact .of_pending (.inr (.inr (.inr rfl)))
  case exit hx =>
    exact .of_not_running ((hi.termIff hx.1.1).1 hx.2)
  case snapshot hs =>
    exact fun _ => .inr (.inl ⟨fun a ha => Memory.read_below_of_lt s.fb ha, .inl (.inl rfl)⟩)
  case enable he => exact h.of_taken rfl (.inl he.2) (.inl (by simp [Phase.snapshotTaken, Phase.transferring]))
  case stream hs => exact h.of_taken rfl (by tauto) (.inr rfl)
  case drain hd => exact h.of_taken rfl (by tauto) (.inl (by simp [Phase.snapshotTaken, Phase.transferring]))
  case resend hr _ _ => exact h.of_taken rfl (by tauto) (.inl (by simp [Phase.snapshotTaken, Phase.transferring]))
  case resendEnd hr _ => exact h.of_taken rfl (by tauto) (.inl (by simp [Phase.snapshotTaken, Phase.transferring]))
  case disable hd => exact h.of_taken rfl (by tauto) (.inr (hi.streamedAll hd.1 (.inr hd.2)))
  all_goals exact fun hrun => h hrun

/-- Settles O58: a commit and a signal leave an update pending, the engine moves it on to the snapshot, and a snapshot in
transfer stays WB's until the transfer is over (`NoUpdateLost.of_taken`) (R77 to R79). -/
theorem everyStepKeepsUpdatesFromBeingLost : Obligations.EveryStepKeepsUpdatesFromBeingLost := by
  intro s t _ hi h hstep
  obtain ⟨turns, tick, cmds, he⟩ := step_effect hstep
  exact he.noUpdateLost (hi.congr rfl hi.statusReserved) h

/-! ### Quiescent states -/

/-- In a quiescent state neither the engine nor the peripheral has an enabled step (R162). -/
theorem not_enabled_of_quiescent {s : State} (h : s.quiescent) : ¬ s.engineEnabled ∧ ¬ s.peripheralEnabled := by
  obtain ⟨-, -, hq, hphase⟩ := h
  refine ⟨fun he => ?_, ?_⟩
  · obtain ⟨-, he⟩ := s.engineEnabled_iff.1 he
    rcases hphase with ⟨hp, hs, ht⟩ | hp
    · simp [State.ready, hp, hs, ht] at he
    · simp [State.ready, hp] at he
  · rintro (⟨-, -, hunit⟩ | ⟨-, -, -, hp, -⟩)
    · exact absurd hunit (by simp [hq, (emitUnit_pos s.params).ne'])
    · rcases hphase with ⟨hp', -⟩ | hp' <;> simp [hp'] at hp

/-- Settles O30: no agent has an enabled step (`not_enabled_of_quiescent`); with no update pending WB is FB's snapshot
(O58's invariant), whose frame WIRE ends in (O57's invariant) (R162). -/
theorem quiescentStatesAreFinal : Obligations.QuiescentStatesAreFinal := by
  refine ⟨fun s t ts hquiet ht hagent => ?_, fun snapshots s hf hi hw hu hend hrun => ?_⟩
  · have ⟨hcalls, hlife, _, _⟩ := hquiet
    rcases hagent with rfl | rfl | rfl | ⟨k, rfl⟩
    · exact step_engine_blocked ht (not_enabled_of_quiescent hquiet).1
    · exact step_peripheral_blocked ht (not_enabled_of_quiescent hquiet).2
    · exact step_poll_blocked ht hlife
    · exact step_signal_blocked ht (by simp [hcalls])
  · obtain ⟨⟨hcalls, -, -, hphase⟩, -⟩ := hend
    have hl : s.live := live_of_running hrun
    have hterm : s.term = false := by simpa [hrun] using hi.termIff hl
    obtain ⟨hp, hsig⟩ : s.phase = .tIdle ∧ s.sig = false := by
      rcases hphase with ⟨hp, hs, -⟩ | hp
      · exact ⟨hp, hs⟩
      · have := hi.exitedOnRequest hl ((hi.exitedIff hl).2 hp)
        simp [hterm] at this
    rcases hu hrun with hpend | ⟨hsame, htaken⟩ | hfresh
    · rcases hpend with ⟨c, hc, -⟩ | h | h | h
      · simp [hcalls] at hc
      · simp [hsig] at h
      · simp [hp] at h
      · simp [hp] at h
    · have hidx : s.txidx = s.frameLen := htaken.resolve_left (by simp [hp])
      have hbits : bufferBits s.params s.frameLen s.wb = s.frameBits := bufferBits_congr (hf.evenLength hl) hsame
      exact .inl ⟨hsame, hbits ▸ hw.lastFrame hl (.inl hp) hidx⟩
    · exact .inr hfresh

end Sys2Proof.Machine
end

section
/-! One transfer, turn by turn (R148 to R157). -/

namespace Sys2Proof.Machine

/-- The engine's turn runs the step of its phase. -/
theorem step_engine_at {s : State} {ts : List Turn} {i : Instr} (ht : s.turns = .engine :: ts)
    (hi : decodePhase s.phase.code = .ok i) : step s = exec i { s with turns := ts } :=
  step_of_operation ht (operationOf_engine (s := { s with turns := ts }) hi)

section
variable {s : State} {ts : List Turn} (ht : s.turns = .engine :: ts)
include ht

theorem step_snapshot (h : s.snapshotEnabled) :
    step s = .next { s with wb := Memory.below s.fb s.frameLen, phase := .tEnable, turns := ts } :=
  (step_engine_at ht (by rw [h.1.2]; rfl)).trans (exec_txSnapshot_of_enabled (s := { s with turns := ts }) h)

theorem step_enable (h : s.engineAt .tEnable) :
    step s = .next { s with perEn := true, done := false, txidx := 0, phase := .tStream, turns := ts } :=
  (step_engine_at ht (by rw [h.2]; rfl)).trans (exec_txEnable_of_enabled (s := { s with turns := ts }) h)

theorem step_stream (h : s.engineAt .tStream) (hw : s.writeTakes = []) :
    step s = .next { s with
      perQ := s.perQ ++ s.streamBytes, txidx := s.frameLen, phase := phaseAfterStream s.params, writeTakes := []
      turns := ts } :=
  (step_engine_at ht (by rw [h.2]; rfl)).trans
    (exec_txStream_accepted (s := { s with turns := ts }) h (.inl ⟨hw, rfl⟩))

theorem step_drain (h : s.drainEnabled) : step s = .next { s with done := false, phase := .tDisable, turns := ts } :=
  (step_engine_at ht (by rw [h.1.2]; rfl)).trans (exec_txDrain_of_enabled (s := { s with turns := ts }) h)

theorem step_disable (h : s.engineAt .tDisable) : step s = .next { s with perEn := false, phase := .tIdle, turns := ts } :=
  (step_engine_at ht (by rw [h.2]; rfl)).trans (exec_txDisable_of_enabled (s := { s with turns := ts }) h)

end

/-- The peripheral's turn emits one unit of a queue that holds one. -/
theorem step_emits {s : State} {ts : List Turn} (ht : s.turns = .peripheral :: ts) (he : s.emitEnabled) {bits : List Bool}
    {rest : List Byte} (hb : emitFrom s.params s.perQ = some (bits, rest)) :
    step s = .next { s with perQ := rest, wire := s.wire ++ bits, turns := ts } :=
  (step_of_operation ht (operationOf_peripheral_emit (s := { s with turns := ts }) he)).trans
    (execPerEmit_emits (s := { s with turns := ts }) he hb)

/-- The peripheral's turn reports a transfer that has ended. -/
theorem step_completes {s : State} {ts : List Turn} (ht : s.turns = .peripheral :: ts) (hc : s.completeEnabled) :
    step s = .next { s with done := true, turns := ts } := by
  have hq : s.perQ = [] := hc.2.2.2.2.2.1
  have hn : ¬ s.emitEnabled := fun he => absurd he.2.2 (by simp [hq, (emitUnit_pos s.params).ne'])
  exact (step_of_operation ht (operationOf_peripheral_complete (s := { s with turns := ts }) hn)).trans
    (exec_perComplete_of_enabled (s := { s with turns := ts }) hc)

theorem emitFrom_isSome {p : Params} {q : List Byte} (h : emitUnit p ≤ q.length) :
    ∃ bits rest, emitFrom p q = some (bits, rest) ∧ q.length = rest.length + emitUnit p := by
  obtain ⟨hl, a, b, rest, rfl, he⟩ | ⟨hl, a, rest, rfl, he⟩ := emitFrom_cases p q h
  · exact ⟨_, rest, he, by simp [emitUnit_on hl]⟩
  · exact ⟨_, rest, he, by simp [emitUnit_off hl]⟩

/-- As many peripheral turns as units are queued put the whole queue on the wire. -/
theorem run_emits (n k : Nat) (s : State) (ts : List Turn) (hl : s.live) (hen : s.perEn = true)
    (hq : s.perQ.length = n * emitUnit s.params) (ht : s.turns = List.replicate n .peripheral ++ ts) :
    Host.Core.run Sys2Proof.core (k + n) s =
      Host.Core.run Sys2Proof.core k
        { s with perQ := [], wire := s.wire ++ queueBits s.params s.perQ, turns := ts } := by
  induction n generalizing s with
  | zero =>
    have hnil : s.perQ = [] := by simpa using hq
    have hs : ({ s with perQ := [], wire := s.wire ++ queueBits s.params s.perQ, turns := ts } : State) = s := by
      rw [hnil, queueBits_nil, List.append_nil, ← hnil, show ts = s.turns from ht.symm]
    rw [hs]
    rfl
  | succ n ih =>
    rw [Nat.succ_mul] at hq
    have hunit : emitUnit s.params ≤ s.perQ.length := by omega
    obtain ⟨bits, rest, hb, hlen⟩ := emitFrom_isSome hunit
    have ht' : s.turns = .peripheral :: (List.replicate n .peripheral ++ ts) := ht
    have hrest : rest.length = n * emitUnit s.params := by omega
    rw [← Nat.add_assoc, core_run_of_next (step_emits ht' ⟨hl, hen, hunit⟩ hb), queueBits_emitFrom hunit hb,
      ih { s with perQ := rest, wire := s.wire ++ bits, turns := List.replicate n .peripheral ++ ts } hl hen hrest rfl]
    simp only [List.append_assoc]

/-- Three engine turns from a snapshot on hand the snapshot's bytes over to the peripheral (R148 to R150). -/
theorem run_snapshot_enable_stream (k : Nat) {s : State} {ts : List Turn} (hs : s.snapshotEnabled)
    (hstrategy : s.params.txStrategy = .completionWait) (hw : s.writeTakes = [])
    (ht : s.turns = .engine :: .engine :: .engine :: ts) :
    Host.Core.run Sys2Proof.core (k + 3) s =
      Host.Core.run Sys2Proof.core k { s with
        wb := Memory.below s.fb s.frameLen
        perEn := true
        done := false
        txidx := s.frameLen
        phase := .tDrain
        perQ := s.perQ ++ (List.range s.frameLen).map fun a => Memory.read (Memory.below s.fb s.frameLen) a
        writeTakes := []
        turns := ts } := by
  have hphase : phaseAfterStream s.params = .tDrain := by rw [phaseAfterStream_eq_ite, if_pos hstrategy]
  rw [← hphase]
  refine (core_run_of_next (step_snapshot ht hs) _).trans ?_
  refine (core_run_of_next (step_enable rfl ⟨?_, rfl⟩) _).trans ?_
  · exact hs.1.1
  · refine core_run_of_next (step_stream rfl ⟨?_, rfl⟩ ?_) _
    · exact hs.1.1
    · exact hw

/-- A turn of the peripheral and two of the engine end a transfer whose bytes are on the wire (R151, R152, R156). -/
theorem run_complete_drain_disable (k : Nat) {s : State} {ts : List Turn} (hc : s.completeEnabled)
    (ht : s.turns = .peripheral :: .engine :: .engine :: ts) :
    Host.Core.run Sys2Proof.core (k + 3) s =
      Host.Core.run Sys2Proof.core k { s with perEn := false, done := false, phase := .tIdle, turns := ts } := by
  obtain ⟨hl, hstrategy, -, hp, -⟩ := id hc
  refine (core_run_of_next (step_completes ht hc) _).trans ?_
  refine (core_run_of_next (step_drain rfl ⟨⟨?_, ?_⟩, ?_, rfl⟩) _).trans ?_
  · exact hl
  · exact hp
  · exact hstrategy
  · refine core_run_of_next (step_disable rfl ⟨?_, rfl⟩) _
    exact hl

/-- Settles O59: the snapshot, TX_ENABLE and TX_STREAM queue WB's bytes; the peripheral's turns put them on the wire
(`run_emits`) in logical order (`queueBits_buffer`); PER_COMPLETE, TX_DRAIN and TX_DISABLE end the transfer. -/
theorem oneTransferEmitsTheFrame : Obligations.OneTransferEmitsTheFrame := by
  intro s ts hl hp hlock hstrategy heven hq hw ht
  have hbits : bufferBits s.params s.frameLen (Memory.below s.fb s.frameLen) = bufferBits s.params s.frameLen s.fb :=
    bufferBits_congr heven fun _ ha => Memory.read_below_of_lt s.fb ha
  have hunits : s.frameLen = s.frameLen / emitUnit s.params * emitUnit s.params :=
    (Nat.div_mul_cancel (Nat.dvd_of_mod_eq_zero (frameLength_whole heven))).symm
  have ht' : s.turns = .engine :: .engine :: .engine :: (List.replicate (s.frameLen / emitUnit s.params) .peripheral ++
      .peripheral :: .engine :: .engine :: ts) := by
    rw [ht]
    simp
  have hqueue : queueBits s.params
      (s.perQ ++ (List.range s.frameLen).map fun a => Memory.read (Memory.below s.fb s.frameLen) a) =
        bufferBits s.params s.frameLen s.fb := by
    rw [hq, List.nil_append, queueBits_buffer (len := s.frameLen) heven, hbits]
  have hrun : Host.Core.run Sys2Proof.core (s.frameLen / emitUnit s.params + 6) s = .next { s with
      wb := Memory.below s.fb s.frameLen, perEn := false, done := false, txidx := s.frameLen, phase := .tIdle
      perQ := [], wire := s.wire ++ bufferBits s.params s.frameLen s.fb, writeTakes := [], turns := ts } := by
    rw [← hqueue, show s.frameLen / emitUnit s.params + 6 = 3 + s.frameLen / emitUnit s.params + 3 by omega]
    refine (run_snapshot_enable_stream _ ⟨⟨hl, hp⟩, hlock⟩ hstrategy hw ht').trans ?_
    refine (run_emits (s.frameLen / emitUnit s.params) 3 _ _ ?_ rfl ?_ rfl).trans ?_
    · exact hl
    · rw [← hunits]
      simp [hq]
    exact run_complete_drain_disable 0 ⟨hl, hstrategy, rfl, rfl, rfl, rfl, rfl⟩ rfl
  refine ⟨_, hrun, ?_⟩
  rw [← hq, ← hw]

end Sys2Proof.Machine
end

section
/-! Weakly fair runs: the queue drains, and a pending update is transmitted (R79, R161, R198). -/

namespace Sys2Proof.Machine

/-! ### The queue drains -/

/-- The invariants hold in every state of a run that begins where they hold. -/
theorem IsRun.invariants {run : Nat → State} (hr : IsRun run) {n m : Nat} (hnm : n ≤ m) (hf : FrameInv (run n))
    (hi : EngineInv (run n)) : FrameInv (run m) ∧ EngineInv (run m) := by
  induction m, hnm using Nat.le_induction with
  | base => exact ⟨hf, hi⟩
  | succ m _ ih =>
    exact ⟨everyStepKeepsTheFrame _ _ ih.1 (hr m), everyStepKeepsTheEngineConsistent _ _ ih.1 ih.2 (hr m)⟩

/-- What is queued can be emitted (R33, R155). -/
theorem EngineInv.emitEnabled_of_queue {s : State} (hi : EngineInv s) (hq : s.perQ ≠ []) : s.emitEnabled := by
  have hl : s.live := by_contra fun hn => hq (hi.noQueue hn)
  have hd : s.phase.draining := by_contra fun hn => hq (hi.queueEmpty hl hn)
  have hpos : 0 < s.perQ.length := List.length_pos_of_ne_nil hq
  exact ⟨hl, (hi.enabledIff hl).2 (by tauto),
    Nat.le_of_dvd hpos (Nat.dvd_of_mod_eq_zero (hi.wholeUnits hl))⟩

/-- While something is queued, a step leaves PER_Q and WIRE, or moves one unit from one to the other. -/
theorem queue_step {s t : State} (hi : EngineInv s) (hq : s.perQ ≠ []) (h : step s = .next t) :
    t.params = s.params ∧ ((t.perQ = s.perQ ∧ t.wire = s.wire) ∨
      (t.perQ.length < s.perQ.length ∧ s.wire ++ queueBits s.params s.perQ = t.wire ++ queueBits s.params t.perQ)) := by
  have he := hi.emitEnabled_of_queue hq
  have hd := hi.draining_of_emitEnabled he
  have hstep := live_step hi he.1 (ne_tExited_of_draining hd) h
  refine ⟨hstep.params, ?_⟩
  rcases hstep.queue with hsame | ⟨bits, rest, hunit, hb, hrest, hw⟩ | ⟨hp, -⟩
  · exact .inl hsame
  · refine .inr ⟨by rw [hrest]; exact emitFrom_shorter hunit hb, ?_⟩
    rw [hrest, hw, queueBits_emitFrom hunit hb, List.append_assoc]
  · rw [hp] at hd
    exact absurd hd (by decide)

section
variable {run : Nat → State} (hr : IsRun run) (hfair : WeaklyFair run) {n : Nat} (hf : FrameInv (run n))
  (hi : EngineInv (run n))
include hr hfair hf hi

/-- By induction on a bound of what is queued: the emit step stays enabled until PER_Q gets shorter (R161). -/
theorem queue_runs_empty_of_length_le (bound : Nat) (hb : (run n).perQ.length ≤ bound) :
    ∃ m, n ≤ m ∧ (run m).perQ = [] := by
  induction bound generalizing n with
  | zero => exact ⟨n, le_rfl, List.length_eq_zero_iff.1 (Nat.le_zero.1 hb)⟩
  | succ bound ih =>
    by_cases hq : (run n).perQ = []
    · exact ⟨n, le_rfl, hq⟩
    have hmoves : ¬ ∀ m, n ≤ m → (run m).perQ = (run n).perQ := by
      intro hstuck
      obtain ⟨m, hm, hne⟩ := hfair.queue_moves hr fun m hm =>
        (hr.invariants hm hf hi).2.emitEnabled_of_queue (hstuck m hm ▸ hq)
      exact hne ((hstuck (m + 1) (by omega)).trans (hstuck m hm).symm)
    obtain ⟨m, hm, hsame, hne⟩ := first_change (fun k => (run k).perQ) n hmoves
    have hqm : (run m).perQ = (run n).perQ := hsame m hm le_rfl
    have him := (hr.invariants hm hf hi).2
    have hshort : (run (m + 1)).perQ.length < (run m).perQ.length := by
      rcases (queue_step him (hqm ▸ hq) (hr m)).2 with ⟨h, -⟩ | ⟨h, -⟩
      · exact absurd h hne
      · exact h
    obtain ⟨hf', hi'⟩ := hr.invariants (show n ≤ m + 1 by omega) hf hi
    rw [hqm] at hshort
    obtain ⟨k, hk, hkq⟩ := ih hf' hi' (by omega)
    exact ⟨k, by omega, hkq⟩

/-- The peripheral in the end emits everything queued, in order: what WIRE and the queue hold together stays the same
until the queue is empty. -/
theorem queue_drains :
    ∃ m, n ≤ m ∧ (run m).perQ = [] ∧ (run m).wire = (run n).wire ++ queueBits (run n).params (run n).perQ := by
  classical
  have hex := queue_runs_empty_of_length_le hr hfair hf hi _ le_rfl
  obtain ⟨hle, hempty⟩ := Nat.find_spec hex
  have hkept : ∀ m, n ≤ m → m ≤ Nat.find hex → (run m).params = (run n).params ∧
      (run m).wire ++ queueBits (run n).params (run m).perQ = (run n).wire ++ queueBits (run n).params (run n).perQ := by
    intro m hm
    induction m, hm using Nat.le_induction with
    | base => exact fun _ => ⟨rfl, rfl⟩
    | succ m hm ih =>
      intro hlt
      obtain ⟨hp, hkept⟩ := ih (by omega)
      have hq : (run m).perQ ≠ [] := fun hq => Nat.find_min hex (show m < Nat.find hex by omega) ⟨hm, hq⟩
      obtain ⟨hp', hstep⟩ := queue_step (hr.invariants hm hf hi).2 hq (hr m)
      rw [hp] at hp' hstep
      refine ⟨hp', ?_⟩
      rcases hstep with ⟨hq', hw'⟩ | ⟨-, hmoved⟩
      · rw [hq', hw', hkept]
      · rw [← hmoved, hkept]
  have hend := (hkept _ hle le_rfl).2
  rw [hempty, queueBits_nil, List.append_nil] at hend
  exact ⟨_, hle, hempty, hend⟩

end

/-! ### The engine goes round -/

/-- A fair run in which, from step `n` on, the context is RUNNING and no termination is requested. -/
structure Serving (run : Nat → State) (n : Nat) : Prop where
  isRun : IsRun run
  fair : WeaklyFair run
  frame : ∀ m, n ≤ m → FrameInv (run m)
  engine : ∀ m, n ≤ m → EngineInv (run m)
  running : ∀ m, n ≤ m → (run m).life = .running
  term : ∀ m, n ≤ m → (run m).term = false

theorem EngineInv.ne_tExited_of_not_term {s : State} (hi : EngineInv s) (hl : s.live) (ht : s.term = false) :
    s.phase ≠ .tExited := by
  intro hp
  have := hi.exitedOnRequest hl ((hi.exitedIff hl).2 hp)
  simp [ht] at this

theorem Serving.of_no_term {run : Nat → State} (hr : IsRun run) (hfair : WeaklyFair run) {n : Nat}
    (hf : FrameInv (run n)) (hi : EngineInv (run n)) (hrun : (run n).life = .running)
    (ht : ∀ m, n ≤ m → (run m).term = false) : Serving run n where
  isRun := hr
  fair := hfair
  frame _ hm := (hr.invariants hm hf hi).1
  engine _ hm := (hr.invariants hm hf hi).2
  running m hm := by
    induction m, hm using Nat.le_induction with
    | base => exact hrun
    | succ m hm ih =>
      have him := (hr.invariants hm hf hi).2
      have hl := live_of_running ih
      exact (live_step him hl (him.ne_tExited_of_not_term hl (ht m hm)) (hr m)).running (ht _ (by omega)) ih
  term := ht

namespace Serving

section
variable {run : Nat → State} {n : Nat} (h : Serving run n)
include h

theorem mono {m : Nat} (hm : n ≤ m) : Serving run m :=
  ⟨h.isRun, h.fair, fun k hk => h.frame k (hm.trans hk), fun k hk => h.engine k (hm.trans hk),
    fun k hk => h.running k (hm.trans hk), fun k hk => h.term k (hm.trans hk)⟩

theorem live {m : Nat} (hm : n ≤ m) : (run m).live := live_of_running (h.running m hm)

theorem ne_tExited {m : Nat} (hm : n ≤ m) : (run m).phase ≠ .tExited :=
  (h.engine m hm).ne_tExited_of_not_term (h.live hm) (h.term m hm)

theorem liveStep {m : Nat} (hm : n ≤ m) : LiveStep (run m) (run (m + 1)) :=
  live_step (h.engine m hm) (h.live hm) (h.ne_tExited hm) (h.isRun m)

theorem params {m : Nat} (hm : n ≤ m) : (run m).params = (run n).params := by
  induction m, hm using Nat.le_induction with
  | base => rfl
  | succ m hm ih => exact (h.liveStep hm).params.trans ih

theorem pixcnt {m : Nat} (hm : n ≤ m) : (run m).pixcnt = (run n).pixcnt := by
  induction m, hm using Nat.le_induction with
  | base => rfl
  | succ m hm ih => exact (h.liveStep hm).pixcnt.trans ih

/-- Within a phase SIG is not taken back. -/
theorem sig_within {m : Nat} (hm : n ≤ m) (hp : ∀ k, n ≤ k → k ≤ m → (run k).phase = (run n).phase)
    (hs : (run n).sig = true) : (run m).sig = true := by
  induction m, hm using Nat.le_induction with
  | base => exact hs
  | succ m hm ih =>
    have hsame : (run (m + 1)).phase = (run m).phase :=
      (hp (m + 1) (by omega) le_rfl).trans (hp m hm (by omega)).symm
    exact ((h.liveStep hm).within hsame).1 (ih fun k hk hkm => hp k hk (by omega))

/-- Within a phase in which nothing is on its way to the wire, WB and WIRE stay. -/
theorem wb_wire_within {m : Nat} (hm : n ≤ m) (hp : ∀ k, n ≤ k → k ≤ m → (run k).phase = (run n).phase)
    (hd : ¬ (run n).phase.draining) : (run m).wb = (run n).wb ∧ (run m).wire = (run n).wire := by
  induction m, hm using Nat.le_induction with
  | base => exact ⟨rfl, rfl⟩
  | succ m hm ih =>
    obtain ⟨hwb, hw⟩ := ih fun k hk hkm => hp k hk (by omega)
    have hpm := hp m hm (by omega)
    have hsame : (run (m + 1)).phase = (run m).phase := (hp (m + 1) (by omega) le_rfl).trans hpm.symm
    have hq : (run m).perQ = [] := (h.engine m hm).queue_nil (h.live hm) (hpm ▸ hd)
    refine ⟨((h.liveStep hm).within hsame).2.1.trans hwb, ?_⟩
    rcases (h.liveStep hm).queue with ⟨-, hsame⟩ | ⟨_, _, hunit, -⟩ | ⟨hs, hne, -⟩
    · exact hsame.trans hw
    · exact absurd hunit (by simp [hq, (emitUnit_pos (run m).params).ne'])
    · exact absurd (hsame.trans hs) hne

/-- Once the engine hands nothing more over, the queue is empty from some step on. -/
theorem queue_empty_in_the_end (hp : ∀ m, n ≤ m → (run m).phase ≠ .tStream) :
    ∃ j, n ≤ j ∧ ∀ m, j ≤ m → (run m).perQ = [] := by
  obtain ⟨j, hj, hempty, -⟩ := queue_drains h.isRun h.fair (h.frame n le_rfl) (h.engine n le_rfl)
  refine ⟨j, hj, fun m hm => ?_⟩
  induction m, hm using Nat.le_induction with
  | base => exact hempty
  | succ m hm ih =>
    have hnm : n ≤ m := hj.trans hm
    rcases (h.liveStep hnm).queue with ⟨hsame, -⟩ | ⟨_, _, hunit, -⟩ | ⟨hs, -⟩
    · exact hsame.trans ih
    · exact absurd hunit (by simp [ih, (emitUnit_pos (run m).params).ne'])
    · exact absurd hs (hp m hnm)

/-- In T_DRAIN, under CompletionWait, the peripheral reports the end of the transfer in the end (R156). -/
theorem done_in_the_end (hp : ∀ m, n ≤ m → (run m).phase = .tDrain) :
    ∃ j, n ≤ j ∧ ∀ m, j ≤ m → (run m).done = true := by
  obtain ⟨i, hi, hempty⟩ := h.queue_empty_in_the_end fun m hm => by simp [hp m hm]
  obtain ⟨j, hj, hdone⟩ : ∃ j, i ≤ j ∧ (run j).done = true := by
    by_contra hnever
    have hcomplete : ∀ m, i ≤ m → (run m).completeEnabled := fun m hm => by
      have hnm : n ≤ m := hi.trans hm
      have hl := h.live hnm
      have he := h.engine m hnm
      have hd : (run m).done = false := by
        by_contra hd
        exact hnever ⟨m, hm, by simpa using hd⟩
      exact ⟨hl, he.drainStrategy hl (hp m hnm), (he.enabledIff hl).2 (.inr (.inl (hp m hnm))), hp m hnm,
        he.streamedAll hl (.inl (.inl (hp m hnm))), hempty m hm, hd⟩
    obtain ⟨m, hm, ht⟩ := h.fair.peripheral i fun m hm => .inr (hcomplete m hm)
    have hn : ¬ (run m).emitEnabled := fun he =>
      absurd he.2.2 (by simp [hempty m hm, (emitUnit_pos (run m).params).ne'])
    exact hnever ⟨m + 1, by omega, peripheral_turn_reports (h.isRun m) ht hn (hcomplete m hm)⟩
  refine ⟨j, hi.trans hj, fun m hm => ?_⟩
  induction m, hm using Nat.le_induction with
  | base => exact hdone
  | succ m hm ih =>
    have hnm : n ≤ m := (hi.trans hj).trans hm
    exact ((h.liveStep hnm).within ((hp (m + 1) (by omega)).trans (hp m hnm).symm)).2.2 ih

/-- In every phase the engine's step is enabled for good from some step on, should it stay in the phase: with SIG pending
where the phase waits for it. -/
theorem engineEnabled_in_the_end (hp : ∀ m, n ≤ m → (run m).phase = (run n).phase)
    (hs : (run n).phase = .tIdle ∨ (run n).phase = .tResend → (run n).sig = true) :
    ∃ j, n ≤ j ∧ ∀ m, j ≤ m → (run m).engineEnabled := by
  have enabled {j : Nat} (hj : n ≤ j) (hm : ∀ m, j ≤ m → (run m).ready (run n).phase) :
      ∃ j, n ≤ j ∧ ∀ m, j ≤ m → (run m).engineEnabled :=
    ⟨j, hj, fun m hjm => (run m).engineEnabled_iff.2 ⟨h.live (hj.trans hjm), hp m (hj.trans hjm) ▸ hm m hjm⟩⟩
  have hsig (hs : (run n).sig = true) : ∀ m, n ≤ m → (run m).sig = true := fun m hm =>
    h.sig_within hm (fun k hk _ => hp k hk) hs
  cases hphase : (run n).phase with
  | tIdle => exact enabled le_rfl fun m hm => hphase ▸ .inl (hsig (hs (.inl hphase)) m hm)
  | tSnap => exact enabled le_rfl fun m hm => hphase ▸ (h.engine m hm).lockFree
  | tDrain =>
    rw [hphase] at hp
    obtain ⟨j, hj, hdone⟩ := h.done_in_the_end hp
    refine enabled hj fun m hm => hphase ▸ ⟨?_, hdone m hm⟩
    exact (h.engine m (hj.trans hm)).drainStrategy (h.live (hj.trans hm)) (hp m (hj.trans hm))
  | tResend =>
    rw [hphase] at hp
    obtain ⟨j, hj, hempty⟩ := h.queue_empty_in_the_end fun m hm => by simp [hp m hm]
    refine enabled hj fun m hm => hphase ▸ ⟨?_, hempty m hm⟩
    exact (h.engine m (hj.trans hm)).resendStrategy (h.live (hj.trans hm)) (hp m (hj.trans hm))
  | tExited => exact absurd hphase (h.ne_tExited le_rfl)
  | tCheck | tEnable | tStream | tDisable => exact enabled le_rfl fun m hm => hphase ▸ trivial

/-- So the engine leaves every phase (R161). -/
theorem leaves (hs : (run n).phase = .tIdle ∨ (run n).phase = .tResend → (run n).sig = true) :
    ∃ m, n ≤ m ∧ (∀ k, n ≤ k → k ≤ m → (run k).phase = (run n).phase) ∧ (run (m + 1)).phase ≠ (run m).phase := by
  refine first_change (fun m => (run m).phase) n fun hp => ?_
  obtain ⟨j, hj, he⟩ := h.engineEnabled_in_the_end hp hs
  obtain ⟨m, hm, hne⟩ := h.fair.phase_moves h.isRun he
  exact hne ((hp (m + 1) (by omega)).trans (hp m (hj.trans hm)).symm)

end

end Serving

/-! ### A pending update is transmitted -/

/-- How far the engine is from its next snapshot. -/
def phasesToSnapshot : Phase → Nat
  | .tSnap => 0
  | .tCheck => 1
  | .tIdle => 2
  | .tDisable => 3
  | .tDrain => 4
  | .tResend => 4
  | .tStream => 5
  | .tEnable => 6
  | .tExited => 7

/-- An update the engine is to take up: SIG is set, or it is consumed and the snapshot is ahead. -/
def State.awaitsSnapshot (s : State) : Prop := s.sig = true ∨ s.phase = .tCheck ∨ s.phase = .tSnap

/-- With an update to take up and no termination requested, a step that moves PHASE is the snapshot or comes nearer to it
(R158). -/
theorem move_towards_snapshot {s t : State} (h : step s = .next t) (hl : LiveStep s t) (hlive : s.live)
    (hterm : s.term = false) (hw : s.awaitsSnapshot) (hne : t.phase ≠ s.phase) :
    (s.phase = .tSnap ∧ t.phase = .tEnable) ∨
      (t.awaitsSnapshot ∧ phasesToSnapshot t.phase < phasesToSnapshot s.phase) := by
  have hsig (hc : s.phase ≠ .tCheck) (hsn : s.phase ≠ .tSnap) : s.sig = true :=
    hw.resolve_right fun h => h.elim hc hsn
  have closer {p q : Phase} (hp : s.phase = p) (ht : t.phase = q)
      (hpq : p ≠ .tIdle ∧ p ≠ .tCheck ∧ p ≠ .tSnap ∧ phasesToSnapshot q < phasesToSnapshot p) :
      t.awaitsSnapshot ∧ phasesToSnapshot t.phase < phasesToSnapshot s.phase := by
    subst hp ht
    obtain ⟨hi, hc, hsn, hlt⟩ := hpq
    exact ⟨.inl (hl.signal hi (hsig hc hsn)), hlt⟩
  rcases phaseMovesOnlyAlongTheTable s t h hne with ⟨hdead, -⟩ | ⟨-, hrow⟩
  · exact absurd hlive (by simp [State.live, hdead])
  rcases hrow with ⟨hp, ht, -⟩ | ⟨hp, ht, hx⟩ | ⟨hp, ht, -⟩ | ⟨hp, ht⟩ | ⟨hp, ht⟩ | ⟨hp, ht, -⟩ | ⟨hp, ht, -⟩ |
    ⟨hp, ht, -⟩ | ⟨hp, ht, -, hs, -⟩ | ⟨hp, ht, -⟩ | ⟨hp, ht⟩
  · exact .inr ⟨.inr (.inl ht), by simp [hp, ht, phasesToSnapshot]⟩
  · simp [hterm] at hx
  · exact .inr ⟨.inr (.inr ht), by simp [hp, ht, phasesToSnapshot]⟩
  · exact .inl ⟨hp, ht⟩
  · exact .inr (closer hp ht (by decide))
  · exact .inr (closer hp ht (by decide))
  · exact .inr (closer hp ht (by decide))
  · exact .inr (closer hp ht (by decide))
  · simp [hsig (by simp [hp]) (by simp [hp])] at hs
  · exact .inr (closer hp ht (by decide))
  · exact .inr (closer hp ht (by decide))

namespace Serving

/-- An update to take up is snapshotted: by induction on the phases before the snapshot. -/
theorem snapshot_follows {run : Nat → State} {n : Nat} (h : Serving run n) (hw : (run n).awaitsSnapshot) :
    ∃ m, n ≤ m ∧ (run m).phase = .tSnap ∧ (run (m + 1)).phase = .tEnable := by
  induction hd : phasesToSnapshot (run n).phase using Nat.strong_induction_on generalizing n with
  | _ d ih =>
    obtain ⟨m, hm, hp, hne⟩ := h.leaves fun hp =>
      hw.resolve_right (by rcases hp with hp | hp <;> simp [hp])
    have hpm := hp m hm le_rfl
    have hwm : (run m).awaitsSnapshot := by
      rcases hw with hs | hw
      · exact .inl (h.sig_within hm hp hs)
      · exact .inr (hpm ▸ hw)
    rcases move_towards_snapshot (h.isRun m) (h.liveStep hm) (h.live hm) (h.term m hm) hwm hne with hsnap | ⟨hw', hlt⟩
    · exact ⟨m, hm, hsnap⟩
    · rw [hpm, hd] at hlt
      obtain ⟨k, hk, hsnap⟩ := ih _ hlt (h.mono (show n ≤ m + 1 by omega)) hw' rfl
      exact ⟨k, by omega, hsnap⟩

section
variable {run : Nat → State} {n : Nat} (h : Serving run n)
include h

/-- From T_ENABLE the engine goes on to T_STREAM with WB and WIRE as they are. -/
theorem stream_follows (hp : (run n).phase = .tEnable) :
    ∃ m, n ≤ m ∧ (run m).phase = .tStream ∧ (run m).wb = (run n).wb ∧ (run m).wire = (run n).wire := by
  obtain ⟨m, hm, hwithin, hne⟩ := h.leaves (by simp [hp])
  obtain ⟨hwb, hw⟩ := h.wb_wire_within hm hwithin (by simp [hp])
  have hpm : (run m).phase = .tEnable := (hwithin m hm le_rfl).trans hp
  obtain ⟨hwb', -, hw'⟩ := (h.liveStep hm).leavesEnable hpm (hpm ▸ hne)
  refine ⟨m + 1, by omega, ?_, hwb'.trans hwb, hw'.trans hw⟩
  rcases phaseMovesOnlyAlongTheTable _ _ (h.isRun m) hne with ⟨hdead, -⟩ | ⟨-, hrow⟩
  · exact absurd (h.live hm) (by simp [State.live, hdead])
  · simpa [hpm] using hrow

/-- From T_STREAM the frame of WB is put on the wire, whole. -/
theorem wb_emitted (hp : (run n).phase = .tStream) :
    ∃ m, n < m ∧ (run m).wire = (run n).wire ++ bufferBits (run n).params (run n).frameLen (run n).wb := by
  obtain ⟨m, hm, hwithin, hne⟩ := h.leaves (by simp [hp])
  obtain ⟨hwb, hw⟩ := h.wb_wire_within hm hwithin (by simp [hp])
  have hpm : (run m).phase = .tStream := (hwithin m hm le_rfl).trans hp
  obtain ⟨hq, hw'⟩ := (h.liveStep hm).leavesStream hpm (hpm ▸ hne)
  have hempty : (run m).perQ = [] := (h.engine m hm).queue_nil (h.live hm) (by simp [hpm])
  have hm' : n ≤ m + 1 := by omega
  obtain ⟨k, hk, -, hwire⟩ := queue_drains h.isRun h.fair (h.frame _ hm') (h.engine _ hm')
  have hlen : (run m).frameLen = (run n).frameLen := State.frameLen_congr (h.params hm) (h.pixcnt hm)
  have heven := (h.frame n le_rfl).evenLength (h.live le_rfl)
  refine ⟨k, by omega, ?_⟩
  rw [hwire, hq, hempty, List.nil_append, hw', hw, h.params hm', hlen, hwb,
    queueBits_buffer (len := (run n).frameLen) heven]

/-- A snapshot's frame is put on the wire, whole (R79). -/
theorem snapshot_emitted (hp : (run n).phase = .tSnap) (hp' : (run (n + 1)).phase = .tEnable) :
    (∀ a < (run n).frameLen, Memory.read (run (n + 1)).wb a = Memory.read (run n).fb a) ∧
      ∃ k, n < k ∧ (run k).wire = (run n).wire ++ bufferBits (run n).params (run n).frameLen (run n).fb := by
  obtain ⟨hwb, -, hw⟩ := (h.liveStep le_rfl).leavesSnap hp (by simp [hp'])
  have hread : ∀ a < (run n).frameLen, Memory.read (run (n + 1)).wb a = Memory.read (run n).fb a := fun a ha => by
    rw [hwb, Memory.read_below_of_lt _ ha]
  obtain ⟨m, hm, hstream, hwbm, hwm⟩ := (h.mono (Nat.le_succ n)).stream_follows hp'
  have hnm : n ≤ m := by omega
  obtain ⟨k, hk, hwire⟩ := (h.mono hnm).wb_emitted hstream
  refine ⟨hread, k, by omega, ?_⟩
  have hlen : (run m).frameLen = (run n).frameLen := State.frameLen_congr (h.params hnm) (h.pixcnt hnm)
  rw [hwire, hwm, hw, hwbm, h.params hnm, hlen]
  exact congrArg _ (bufferBits_congr ((h.frame n le_rfl).evenLength (h.live le_rfl)) hread)

end

end Serving

/-- Settles O60: the queue drains since the emit step stays enabled until it is empty (`queue_drains`); with no termination
requested the engine leaves every phase (`Serving.leaves`), so it comes to the snapshot (`Serving.snapshot_follows`), whose
frame is emitted (`Serving.snapshot_emitted`). -/
theorem fairRunsTransmitEveryUpdate : Obligations.FairRunsTransmitEveryUpdate := by
  intro run n hr hfair hf hi
  refine ⟨queue_drains hr hfair hf hi, fun hrun hsig _ => ?_⟩
  by_cases hterm : ∃ m, n ≤ m ∧ (run m).term = true
  · exact .inl hterm
  · have hserving : Serving run n := .of_no_term hr hfair hf hi hrun fun m hm => by
      by_contra ht
      exact hterm ⟨m, hm, by simpa using ht⟩
    obtain ⟨m, hm, hp, hp'⟩ := hserving.snapshot_follows (.inl hsig)
    exact .inr ⟨m, hm, hp, hp', (hserving.mono hm).snapshot_emitted hp hp'⟩

end Sys2Proof.Machine
end
